-- ==== Sys2Proof/Word.lean ====
section
/-! DEFINITION. The words of the VRD: plain abbreviations for the widths of `spec/00_scope.md` rule R7. -/

namespace Sys2Proof

/-- A command word on the command port, `CMD_W` = 36 bits, bit 35 the most significant (R70). -/
abbrev Command := BitVec 36

/-- A response word on the response port, 36 bits (R71). -/
abbrev ResponseWord := BitVec 36

/-- The 32-bit data part of a command or a response, and the width of a register read by `RDREG`. -/
abbrev Word := BitVec 32

/-- A pixel-plane byte address, `ADDR_W` = 32 bits (R50). -/
abbrev Addr := BitVec 32

/-- One byte of the pixel plane, one pixel, `PIX_W` = 8 bits (R50). -/
abbrev Byte := BitVec 8

/-- One Block cell (`COEF_W`) or one residual sample (`RES_W`): 16 bits, two's complement (R7). -/
abbrev Sample := BitVec 16

end Sys2Proof
end

