-- ==== Sys2Proof/Syntax.lean ====
section
/-! DEFINITION. The ten commands of the VRD (`spec/30_encoding.md` rules R74, R75) and the names of its
shapes (`spec/00_scope.md` rule R13, `spec/42_partition_selector.md` rule R125). -/

namespace Sys2Proof

/-- The four canonical shapes of R13. -/
inductive Shape
  | full8x8
  | quad4x4
  | pair8x4
  | pair4x8
deriving DecidableEq, Repr

/-- The eight raw shapes of R125, in the order of their codes 0 to 7. -/
inductive RawShape
  | full8x8
  | pair8x4Bottom
  | pair8x4Top
  | pair8x4
  | pair4x8Right
  | pair4x8Left
  | pair4x8
  | quad4x4
deriving DecidableEq, Repr

/-- The commands: one constructor per row of the opcode map R74, with the operand fields of R75.
A flag is `true` for 1 (R79). -/
inductive Instr
  /-- `NOP`, opcode 0 (R90). -/
  | nop
  /-- `SETQ mquant, halfqp, pquantizer`, opcode 1 (R91). -/
  | setq (mquant : BitVec 8) (halfqp : Bool) (pquantizer : Bool)
  /-- `SETCTX regime, codingset, patf, resred`, opcode 2 (R92); `regime` is `true` for interlaced. -/
  | setctx (regime : Bool) (codingset : BitVec 3) (patf : Bool) (resred : Bool)
  /-- `SETBASE addr`, opcode 3 (R93). -/
  | setbase (addr : Addr)
  /-- `SETSTRIDE stride`, opcode 4 (R94); the pattern of a signed 32-bit number. -/
  | setstride (stride : Word)
  /-- `DECBLK tt, n [, first] [, skip] [, ttout]`, opcode 5 (R110). -/
  | decblk (ttcode : BitVec 3) (noshape : Bool) (first : Bool) (skipblk : Bool) (ttout : Bool) (n : BitVec 3)
  /-- `CLRACC`, opcode 6 (R95). -/
  | clracc
  /-- `RDREG reg`, opcode 7 (R96). -/
  | rdreg (reg : BitVec 4)
  /-- `RDBLK idx`, opcode 8 (R97). -/
  | rdblk (idx : BitVec 6)
  /-- `CLRERR`, opcode 9 (R98). -/
  | clrerr
deriving DecidableEq, Repr

end Sys2Proof
end

