-- ==== Sys2Proof/WellFormed.lean ====
section
/-! DEFINITION. Which terms of `Instr` some legal command word encodes: the field and combination tests of
`spec/30_encoding.md` rule R77 (c) and (d). Every other field value is legal. -/

namespace Sys2Proof

/-- R77 (c), (d): `RDREG` names a register 0 to 9; a `DECBLK` with `NOSHAPE` = 1 has `TTCODE` = 0. -/
def Instr.wf : Instr → Bool
  | .nop => true
  | .setq _ _ _ => true
  | .setctx _ _ _ _ => true
  | .setbase _ => true
  | .setstride _ => true
  | .decblk ttcode noshape _ _ _ _ => !noshape || ttcode == 0
  | .clracc => true
  | .rdreg reg => decide (reg.toNat < 10)
  | .rdblk _ => true
  | .clrerr => true

/-- An instruction that some legal command word encodes (R77, R78). -/
abbrev WellFormed (i : Instr) : Prop := i.wf = true

end Sys2Proof
end

