-- ==== Sys2Proof/Decode.lean ====
section
/-! DEFINITION. The decoder of a 36-bit command word, total, rejecting by name in the order of
`spec/30_encoding.md` rule R84, and the encoder written from the layouts of R75. The admission test of R76 is
not here: it depends on the state and stands in the meanings. -/

namespace Sys2Proof

/-- The opcode field `OP`, bits 35:32 of a command word (R70). -/
def Command.op (w : Command) : BitVec 4 := w.extractLsb' 32 4

/-- The operand field `DATA`, bits 31:0 of a command word (R70). -/
def Command.data (w : Command) : Word := w.extractLsb' 0 32

/-- `RSVMASK(op)`, the bits of `DATA` that R75 shows as 0 (R84). -/
def rsvMask (op : BitVec 4) : Word :=
  match op.toNat with
  | 0 => 0xFFFFFFFF
  | 1 => 0xFFFFFC00
  | 2 => 0xFFFFFFC0
  | 3 => 0x00000000
  | 4 => 0x00000000
  | 5 => 0xFFFFF880
  | 6 => 0xFFFFFFFF
  | 7 => 0xFFFFFFF0
  | 8 => 0xFFFFFFC0
  | 9 => 0xFFFFFFFF
  | _ => 0x00000000

/-- The four kinds of illegal encoding of R77. -/
inductive Illegal
  /-- R77 (a): opcode 10 to 15 -/
  | reservedOpcode
  /-- R77 (b): a reserved bit of `DATA` is 1 -/
  | reservedBit
  /-- R77 (c): `RDREG` of register 10 to 15 -/
  | reservedRegister
  /-- R77 (d): `DECBLK` with `NOSHAPE` = 1 and `TTCODE` not 0 -/
  | shapeConflict
deriving DecidableEq, Repr

/-- What the decoder reads from a command word. -/
inductive Decoded
  | command (i : Instr)
  | illegal (e : Illegal)
deriving DecidableEq, Repr

/-- The command that an opcode 0 to 9 and its operand word stand for, field by field as in R75; no field is
scaled, shifted or split (R79). `none` for the reserved opcodes. -/
def fieldsOf (op : BitVec 4) (d : Word) : Option Instr :=
  match op.toNat with
  | 0 => some .nop
  | 1 => some (.setq (d.extractLsb' 0 8) (d.getLsbD 8) (d.getLsbD 9))
  | 2 => some (.setctx (d.getLsbD 0) (d.extractLsb' 1 3) (d.getLsbD 4) (d.getLsbD 5))
  | 3 => some (.setbase d)
  | 4 => some (.setstride d)
  | 5 => some (.decblk (d.extractLsb' 0 3) (d.getLsbD 3) (d.getLsbD 4) (d.getLsbD 5) (d.getLsbD 6)
      (d.extractLsb' 8 3))
  | 6 => some .clracc
  | 7 => some (.rdreg (d.extractLsb' 0 4))
  | 8 => some (.rdblk (d.extractLsb' 0 6))
  | 9 => some .clrerr
  | _ => none

/-- The decoder, in the order of tests of R84 (after the admission test). -/
def decode (w : Command) : Decoded :=
  match fieldsOf w.op w.data with
  | none => .illegal .reservedOpcode
  | some i =>
    if w.data &&& rsvMask w.op ≠ 0 then .illegal .reservedBit
    else if i.wf then .command i
    else match i with
      | .rdreg _ => .illegal .reservedRegister
      | _ => .illegal .shapeConflict

/-- The opcode of a command (R74). -/
def Instr.opcode : Instr → BitVec 4
  | .nop => 0
  | .setq _ _ _ => 1
  | .setctx _ _ _ _ => 2
  | .setbase _ => 3
  | .setstride _ => 4
  | .decblk _ _ _ _ _ _ => 5
  | .clracc => 6
  | .rdreg _ => 7
  | .rdblk _ => 8
  | .clrerr => 9

/-- A flag as a one-bit field (R79: 1 is true). -/
abbrev flagBit (b : Bool) : BitVec 1 := BitVec.ofBool b

/-- The operand word of a command, most significant field first, reserved bits 0 (R75). -/
def Instr.operands : Instr → Word
  | .nop => 0
  | .setq mquant halfqp pquantizer => (0 : BitVec 22) ++ flagBit pquantizer ++ flagBit halfqp ++ mquant
  | .setctx regime codingset patf resred =>
      (0 : BitVec 26) ++ flagBit resred ++ flagBit patf ++ codingset ++ flagBit regime
  | .setbase addr => addr
  | .setstride stride => stride
  | .decblk ttcode noshape first skipblk ttout n =>
      (0 : BitVec 21) ++ n ++ (0 : BitVec 1) ++ flagBit ttout ++ flagBit skipblk ++ flagBit first
        ++ flagBit noshape ++ ttcode
  | .clracc => 0
  | .rdreg reg => (0 : BitVec 28) ++ reg
  | .rdblk idx => (0 : BitVec 26) ++ idx
  | .clrerr => 0

/-- The command word of an instruction: opcode, then operand word (R70). -/
def encode (i : Instr) : Command := i.opcode ++ i.operands

/-- The 36-bit command word made of the low `nbits` bits of `w`, numbered from bit 0 of the word; the bits above
`nbits` are 0, and a command has no bit above 35 (R70, R80). -/
def commandWord (nbits w : Nat) : Command := BitVec.ofNat 36 (w % 2 ^ nbits)

/-- The instruction the decoder reads from the word whose low `nbits` bits are those of `w`. -/
def decodeTableWord (nbits w : Nat) : Option Instr :=
  match decode (commandWord nbits w) with
  | .command i => some i
  | .illegal _ => none

end Sys2Proof
end

