-- ==== Sys2Proof/Config.lean ====
section
/-! DEFINITION. The configuration of a VRD instance: the parameters of `spec/00_scope.md` rule R7 that name a
choice, the tables and functions of R8 with the constraints a model may assume of them, and the free values.
Nothing here is changed by a command (R45). -/

namespace Sys2Proof

/-- `NSUB(s)`, the number of sub-blocks (R13). -/
def Shape.nsub : Shape → Nat
  | .full8x8 => 1
  | .quad4x4 => 4
  | .pair8x4 => 2
  | .pair4x8 => 2

/-- `W(s)`, the width of a sub-block in cells (R13). -/
def Shape.width : Shape → Nat
  | .full8x8 => 8
  | .quad4x4 => 4
  | .pair8x4 => 8
  | .pair4x8 => 4

/-- `H(s)`, the height of a sub-block in cells (R13). -/
def Shape.height : Shape → Nat
  | .full8x8 => 8
  | .quad4x4 => 4
  | .pair8x4 => 4
  | .pair4x8 => 8

/-- `CAP(s) = W(s) * H(s)`, the number of coefficients a sub-block can hold (R13). -/
def Shape.cap (s : Shape) : Nat := s.width * s.height

/-- The values of the parameter `DC_SELECT` (R7, R177). -/
inductive DcSelect
  /-- the DC-only transform is selected when the placed count is 1 -/
  | countEq1
  /-- the DC-only transform is selected when the final cursor is 1 -/
  | cursorEq1
deriving DecidableEq, Repr

/-- The parameter `ORIENT_SUBPAT` (R7, R133): the 2-bit sub-pattern of each oriented code. -/
structure OrientSubpat where
  top : BitVec 2
  bottom : BitVec 2
  left : BitVec 2
  right : BitVec 2
deriving DecidableEq, Repr

/-- A configuration of a VRD (R7, R8), with the constraints R8 puts on it. A value that breaks one of them is
not a VRD configuration (R157, R210; `spec/93_implementation_defined.md` U5), so the constraints are fields. -/
structure Cfg where
  /-- `SCAN[s][r]`, a permutation of `0..CAP(s)-1` (R157 (a)); `r` is `true` for interlaced -/
  scan : (s : Shape) → Bool → Equiv.Perm (Fin s.cap)
  /-- `SCAN[FULL8x8][0][0] = 0` (R157 (b)) -/
  scan_dc : scan .full8x8 false ⟨0, by decide⟩ = ⟨0, by decide⟩
  /-- `ITX_FULL[s]`: sample `i` of the full transform of the cells, a pure function (R209) -/
  itxFull : Shape → List Sample → Nat → Sample
  /-- `ITX_DC[s]`: sample `i` of the DC-only transform of the cells, a pure function (R209) -/
  itxDc : Shape → List Sample → Nat → Sample
  /-- the equivalence contract R210 (a): with at most one non-zero cell the two transforms agree -/
  itx_contract : ∀ (s : Shape) (coeffs : List Sample),
    coeffs.countP (fun c => c != 0) ≤ 1 → itxDc s coeffs = itxFull s coeffs
  /-- the parameter `DC_SELECT` (R177) -/
  dcSelect : DcSelect
  /-- the parameter `ORIENT_SUBPAT` (R133) -/
  orient : OrientSubpat

namespace Config

/-- FREE VALUE (log 1): the contents of the eight scan tables, which no source gives (N1). -/
opaque scanTable : (s : Shape) → Bool → Equiv.Perm (Fin s.cap)

/-- FREE VALUE (log 2): the arithmetic of the four full transforms, which no source gives (N2). -/
opaque itxFullSample : Shape → List Sample → Nat → Sample

/-- FREE VALUE (log 2): the DC-only transforms where the contract R210 (a) says nothing of them. -/
opaque itxDcSample : Shape → List Sample → Nat → Sample

/-- FREE VALUE (log 3): what `RDBLK` answers before the first checked `DECBLK` (R47), a fresh value at every
draw. -/
opaque freeCell : Nat → Sample

/-- The scan tables of this VRD: free but for R157 (b). The progressive 8x8 table is the free table with the
images of two indices exchanged so that index 0 lands at position 0; every table that R157 allows is of this
form. -/
def scan : (s : Shape) → Bool → Equiv.Perm (Fin s.cap)
  | .full8x8, false =>
      Equiv.swap (scanTable .full8x8 false ⟨0, by decide⟩) ⟨0, by decide⟩ * scanTable .full8x8 false
  | .full8x8, true => scanTable .full8x8 true
  | .quad4x4, r => scanTable .quad4x4 r
  | .pair8x4, r => scanTable .pair8x4 r
  | .pair4x8, r => scanTable .pair4x8 r

/-- The DC-only transforms of this VRD: free but for the contract R210 (a). -/
def itxDc (s : Shape) (coeffs : List Sample) : Nat → Sample :=
  if coeffs.countP (fun c => c != 0) ≤ 1 then itxFullSample s coeffs else itxDcSample s coeffs

/-- The configuration of this hardware: the parameter values of R7 (`DC_SELECT = COUNT_EQ_1`,
`ORIENT_SUBPAT = (TOP 2, BOTTOM 1, LEFT 2, RIGHT 1)`) and the free tables and functions of R8. -/
def vrd : Cfg where
  scan := scan
  scan_dc := by
    show (Equiv.swap (scanTable .full8x8 false ⟨0, _⟩) ⟨0, _⟩) (scanTable .full8x8 false ⟨0, _⟩) = _
    exact Equiv.swap_apply_left _ _
  itxFull := itxFullSample
  itxDc := itxDc
  itx_contract := by
    intro s coeffs h
    exact if_pos h
  dcSelect := .countEq1
  orient := { top := 2, bottom := 1, left := 2, right := 1 }

end Config

end Sys2Proof
end

