-- ==== Sys2Proof/Machine/State.lean ====
section
/-! DEFINITION. The state of the machine: every piece of state `spec/10_state.md` rule R20 gives the VRD, the
model's own continuation of a `DECBLK` in progress (R41), and the environment behind the ports as plain data
(R9, R43, R44, R199). -/

namespace Sys2Proof.Machine

open Sys2Proof

/-- Why the machine stops with a fault. There is no constructor: every fault of the VRD (R220) is a next state,
every wait is a next state, and after every fault the VRD answers commands (R231). -/
inductive Fault
deriving DecidableEq, Repr

/-- Why the machine has no step. -/
inductive Refusal
  /-- Raised by `exec` alone, for an instruction the model gives no meaning yet. Safe: no claim about the
  instruction can be proved. No arm raises it in this model. -/
  | notModelled (mnemonic : String)
  /-- Raised by `DECBLK` when a pixel address lies in memory that is not ordinary (a device): outside the spec,
  R60 and U9 ("Non-ordinary memory: `refuse`"). Safe: the model says nothing of such a run. -/
  | nonOrdinaryMemory (addr : Addr)
deriving DecidableEq, Repr

/-- `PHASE`, the sequencer state (R41). -/
inductive Phase
  | idle
  | exec
  | check
  | select
  | pull
  | recon
  | finish
deriving DecidableEq, Repr

/-- The symbol classes of R202. -/
inductive SymClass
  /-- class 0, `T_TTBLK`: a raw shape code -/
  | ttblk
  /-- class 1, `T_SUBBLKPAT`: the 4-bit quadrant code -/
  | subblkpat
  /-- class 2, `T_PAT2`: the 2-bit pattern code -/
  | pat2
deriving DecidableEq, Repr

/-- The kind of a transform request (R179). -/
inductive ItxKind
  /-- kind 0, the full transform -/
  | full
  /-- kind 1, the DC-only transform -/
  | dc
deriving DecidableEq, Repr

/-- The answer of the coefficient decoder to one request (R205, R206). -/
structure CoefAnswer where
  err : Bool
  last : Bool
  skip : BitVec 32
  value : BitVec 32
deriving DecidableEq, Repr

/-- One code of the coded bit stream, seen through the ports: what the bit source answers if a symbol is read
here, and what the coefficient decoder answers if a coefficient is requested here (R200, R205). Either request
moves the shared cursor past it (R43). -/
structure Code where
  sym : BitVec 4
  coef : CoefAnswer
deriving DecidableEq, Repr

/-- A request the VRD puts on one of its requester ports (R199). -/
inductive Request
  /-- symbol port: class and regime (R201) -/
  | symRead (cls : SymClass) (regime : Bool)
  /-- coefficient port: the coding set (R205) -/
  | coefNext (codingset : BitVec 3)
  /-- transform port: normalized shape code, kind, cells in local-index order (R208) -/
  | itxCall (shape : BitVec 3) (kind : ItxKind) (coeffs : List Sample)
  /-- memory port, `we` = 0 (R212) -/
  | memRead (addr : Addr)
  /-- memory port, `we` = 1 (R212) -/
  | memWrite (addr : Addr) (byte : Byte)
deriving DecidableEq, Repr

/-- What the platform puts at an area of the pixel-plane space in place of ordinary memory (R52, R60). -/
inductive AreaKind
  /-- no agent answers there: the VRD waits (R52, U9) -/
  | unbacked
  /-- not ordinary memory: outside the spec (R60, U9) -/
  | device
deriving DecidableEq, Repr

/-- An area of the platform's address map that is not ordinary memory: the addresses `base` to
`base + size - 1`. -/
structure Area where
  base : Nat
  size : Nat
  kind : AreaKind
deriving DecidableEq, Repr

/-- Register 0, `QCTX` (R21). -/
structure Qctx where
  mquant : BitVec 8
  halfqp : Bool
  pquantizer : Bool
deriving DecidableEq, Repr

/-- Register 1, `CTX` (R22). -/
structure Ctx where
  regime : Bool
  codingset : BitVec 3
  patf : Bool
  resred : Bool
deriving DecidableEq, Repr

/-- Register 5, `RESULT` (R27). -/
structure ResultReg where
  valid : Bool
  subpat : BitVec 4
  shape : BitVec 3
  pat : BitVec 8
deriving DecidableEq, Repr

/-- The fault record of register 7, `STATUS` (R29); its fourth field is `State.cfgv`. -/
structure FaultRecord where
  err : Bool
  errcode : BitVec 4
  errsub : BitVec 2
deriving DecidableEq, Repr

/-- The working registers of R35, with the widths of R20. -/
structure Work where
  raw : BitVec 3
  wshape : BitVec 3
  wsubpat : BitVec 4
  quant : BitVec 8
  scale : BitVec 9
  k : BitVec 2
  cur : BitVec 33
  cnt : BitVec 7
  last : Bool
  empty : Bool
deriving DecidableEq, Repr

/-- The operand fields of the `DECBLK` in progress (R75 format D). -/
structure DecOps where
  ttcode : BitVec 3
  noshape : Bool
  first : Bool
  skipblk : Bool
  ttout : Bool
  n : BitVec 3
deriving DecidableEq, Repr

/-- The MODEL's own: where a `DECBLK` stands inside a phase while it waits for an answer. R41 lets a model
represent a command as steps "with `PHASE` and the working registers as the continuation"; these fields are the
part of the continuation that has no name in the spec. -/
structure Cont where
  /-- the operands of the command in progress -/
  ops : DecOps
  /-- in `SELECT`: `RAW` has been determined -/
  rawDone : Bool
  /-- in `RECON`: the residual samples, once the transform unit has answered -/
  res : Option (List Sample)
  /-- in `RECON`: the row-major index of the pixel being accumulated -/
  pix : Nat
  /-- in `RECON`: the byte read for that pixel and not yet written back -/
  old : Option Byte
deriving DecidableEq, Repr

/-- The state of the VRD and of the agents behind its ports. -/
structure State where
  /-- register 0 -/
  qctx : Qctx
  /-- register 1 -/
  ctx : Ctx
  /-- register 2 -/
  dstbase : Addr
  /-- register 3, the two's complement pattern of a signed number (R24) -/
  dststride : Word
  /-- which configuration registers have been written (R25) -/
  cfgv : BitVec 4
  /-- register 4 (R26) -/
  ttacc : Word
  /-- register 5 -/
  result : ResultReg
  /-- register 6 (R28) -/
  placed : Vector (BitVec 7) 4
  /-- register 7, but for `cfgv` -/
  status : FaultRecord
  /-- register 8 (R30) -/
  cmdcnt : Word
  /-- the Block (R33) -/
  blk : Vector Sample 64
  /-- working registers (R35); `quant` and `scale` are register 9 (R31) -/
  work : Work
  /-- the sequencer (R41) -/
  phase : Phase
  /-- MODEL: the continuation of a `DECBLK` in progress -/
  cont : Cont
  /-- MODEL: a `DECBLK` has passed its checks since reset, so that `blk` is specified (R47) -/
  blkDefined : Bool
  /-- MODEL: how many free values `RDBLK` has drawn (log 3) -/
  draws : Nat
  /-- the request issued and not yet answered (R213) -/
  outstanding : Option Request
  /-- environment: the command words offered and not yet taken, oldest first (R215) -/
  cmds : List Command
  /-- environment: the reset input is asserted (R250) -/
  resetPin : Bool
  /-- environment: the codes ahead of the shared bit cursor (R43) -/
  stream : List Code
  /-- environment: how many more requests the agents answer before they fall silent; `none`: every request is
  answered (R266) -/
  grants : Option Nat
  /-- environment: the pixel plane, in canonical form (R44, R50) -/
  mem : List Host.Cell
  /-- environment: the areas of the address space that are not ordinary memory (R52, R59, R60) -/
  platform : List Area
  /-- output: the response words put on the response port, oldest first (R71) -/
  responses : List ResponseWord
  /-- output: the requests answered so far, in the order they were issued (R119) -/
  requests : List Request
deriving DecidableEq, Repr

/-- The machine right after reset: R46 and R250, with nothing offered by the environment. The working registers
that R46 leaves unspecified hold 0 (DESIGN CHOICE, unsafe, log 4); the cells hold 0 and are not read before a checked
`DECBLK` (DESIGN CHOICE, log 3). The environment's fields are the model's choice (logs 8, 9, 11). -/
def State.reset : State where
  qctx := { mquant := 0, halfqp := false, pquantizer := false }
  ctx := { regime := false, codingset := 0, patf := false, resred := false }
  dstbase := 0
  dststride := 0
  cfgv := 0
  ttacc := 0
  result := { valid := false, subpat := 0, shape := 0, pat := 0 }
  placed := Vector.replicate 4 0
  status := { err := false, errcode := 0, errsub := 0 }
  cmdcnt := 0
  blk := Vector.replicate 64 0
  work :=
    { raw := 0, wshape := 0, wsubpat := 0, quant := 0, scale := 0, k := 0, cur := 0, cnt := 0, last := false,
      empty := false }
  phase := .idle
  cont :=
    { ops := { ttcode := 0, noshape := false, first := false, skipblk := false, ttout := false, n := 0 },
      rawDone := false, res := none, pix := 0, old := none }
  blkDefined := false
  draws := 0
  outstanding := none
  cmds := []
  resetPin := false
  stream := []
  grants := none
  mem := []
  platform := []
  responses := []
  requests := []

end Sys2Proof.Machine
end

