-- ==== Sys2Proof/Machine/Ops.lean ====
section
/-! DEFINITION. The named operations over the state: the pixel-plane memory, the Block and `PLACED`, the response
port, raising and clearing a fault, the four requester ports, and reset. -/

namespace Sys2Proof.Machine

open Sys2Proof

/-! ## The pixel plane -/

namespace Memory

/-- What an address that is not listed reads as (DESIGN CHOICE, unsafe, log 5: no source gives the contents of the
plane). -/
def unlisted : Byte := 0

/-- The canonical form: addresses strictly rising from `lo` and below `2^32`, no entry equal to `unlisted`. -/
def wfFrom (lo : Nat) : List Host.Cell → Bool
  | [] => true
  | (a, b) :: rest => decide (lo ≤ a) && decide (a < 2 ^ 32) && b != unlisted && wfFrom (a + 1) rest

/-- Memory is in its canonical form. -/
def wf (m : List Host.Cell) : Bool := wfFrom 0 m

/-- The byte at an address (R52, `MemRead`). -/
def read (m : List Host.Cell) (a : Nat) : Byte :=
  match m with
  | [] => unlisted
  | (x, b) :: rest => if x = a then b else read rest a

/-- Put an entry in front of the rest unless it holds what an unlisted address reads as. -/
def consUnlessUnlisted (a : Nat) (b : Byte) (rest : List Host.Cell) : List Host.Cell :=
  if b = unlisted then rest else (a, b) :: rest

/-- Write the byte at an address and keep the canonical form (R52, `MemWrite`). -/
def write (m : List Host.Cell) (a : Nat) (b : Byte) : List Host.Cell :=
  match m with
  | [] => consUnlessUnlisted a b []
  | (x, y) :: rest =>
    if a < x then consUnlessUnlisted a b ((x, y) :: rest)
    else if a = x then consUnlessUnlisted a b rest
    else (x, y) :: write rest a b

end Memory

/-- The byte of the pixel plane at an address. -/
def State.byteAt (s : State) (a : Addr) : Byte := Memory.read s.mem a.toNat

/-- The plane with one byte written. -/
def State.setByte (s : State) (a : Addr) (b : Byte) : State :=
  { s with mem := Memory.write s.mem a.toNat b }

/-- An area of the platform covers the address. -/
def Area.covers (r : Area) (a : Addr) : Bool :=
  decide (r.base ≤ a.toNat) && decide (a.toNat < r.base + r.size)

/-- What the platform has at an address in place of ordinary memory; `none` for ordinary memory. -/
def State.areaAt (s : State) (a : Addr) : Option AreaKind :=
  (s.platform.find? (fun r => r.covers a)).map Area.kind

/-! ## The Block and the counts -/

/-- `BLK[c]` (R33). -/
def State.cellAt (s : State) (c : Nat) : Sample := s.blk[c]?.getD 0

/-- `BLK[c] <- v` (R163). -/
def State.setCell (s : State) (c : Nat) (v : Sample) : State := { s with blk := s.blk.setIfInBounds c v }

/-- `PLACED[k]` (R28). -/
def State.placedAt (s : State) (k : Nat) : BitVec 7 := s.placed[k]?.getD 0

/-- `PLACED[k] <- n` (R110, R165). -/
def State.setPlaced (s : State) (k : Nat) (n : BitVec 7) : State :=
  { s with placed := s.placed.setIfInBounds k n }

/-- The clear of R113: `BLK`, `PLACED` and `RESULT` become 0. -/
def State.clearBlock (s : State) : State :=
  { s with
    blk := Vector.replicate 64 0
    placed := Vector.replicate 4 0
    result := { valid := false, subpat := 0, shape := 0, pat := 0 }
    blkDefined := true }

/-- `CFGV[b] <- 1` (R25). -/
def State.setCfgv (s : State) (b : Nat) : State := { s with cfgv := s.cfgv ||| (1#4 <<< b) }

/-! ## The response port -/

/-- The status codes of R72. -/
inductive StatusCode
  | ok
  | eIllcmd
  | eUncfg
  | eQzero
  | eStream
  | refused
deriving DecidableEq, Repr

/-- The 4-bit code of a status (R72). -/
def StatusCode.bits : StatusCode → BitVec 4
  | .ok => 0
  | .eIllcmd => 1
  | .eUncfg => 2
  | .eQzero => 3
  | .eStream => 4
  | .refused => 5

/-- The value of register 7: `ERR` bit 0, `ERRCODE` bits 7:4, `ERRSUB` bits 9:8, `CFGV` bits 15:12 (R29). -/
def State.statusWord (s : State) : Word :=
  (0 : BitVec 16) ++ s.cfgv ++ (0 : BitVec 2) ++ s.status.errsub ++ s.status.errcode ++ (0 : BitVec 3)
    ++ BitVec.ofBool s.status.err

/-- `Respond(status, data)` (R73): the response word goes out, `CMDCNT` counts a command that ends OK, and the
sequencer returns to `IDLE`. -/
def State.respond (s : State) (st : StatusCode) (data : Word) : State :=
  { s with
    responses := s.responses ++ [st.bits ++ data]
    cmdcnt := if st = .ok then s.cmdcnt + 1 else s.cmdcnt
    phase := .idle }

/-- The response of a command that is not executed because a fault is pending (R76). -/
def State.refuse (s : State) : State := s.respond .refused s.statusWord

/-! ## Taking a fault, and the return from one -/

/-- The first fault is recorded, a later one leaves the record alone (R222). -/
def State.recordFault (s : State) (code : StatusCode) (sub : BitVec 2) : State :=
  if s.status.err then s
  else { s with status := { err := true, errcode := code.bits, errsub := sub } }

/-- `raise Fault(code, sub)` (R222): record, then respond with the code and the `STATUS` register. -/
def State.raiseFault (s : State) (code : StatusCode) (sub : BitVec 2) : State :=
  let t := s.recordFault code sub
  t.respond code t.statusWord

/-- The return from the faulted condition (R98, R228): the three fields of the record are cleared, nothing else. -/
def State.clearFault (s : State) : State :=
  { s with status := { err := false, errcode := 0, errsub := 0 } }

/-! ## The requester ports -/

/-- What becomes of a request. -/
inductive Reply (α : Type)
  /-- the agent answered -/
  | answer (a : α) (s : State)
  /-- the agent has not answered: the request is outstanding and the VRD waits (R213, R266) -/
  | waits (s : State)
  /-- outside the spec -/
  | refused (r : Refusal)

/-- The request stays outstanding (R213). -/
def State.await (s : State) (r : Request) : State := { s with outstanding := some r }

/-- The request has been answered: nothing is outstanding, the request is in the log, one grant is used. -/
def State.answered (s : State) (r : Request) : State :=
  { s with outstanding := none, requests := s.requests ++ [r], grants := s.grants.map (fun n => n - 1) }

/-- A request on the coded stream has been answered: the cursor stands before `rest` (R43). -/
def State.gotCode (s : State) (r : Request) (rest : List Code) : State := { s.answered r with stream := rest }

/-- The agents answer the next request (R266). -/
def State.agentsAnswer (s : State) : Bool := s.grants != some 0

/-- A request answered from the coded stream: the cursor moves past one code (R43, R200, R205). -/
def State.readCode (s : State) (r : Request) : Reply Code :=
  match s.stream with
  | code :: rest =>
    if s.agentsAnswer then .answer code (s.gotCode r rest) else .waits (s.await r)
  | [] => .waits (s.await r)

/-- `SymRead(class)` (R201): the regime goes with every request. -/
def State.symRead (s : State) (cls : SymClass) : Reply (BitVec 4) :=
  match s.readCode (.symRead cls s.ctx.regime) with
  | .answer code t => .answer code.sym t
  | .waits t => .waits t
  | .refused r => .refused r

/-- `CoefNext(CTX.CODINGSET)` (R205). -/
def State.coefNext (s : State) : Reply CoefAnswer :=
  match s.readCode (.coefNext s.ctx.codingset) with
  | .answer code t => .answer code.coef t
  | .waits t => .waits t
  | .refused r => .refused r

/-- A request answered at once by an agent that keeps no state. -/
def State.askPure {α : Type} (s : State) (r : Request) (a : α) : Reply α :=
  if s.agentsAnswer then .answer a (s.answered r) else .waits (s.await r)

/-- `MemRead(a, 1)` (R52); no step at an unbacked address, none in a device (R52, R60, U9). -/
def State.memRead (s : State) (a : Addr) : Reply Byte :=
  match s.areaAt a with
  | none => s.askPure (.memRead a) (s.byteAt a)
  | some .unbacked => .waits (s.await (.memRead a))
  | some .device => .refused (.nonOrdinaryMemory a)

/-- `MemWrite(a, 1, b)` (R52): the byte is visible when the write is acknowledged (R212). -/
def State.memWrite (s : State) (a : Addr) (b : Byte) : Reply Unit :=
  match s.areaAt a with
  | none =>
    match s.askPure (.memWrite a b) () with
    | .answer _ t => .answer () (t.setByte a b)
    | .waits t => .waits t
    | .refused r => .refused r
  | some .unbacked => .waits (s.await (.memWrite a b))
  | some .device => .refused (.nonOrdinaryMemory a)

/-! ## Reset and the command port -/

/-- Reset of the VRD at any time (R250, R252): every piece of VRD state takes its reset value, a request in
progress is abandoned, and the environment keeps its state (R251). The free-value counter is the model's and
goes on, so that a read after reset need not repeat (R47). -/
def State.applyReset (s : State) : State :=
  { State.reset with
    draws := s.draws
    cmds := s.cmds
    resetPin := false
    stream := s.stream
    grants := s.grants
    mem := s.mem
    platform := s.platform
    responses := s.responses
    requests := s.requests }

/-- A command word is taken from the command port (R41, R215): the sequencer leaves `IDLE`. -/
def State.accept (s : State) (rest : List Command) : State := { s with cmds := rest, phase := .exec }

/-- The interrupt output, a level equal to `STATUS.ERR` (R230). -/
def State.irq (s : State) : Bool := s.status.err

end Sys2Proof.Machine
end

