-- ==== Sys2Proof/Machine/Operands.lean ====
section
/-! DEFINITION. Operand forms and arithmetic: shape codes (R125, R135), the geometry of the Block and of the plane
(R34, R53), the dequantizer (R145, R146), the pixel clamp (R182), the pattern bitmap (R188) and the register
layouts (R21 to R31). -/

namespace Sys2Proof.Machine

open Sys2Proof

/-! ## Shape codes -/

/-- The raw shape with a 3-bit code (R125). -/
def rawShapeOf (code : BitVec 3) : RawShape :=
  match code.toNat with
  | 0 => .full8x8
  | 1 => .pair8x4Bottom
  | 2 => .pair8x4Top
  | 3 => .pair8x4
  | 4 => .pair4x8Right
  | 5 => .pair4x8Left
  | 6 => .pair4x8
  | _ => .quad4x4

/-- The canonical shape of a raw shape (R125, R135). -/
def canonical : RawShape → Shape
  | .full8x8 => .full8x8
  | .pair8x4Bottom => .pair8x4
  | .pair8x4Top => .pair8x4
  | .pair8x4 => .pair8x4
  | .pair4x8Right => .pair4x8
  | .pair4x8Left => .pair4x8
  | .pair4x8 => .pair4x8
  | .quad4x4 => .quad4x4

/-- The normalized code of a canonical shape (R135). -/
def shapeCode : Shape → BitVec 3
  | .full8x8 => 0
  | .pair8x4 => 3
  | .pair4x8 => 6
  | .quad4x4 => 7

/-- The canonical shape whose code `WSHAPE` is (R135). -/
def shapeOf (wshape : BitVec 3) : Shape := canonical (rawShapeOf wshape)

/-- `PBITS(s)`, the number of sub-pattern bits (R13). -/
def pbits : Shape → Nat
  | .full8x8 => 0
  | .quad4x4 => 4
  | .pair8x4 => 2
  | .pair4x8 => 2

/-! ## Geometry -/

/-- `X0(s, k)`, the first column of sub-block `k` (R34). -/
def x0 (s : Shape) (k : Nat) : Nat :=
  match s with
  | .full8x8 => 0
  | .quad4x4 => 4 * (k % 2)
  | .pair8x4 => 0
  | .pair4x8 => 4 * k

/-- `Y0(s, k)`, the first row of sub-block `k` (R34). -/
def y0 (s : Shape) (k : Nat) : Nat :=
  match s with
  | .full8x8 => 0
  | .quad4x4 => 4 * (k / 2)
  | .pair8x4 => 4 * k
  | .pair4x8 => 0

/-- `CELL(s, k, p)`, the Block cell of local index `p` of sub-block `k` (R34). -/
def cellIndex (s : Shape) (k p : Nat) : Nat := 8 * (y0 s k + p / s.width) + (x0 s k + p % s.width)

/-- The sum of R53 over the integers, before `wrap_u32`; `DSTSTRIDE` is read as a signed number. -/
def pixSum (base : Addr) (stride : Word) (s : Shape) (k y x : Nat) : Int :=
  (base.toNat : Int) + ((y0 s k + y : Nat) : Int) * stride.toInt + ((x0 s k + x : Nat) : Int)

/-- `PIXADDR(s, k, y, x)` (R53). -/
def pixAddr (base : Addr) (stride : Word) (s : Shape) (k y x : Nat) : Addr :=
  BitVec.ofInt 32 (pixSum base stride s k y x)

/-- The cells of sub-block `k` in local-index order, `coeffs[p] = BLK[CELL(s, k, p)]` (R175, R178). -/
def State.coeffsOf (s : State) (sh : Shape) (k : Nat) : List Sample :=
  (List.range sh.cap).map (fun p => s.cellAt (cellIndex sh k p))

/-- The scan-table multiplexer (R156): the local index of cursor `i`. It is read only with `i < CAP(s)`; the
value outside that range is used nowhere. -/
def scanAt (c : Cfg) (s : Shape) (regime : Bool) (i : Nat) : Nat :=
  if h : i < s.cap then (c.scan s regime ⟨i, h⟩).val else 0

/-! ## The dequantizer -/

/-- `QUANT = abs(MQUANT)` (R145). -/
def quantOf (mquant : BitVec 8) : BitVec 8 := BitVec.ofNat 8 mquant.toInt.natAbs

/-- `SCALE = 2 * QUANT`, plus the half-step flag for a positive `MQUANT` (R145). -/
def scaleOf (mquant : BitVec 8) (halfqp : Bool) : BitVec 9 :=
  BitVec.ofNat 9 (2 * mquant.toInt.natAbs + (if 0 < mquant.toInt then halfqp.toNat else 0))

/-- `wrap_s16(value * SCALE)`, the low 16 bits of the exact product (R148). -/
def scaled (scale : BitVec 9) (value : BitVec 32) : Sample := BitVec.ofInt 16 (value.toInt * (scale.toNat : Int))

/-- `DEQ(value)` (R146): multiply, then, with `PQUANTIZER` = 0, add `-QUANT` to a negative product and `+QUANT`
to any other; both narrowed to 16 bits. -/
def dequant (quant : BitVec 8) (scale : BitVec 9) (pquantizer : Bool) (value : BitVec 32) : Sample :=
  let t := scaled scale value
  if pquantizer then t
  else BitVec.ofInt 16 (t.toInt + (if t.toInt < 0 then -(quant.toNat : Int) else (quant.toNat : Int)))

/-! ## The pixel accumulator and the pattern bitmap -/

/-- `clamp(old + r, 0, 255)`, the sum exact (R182). -/
def accumulate (old : Byte) (r : Sample) : Byte :=
  BitVec.ofInt 8 (max 0 (min 255 ((old.toNat : Int) + r.toInt)))

/-- The two low bits of the sub-pattern as numbers, for the pair shapes (R188). -/
def subpatBit (w : BitVec 4) (i : Nat) : BitVec 4 := (w >>> i) &&& 1

/-- `PAT` on the four quadrants (R188). -/
def quadrants (s : Shape) (w : BitVec 4) : BitVec 4 :=
  match s with
  | .full8x8 => 0xF
  | .quad4x4 => ~~~w
  | .pair8x4 => ~~~(subpatBit w 1 * 0xC ||| subpatBit w 0 * 0x3)
  | .pair4x8 => ~~~(w * 5)

/-- `PAT`, 8 bits of which bits 7:4 are 0 (R188). -/
def patOf (s : Shape) (w : BitVec 4) : BitVec 8 := (quadrants s w).setWidth 8

/-! ## Register layouts -/

/-- Register 0 (R21). -/
def qctxWord (q : Qctx) : Word :=
  (0 : BitVec 22) ++ BitVec.ofBool q.pquantizer ++ BitVec.ofBool q.halfqp ++ q.mquant

/-- Register 1 (R22). -/
def ctxWord (x : Ctx) : Word :=
  (0 : BitVec 26) ++ BitVec.ofBool x.resred ++ BitVec.ofBool x.patf ++ x.codingset ++ BitVec.ofBool x.regime

/-- Register 5 (R27). -/
def resultWord (r : ResultReg) : Word :=
  (0 : BitVec 16) ++ BitVec.ofBool r.valid ++ r.subpat ++ r.shape ++ r.pat

/-- Register 6 (R28). -/
def State.placedWord (s : State) : Word :=
  (0 : BitVec 1) ++ s.placedAt 3 ++ (0 : BitVec 1) ++ s.placedAt 2 ++ (0 : BitVec 1) ++ s.placedAt 1
    ++ (0 : BitVec 1) ++ s.placedAt 0

/-- Register 9 (R31). -/
def workWord (w : Work) : Word := (0 : BitVec 8) ++ w.quant ++ (0 : BitVec 7) ++ w.scale

/-- `REGVAL(r)` (R96, R32); numbers 10 to 15 are reserved and never reach this. -/
def State.regVal (s : State) (r : BitVec 4) : Word :=
  match r.toNat with
  | 0 => qctxWord s.qctx
  | 1 => ctxWord s.ctx
  | 2 => s.dstbase
  | 3 => s.dststride
  | 4 => s.ttacc
  | 5 => resultWord s.result
  | 6 => s.placedWord
  | 7 => s.statusWord
  | 8 => s.cmdcnt
  | 9 => workWord s.work
  | _ => 0

end Sys2Proof.Machine
end

