-- ==== Sys2Proof/Machine/Flags.lean ====
section
/-! DEFINITION. The single-bit computations of the VRD (R42): the admission test, the emptiness of a sub-block, the
condition for reading the 2-bit pattern code, the overrun test and the DC selector. -/

namespace Sys2Proof.Machine

open Sys2Proof

/-- R76: the opcodes executed also while a fault is pending are `NOP` 0, `RDREG` 7, `RDBLK` 8, `CLRERR` 9. -/
def admittedWhileFaulted (op : BitVec 4) : Bool := op == 0 || op == 7 || op == 8 || op == 9

/-- The admission test of R76 for a command word's opcode. -/
def State.admits (s : State) (op : BitVec 4) : Bool := !s.status.err || admittedWhileFaulted op

/-- All four configuration registers have been written (R25, R112). -/
def State.configured (s : State) : Bool := s.cfgv == 0b1111

/-- R116 (a), R137: the shape has a sub-pattern and bit `PBITS(s)-1-k` of it is 1. -/
def isEmptySub (s : Shape) (wsubpat : BitVec 4) (k : Nat) : Bool :=
  decide (0 < pbits s) && wsubpat.getLsbD (pbits s - 1 - k)

/-- The generic pair codes of R126. -/
def isGeneric (r : RawShape) : Bool := r == .pair8x4 || r == .pair4x8

/-- `READ2` of R131, with the term of the resolution-reduction flag as the rule writes it. -/
def read2 (r : RawShape) (noshape first patf resred : Bool) : Bool :=
  isGeneric r || (noshape && (!first || patf || (resred && !first)))

/-- The overrun test of R162: `CUR >= CAP(s)`. -/
def overruns (s : Shape) (cur : BitVec 33) : Bool := decide (s.cap ≤ cur.toNat)

/-- The DC selector of R177. -/
def dcSel (d : DcSelect) (cnt : BitVec 7) (cur : BitVec 33) : Bool :=
  match d with
  | .countEq1 => cnt == 1
  | .cursorEq1 => cur == 1

end Sys2Proof.Machine
end

