-- ==== Sys2Proof/Machine/Configure.lean ====
section
/-! DEFINITION. The configuration commands `SETQ`, `SETCTX`, `SETBASE`, `SETSTRIDE`
(`spec/40_commands_config.md` rules R91 to R94). Each is refused while a fault is pending (R76). -/

namespace Sys2Proof.Machine

open Sys2Proof

/-- `SETQ` (R91). -/
def execSetq (mquant : BitVec 8) (halfqp pquantizer : Bool) (s : State) : Host.Outcome State Fault Refusal :=
  if s.status.err then .next s.refuse
  else .next (({ s with qctx := { mquant, halfqp, pquantizer } }.setCfgv 0).respond .ok 0)

/-- `SETCTX` (R92). -/
def execSetctx (regime : Bool) (codingset : BitVec 3) (patf resred : Bool) (s : State) :
    Host.Outcome State Fault Refusal :=
  if s.status.err then .next s.refuse
  else .next (({ s with ctx := { regime, codingset, patf, resred } }.setCfgv 1).respond .ok 0)

/-- `SETBASE` (R93). -/
def execSetbase (addr : Addr) (s : State) : Host.Outcome State Fault Refusal :=
  if s.status.err then .next s.refuse
  else .next (({ s with dstbase := addr }.setCfgv 2).respond .ok 0)

/-- `SETSTRIDE` (R94). -/
def execSetstride (stride : Word) (s : State) : Host.Outcome State Fault Refusal :=
  if s.status.err then .next s.refuse
  else .next (({ s with dststride := stride }.setCfgv 3).respond .ok 0)

end Sys2Proof.Machine
end

