-- ==== Sys2Proof/Machine/Selector.lean ====
section
/-! DEFINITION. The partition selector, unit PSEL: the `SELECT` phase of `DECBLK`
(`spec/42_partition_selector.md` rules R127 to R137), and the head of the sub-block loop it hands over to
(R116). -/

namespace Sys2Proof.Machine

open Sys2Proof

/-- R130: the 4-bit code is complemented. -/
def quadSubpat (sym : BitVec 4) : BitVec 4 := ~~~sym

/-- R132: bits 1:0 of the answer, exchanged with 3 when not 0. -/
def pairSubpat (sym : BitVec 4) : BitVec 4 :=
  let v := sym &&& 3
  if v = 0 then 0 else v ^^^ 3

/-- R133: the sub-pattern an oriented code stands for; the other codes have none. -/
def orientedSubpat (o : OrientSubpat) (r : RawShape) : BitVec 4 :=
  match r with
  | .pair8x4Top => o.top.setWidth 4
  | .pair8x4Bottom => o.bottom.setWidth 4
  | .pair4x8Left => o.left.setWidth 4
  | .pair4x8Right => o.right.setWidth 4
  | .full8x8 => 0
  | .pair8x4 => 0
  | .pair4x8 => 0
  | .quad4x4 => 0

/-- The symbol read that fixes the sub-pattern of a raw shape, if one is needed (R129 to R131). -/
def patternRead (r : RawShape) (noshape first patf resred : Bool) : Option SymClass :=
  match r with
  | .full8x8 => none
  | .quad4x4 => some .subblkpat
  | .pair8x4Bottom => if read2 r noshape first patf resred then some .pat2 else none
  | .pair8x4Top => if read2 r noshape first patf resred then some .pat2 else none
  | .pair8x4 => if read2 r noshape first patf resred then some .pat2 else none
  | .pair4x8Right => if read2 r noshape first patf resred then some .pat2 else none
  | .pair4x8Left => if read2 r noshape first patf resred then some .pat2 else none
  | .pair4x8 => if read2 r noshape first patf resred then some .pat2 else none

/-- The sub-pattern from the symbol read (R130, R132); a read pattern replaces an orientation (R134). -/
def subpatOfSym (cls : SymClass) (sym : BitVec 4) : BitVec 4 :=
  match cls with
  | .subblkpat => quadSubpat sym
  | .pat2 => pairSubpat sym
  | .ttblk => 0

/-- `K <- k` and `EMPTY` (R116). -/
def State.setSub (s : State) (k : Nat) (empty : Bool) : State :=
  { s with work := { s.work with k := BitVec.ofNat 2 k, empty := empty } }

/-- A placement loop starts: `PHASE <- PULL`, `CUR <- 0`, `CNT <- 0` (R110, R160). -/
def State.startPull (s : State) : State :=
  { s with work := { s.work with cur := 0, cnt := 0 }, phase := .pull }

/-- The sub-block loop is over: `PHASE <- FINISH` (R110). -/
def State.startFinish (s : State) : State := { s with phase := .finish }

/-- The head of the sub-block loop (R110, R116) with `n` sub-blocks left: an empty one is passed over, a non-empty
one starts its placement loop; with none left the command finishes. -/
def State.enterFrom (sh : Shape) : Nat → State → State
  | 0, s => s.startFinish
  | n + 1, s =>
    if isEmptySub sh s.work.wsubpat (sh.nsub - (n + 1)) then
      State.enterFrom sh n (s.setSub (sh.nsub - (n + 1)) true)
    else (s.setSub (sh.nsub - (n + 1)) false).startPull

/-- `WSHAPE` and `WSUBPAT` are determined (R135, R136). -/
def State.setShape (s : State) (wshape : BitVec 3) (wsubpat : BitVec 4) : State :=
  { s with work := { s.work with wshape := wshape, wsubpat := wsubpat } }

/-- The end of `SELECT`: `WSUBPAT`, `WSHAPE`, and on to sub-block 0. -/
def State.selected (s : State) (wsubpat : BitVec 4) : State :=
  State.enterFrom (canonical (rawShapeOf s.work.raw)) (canonical (rawShapeOf s.work.raw)).nsub
    (s.setShape (shapeCode (canonical (rawShapeOf s.work.raw))) wsubpat)

/-- `RAW` is determined (R128). -/
def State.setRaw (s : State) (raw : BitVec 3) : State :=
  { s with work := { s.work with raw := raw }, cont := { s.cont with rawDone := true } }

/-- One step of the `SELECT` phase (R127): first `RAW`, then the sub-pattern. -/
def tickSelect (c : Cfg) (s : State) : Reply Unit :=
  if s.cont.rawDone then
    match patternRead (rawShapeOf s.work.raw) s.cont.ops.noshape s.cont.ops.first s.ctx.patf s.ctx.resred with
    | none => .answer () (s.selected (orientedSubpat c.orient (rawShapeOf s.work.raw)))
    | some cls =>
      match s.symRead cls with
      | .answer sym t => .answer () (t.selected (subpatOfSym cls sym))
      | .waits t => .waits t
      | .refused r => .refused r
  else if s.cont.ops.noshape then
    match s.symRead .ttblk with
    | .answer sym t => .answer () (t.setRaw (sym.setWidth 3))
    | .waits t => .waits t
    | .refused r => .refused r
  else .answer () (s.setRaw s.cont.ops.ttcode)

end Sys2Proof.Machine
end

