-- ==== Sys2Proof/Machine/Sequencer.lean ====
section
/-! DEFINITION. The run-length coefficient sequencer with the scan-table multiplexer and the dequantizer, units SEQ,
SCANMUX and DEQ: the `PULL` phase of `DECBLK` (`spec/44_scan_and_sequencer.md` rules R155 to R169,
`spec/43_dequantizer.md` rules R145 to R150). -/

namespace Sys2Proof.Machine

open Sys2Proof

/-- The shape of the block in progress, from `WSHAPE` (R135). -/
def State.shape (s : State) : Shape := shapeOf s.work.wshape

/-- `(QUANT, SCALE)` from the `QCTX` in force (R114, R145). -/
def State.deriveQuant (s : State) : State :=
  { s with work := { s.work with quant := quantOf s.qctx.mquant, scale := scaleOf s.qctx.mquant s.qctx.halfqp } }

/-- `DEQ(value)` with the quantizer of the block in progress (R146). -/
def State.deq (s : State) (value : BitVec 32) : Sample :=
  dequant s.work.quant s.work.scale s.qctx.pquantizer value

/-- The sub-block after `K`, or the end of the loop (R116). -/
def State.nextSub (s : State) : State := State.enterFrom s.shape (s.shape.nsub - (s.work.k.toNat + 1)) s

/-- A reconstruction starts: `PHASE <- RECON` (R110). -/
def State.startRecon (s : State) : State :=
  { s with phase := .recon, cont := { s.cont with res := none, pix := 0, old := none } }

/-- The end of a placement loop: `PLACED[K] <- CNT` (R110); then the sub-block is reconstructed unless the command
says `SKIPBLK` (R116 (d), R185). -/
def State.endPull (s : State) : State :=
  if s.cont.ops.skipblk then (s.setPlaced s.work.k.toNat s.work.cnt).nextSub
  else (s.setPlaced s.work.k.toNat s.work.cnt).startRecon

/-- `LAST <- last; CUR <- CUR + skip` (R159, R162): 33 bits, so the sum of a cursor below 64 and a 32-bit skip does
not wrap. -/
def State.advance (s : State) (a : CoefAnswer) : State :=
  { s with work := { s.work with last := a.last, cur := s.work.cur + a.skip.setWidth 33 } }

/-- The cell at which the coefficient at the cursor lands (R156, R158). -/
def State.targetCell (c : Cfg) (s : State) : Nat :=
  cellIndex s.shape s.work.k.toNat (scanAt c s.shape s.ctx.regime s.work.cur.toNat)

/-- `CUR <- CUR + 1; CNT <- CNT + 1` (R163). -/
def State.countOne (s : State) : State :=
  { s with work := { s.work with cur := s.work.cur + 1, cnt := s.work.cnt + 1 } }

/-- R163: place the dequantized value, then advance the cursor and the count. -/
def State.place (c : Cfg) (s : State) (value : BitVec 32) : State :=
  (s.setCell (s.targetCell c) (s.deq value)).countOne

/-- What one answer of the coefficient decoder does (R159): an error ends the command (R165), an overrun ends the
sub-block (R162), any other triple is placed and ends the sub-block if it is the last (R164, R166). -/
def State.takeTriple (c : Cfg) (s : State) (a : CoefAnswer) : State :=
  if a.err then (s.setPlaced s.work.k.toNat s.work.cnt).raiseFault .eStream s.work.k
  else if overruns s.shape (s.advance a).work.cur then (s.advance a).endPull
  else if a.last then ((s.advance a).place c a.value).endPull
  else (s.advance a).place c a.value

/-- One step of the `PULL` phase: one coefficient request (R161). -/
def tickPull (c : Cfg) (s : State) : Reply Unit :=
  match s.coefNext with
  | .answer a t => .answer () (t.takeTriple c a)
  | .waits t => .waits t
  | .refused r => .refused r

end Sys2Proof.Machine
end

