-- ==== Sys2Proof/Machine/Reconstruct.lean ====
section
/-! DEFINITION. The inverse-transform dispatcher and the pixel accumulator, unit RECON: the `RECON` phase of
`DECBLK`, and the results of the `FINISH` phase (`spec/45_reconstruct.md` rules R175 to R192). -/

namespace Sys2Proof.Machine

open Sys2Proof

/-- The kind of the transform request (R177). -/
def State.itxKind (c : Cfg) (s : State) : ItxKind :=
  if dcSel c.dcSelect s.work.cnt s.work.cur then .dc else .full

/-- The samples the transform unit answers (R208): `CAP(s)` of them, a pure function of the cells (R209). -/
def itxSamples (c : Cfg) (sh : Shape) (kind : ItxKind) (coeffs : List Sample) : List Sample :=
  match kind with
  | .full => (List.range sh.cap).map (c.itxFull sh coeffs)
  | .dc => (List.range sh.cap).map (c.itxDc sh coeffs)

/-- The cells of the sub-block in progress, a copy (R178). -/
def State.coeffs (s : State) : List Sample := s.coeffsOf s.shape s.work.k.toNat

/-- `ItxCall(s, kind, coeffs)` (R208). -/
def State.itxCall (c : Cfg) (s : State) : Reply (List Sample) :=
  s.askPure (.itxCall (shapeCode s.shape) (s.itxKind c) s.coeffs) (itxSamples c s.shape (s.itxKind c) s.coeffs)

/-- The address of pixel `i` of the sub-block in progress, `i` counting row by row (R53, R56). -/
def State.pixelAddr (s : State) (i : Nat) : Addr :=
  pixAddr s.dstbase s.dststride s.shape s.work.k.toNat (i / s.shape.width) (i % s.shape.width)

/-- The residual samples have been answered (R175). -/
def State.setRes (s : State) (res : List Sample) : State :=
  { s with cont := { s.cont with res := some res, pix := 0, old := none } }

/-- The byte of the pixel has been read (R175). -/
def State.setOld (s : State) (b : Byte) : State := { s with cont := { s.cont with old := some b } }

/-- On to the next pixel (R56). -/
def State.nextPixel (s : State) : State := { s with cont := { s.cont with pix := s.cont.pix + 1, old := none } }

/-- A pixel has been written: on to the next one, or past the sub-block after the last. -/
def State.pixelDone (s : State) : State :=
  if s.cont.pix + 1 < s.shape.cap then s.nextPixel else s.nextPixel.nextSub

/-- The residual sample of pixel `i` (R181). -/
def sampleAt (res : List Sample) (i : Nat) : Sample := res.getD i 0

/-- One step of the `RECON` phase (R175): the transform request, or the read of a pixel, or its write. -/
def tickRecon (c : Cfg) (s : State) : Reply Unit :=
  match s.cont.res with
  | none =>
    match s.itxCall c with
    | .answer res t => .answer () (t.setRes res)
    | .waits t => .waits t
    | .refused r => .refused r
  | some res =>
    match s.cont.old with
    | none =>
      match s.memRead (s.pixelAddr s.cont.pix) with
      | .answer b t => .answer () (t.setOld b)
      | .waits t => .waits t
      | .refused r => .refused r
    | some old =>
      match s.memWrite (s.pixelAddr s.cont.pix) (accumulate old (sampleAt res s.cont.pix)) with
      | .answer _ t => .answer () t.pixelDone
      | .waits t => .waits t
      | .refused r => .refused r

/-- `TTACC | (WSHAPE << (4*N))` if the command asked for it (R190). -/
def State.updateTtacc (s : State) : State :=
  if s.cont.ops.ttout then
    { s with ttacc := s.ttacc ||| (s.work.wshape.setWidth 32 <<< (4 * s.cont.ops.n.toNat)) }
  else s

/-- The final value of `RESULT` (R191). -/
def State.finalResult (s : State) : ResultReg :=
  { valid := true, subpat := s.work.wsubpat, shape := s.work.wshape, pat := patOf s.shape s.work.wsubpat }

/-- `RESULT <- r` (R113, R191). -/
def State.setResult (s : State) (r : ResultReg) : State := { s with result := r }

/-- The `FINISH` phase (R110): accumulator, result, response. -/
def State.finishBlock (s : State) : State :=
  (s.updateTtacc.setResult s.finalResult).respond .ok (resultWord s.finalResult)

end Sys2Proof.Machine
end

