-- ==== Sys2Proof/Machine/Decblk.lean ====
section
/-! DEFINITION. `DECBLK` (`spec/41_decblk.md` rules R110 to R120): its phases as a step relation whose steps are the
external requests (R213), and the run of those steps until the command ends or an agent does not answer. -/

namespace Sys2Proof.Machine

open Sys2Proof

/-- `PHASE <- SELECT` (R110). -/
def State.startSelect (s : State) : State := { s with phase := .select, cont := { s.cont with rawDone := false } }

/-- The `CHECK` phase (R112 to R114): the two checks, then the clear and the derivation of the quantizer. -/
def State.checkBlock (s : State) : State :=
  if !s.configured then s.raiseFault .eUncfg 0
  else if s.qctx.mquant = 0 then s.raiseFault .eQzero 0
  else s.clearBlock.deriveQuant.startSelect

/-- One step of a `DECBLK` in progress, by phase (R41, R110). Outside a `DECBLK` there is nothing to do. -/
def tick (c : Cfg) (s : State) : Reply Unit :=
  match s.phase with
  | .idle => .waits s
  | .exec => .waits s
  | .check => .answer () s.checkBlock
  | .select => tickSelect c s
  | .pull => tickPull c s
  | .recon => tickRecon c s
  | .finish => .answer () s.finishBlock

/-- Steps until the command has ended (`IDLE`), an agent does not answer, or the fuel is used up; in the last case
the next step of the machine goes on from there. -/
def run (c : Cfg) : Nat → State → Host.Outcome State Fault Refusal
  | 0, s => .next s
  | n + 1, s =>
    if s.phase = .idle then .next s
    else
      match tick c s with
      | .answer _ t => run c n t
      | .waits t => .next t
      | .refused r => .refused r

/-- More steps than a `DECBLK` takes (R120, R266): 2 for `CHECK` and `FINISH`, 2 of `SELECT`, 68 coefficient
requests, 4 transform requests, 64 reads and 64 writes make 204. -/
def decblkFuel : Nat := 256

/-- `DECBLK` begins: the operands are latched and the sequencer enters `CHECK` (R110). -/
def State.startBlock (s : State) (ops : DecOps) : State :=
  { s with phase := .check, cont := { s.cont with ops := ops } }

/-- A `DECBLK` under a configuration, after admission and decoding (R110). -/
def runBlock (c : Cfg) (ops : DecOps) (s : State) : Host.Outcome State Fault Refusal :=
  run c decblkFuel (s.startBlock ops)

/-- `DECBLK` (R110): refused while a fault is pending (R76), illegal when `NOSHAPE` = 1 and `TTCODE` is not 0
(R77 (d)), and otherwise run. -/
def execDecblk (ttcode : BitVec 3) (noshape first skipblk ttout : Bool) (n : BitVec 3) (s : State) :
    Host.Outcome State Fault Refusal :=
  if s.status.err then .next s.refuse
  else if noshape && ttcode != 0 then .next (s.raiseFault .eIllcmd 0)
  else runBlock Config.vrd { ttcode, noshape, first, skipblk, ttout, n } s

end Sys2Proof.Machine
end

