-- ==== Sys2Proof/Machine/Housekeeping.lean ====
section
/-! DEFINITION. The housekeeping commands `NOP`, `CLRACC` and `CLRERR` (`spec/40_commands_config.md` rules R90, R95,
R98). -/

namespace Sys2Proof.Machine

open Sys2Proof

/-- `NOP` (R90): executes also while a fault is pending. -/
def execNop (s : State) : Host.Outcome State Fault Refusal := .next (s.respond .ok 0)

/-- `CLRACC` (R95): refused while a fault is pending (R76). -/
def execClracc (s : State) : Host.Outcome State Fault Refusal :=
  if s.status.err then .next s.refuse else .next ({ s with ttacc := 0 }.respond .ok 0)

/-- `CLRERR` (R98): the return from the faulted condition. -/
def execClrerr (s : State) : Host.Outcome State Fault Refusal := .next (s.clearFault.respond .ok 0)

end Sys2Proof.Machine
end

