-- ==== Sys2Proof/Machine/Readback.lean ====
section
/-! DEFINITION. The read-back commands `RDREG` and `RDBLK` (`spec/40_commands_config.md` rules R96, R97). Both
execute also while a fault is pending (R76). -/

namespace Sys2Proof.Machine

open Sys2Proof

/-- `RDREG` (R96): the register as it stands before this command's own count; a reserved number is illegal
(R77 (c)). -/
def execRdreg (reg : BitVec 4) (s : State) : Host.Outcome State Fault Refusal :=
  if reg.toNat < 10 then .next (s.respond .ok (s.regVal reg)) else .next (s.raiseFault .eIllcmd 0)

/-- `RDBLK` (R97): the cell sign-extended to 32 bits. Before a `DECBLK` has passed its checks the cell is
unspecified, a fresh free value at every read (R47, log 3). -/
def execRdblk (idx : BitVec 6) (s : State) : Host.Outcome State Fault Refusal :=
  if s.blkDefined then .next (s.respond .ok ((s.cellAt idx.toNat).signExtend 32))
  else .next ({ s with draws := s.draws + 1 }.respond .ok ((Config.freeCell s.draws).signExtend 32))

end Sys2Proof.Machine
end

