-- ==== Sys2Proof/Machine/Dispatch.lean ====
section
/-! DEFINITION. The meaning of each command: one arm per constructor of `Instr`, in the order of the opcode map
(`spec/30_encoding.md` rule R74). -/

namespace Sys2Proof.Machine

open Sys2Proof

def exec (i : Instr) (s : State) : Host.Outcome State Fault Refusal :=
  match i with
  | .nop => Sys2Proof.Machine.execNop s
  | .setq m h p => Sys2Proof.Machine.execSetq m h p s
  | .setctx r c f d => Sys2Proof.Machine.execSetctx r c f d s
  | .setbase a => Sys2Proof.Machine.execSetbase a s
  | .setstride d => Sys2Proof.Machine.execSetstride d s
  | .decblk t n f k o b => Sys2Proof.Machine.execDecblk t n f k o b s
  | .clracc => Sys2Proof.Machine.execClracc s
  | .rdreg r => Sys2Proof.Machine.execRdreg r s
  | .rdblk x => Sys2Proof.Machine.execRdblk x s
  | .clrerr => Sys2Proof.Machine.execClrerr s

end Sys2Proof.Machine
end

