-- ==== Sys2Proof/Machine/Fetch.lean ====
section
/-! DEFINITION. Taking a command word from the command port (`spec/30_encoding.md` rules R76, R77, R84): the tests
of a word that is no legal command, and the execution of one that is. -/

namespace Sys2Proof.Machine

open Sys2Proof

/-- A word that encodes no legal command: refused while a fault is pending unless its opcode is one of the four
admitted ones (R76), else `E_ILLCMD` (R77). -/
def State.illegalCommand (s : State) (op : BitVec 4) : State :=
  if s.admits op then s.raiseFault .eIllcmd 0 else s.refuse

/-- The decode procedure R84 on a word taken from the command port. -/
def execWord (w : Command) (s : State) : Host.Outcome State Fault Refusal :=
  match decode w with
  | .command i => exec i s
  | .illegal _ => .next (s.illegalCommand w.op)

/-- A `DECBLK` that waited for an agent goes on (R213, R266). -/
def resume (s : State) : Host.Outcome State Fault Refusal := run Config.vrd decblkFuel s

end Sys2Proof.Machine
end

