-- ==== Sys2Proof/Machine/Step.lean ====
section
/-! DEFINITION. One step of the machine, and how a word is put where the next step takes it. -/

namespace Sys2Proof.Machine

open Sys2Proof

/-- One step. An asserted reset comes first (R250, R252). In `IDLE` the VRD takes the oldest command word offered
and executes it (R215), and with none offered does nothing (R237). With a command in progress, which waited for
an agent, it goes on with it and takes no other (R41, R266). -/
def step (s : State) : Host.Outcome State Fault Refusal :=
  if s.resetPin then .next s.applyReset
  else if s.phase = .idle then
    match s.cmds with
    | [] => .next s
    | w :: rest => execWord w (s.accept rest)
  else resume s

/-- The state in which the next step takes the word whose low `nbits` bits are those of `w`: the word is the
oldest one offered at the command port, the sequencer is in `IDLE` and reset is not asserted. -/
def State.withFetchWord (s : State) (nbits w : Nat) : State :=
  { s with cmds := commandWord nbits w :: s.cmds, phase := .idle, resetPin := false }

end Sys2Proof.Machine
end

