-- ==== Sys2Proof/Machine/Assembler.lean ====
section
/-! DEFINITION. The assembler spelling of a command (`spec/30_encoding.md` rule R82) and the pseudo-commands
(R83). Nothing the machine does depends on this file. -/

namespace Sys2Proof.Machine

open Sys2Proof

/-- The shape keyword of a raw shape code (R82). -/
def shapeKeyword (ttcode : BitVec 3) : String :=
  match ttcode.toNat with
  | 0 => "8x8"
  | 1 => "8x4b"
  | 2 => "8x4t"
  | 3 => "8x4"
  | 4 => "4x8r"
  | 5 => "4x8l"
  | 6 => "4x8"
  | _ => "4x4"

/-- The name of a register number (R82); a reserved number has none and is spelt in decimal. -/
def registerName (reg : BitVec 4) : String :=
  match reg.toNat with
  | 0 => "qctx"
  | 1 => "ctx"
  | 2 => "dstbase"
  | 3 => "dststride"
  | 4 => "ttacc"
  | 5 => "result"
  | 6 => "placed"
  | 7 => "status"
  | 8 => "cmdcnt"
  | 9 => "work"
  | n => toString n

/-- A flag as an operand. -/
def flagText (b : Bool) : String := if b then "1" else "0"

/-- An optional keyword operand (R82: absent means 0). -/
def keywordText (b : Bool) (word : String) : String := if b then ", " ++ word else ""

/-- The assembler line of a command (R82). -/
def assemblerLine : Instr → String
  | .nop => "nop"
  | .setq m h p => "setq " ++ toString m.toInt ++ ", " ++ flagText h ++ ", " ++ flagText p
  | .setctx r c f d =>
      "setctx " ++ (if r then "intl" else "prog") ++ ", " ++ toString c.toNat ++ ", " ++ flagText f ++ ", " ++ flagText d
  | .setbase a => "setbase " ++ toString a.toNat
  | .setstride d => "setstride " ++ toString d.toInt
  | .decblk t noshape first skip ttout n =>
      "decblk " ++ (if noshape then "none" else shapeKeyword t) ++ ", " ++ toString n.toNat
        ++ keywordText first "first" ++ keywordText skip "skip" ++ keywordText ttout "ttout"
  | .clracc => "clracc"
  | .rdreg r => "rdreg " ++ registerName r
  | .rdblk x => "rdblk " ++ toString x.toNat
  | .clrerr => "clrerr"

/-- The pseudo-commands of R83. -/
inductive Pseudo
  | setdst (addr : Addr) (stride : Word)
  | mbstart
  | rdpat
  | rdtt
  | rdstat
deriving DecidableEq, Repr

/-- The commands a pseudo-command expands to (R83). -/
def expandPseudo : Pseudo → List Instr
  | .setdst addr stride => [.setbase addr, .setstride stride]
  | .mbstart => [.clracc]
  | .rdpat => [.rdreg 5]
  | .rdtt => [.rdreg 4]
  | .rdstat => [.rdreg 7]

end Sys2Proof.Machine
end

