-- ==== Sys2Proof/Safety.lean ====
section
/-! DEFINITION. The terms in which claims about the machine are stated: the invariants of its states, the states it
can reach, the hypotheses on the environment (`spec/70_reset_and_hazards.md` rules R258 to R266), and the functions of
the inputs that a `DECBLK` is compared with. -/

namespace Sys2Proof.Machine

open Sys2Proof

/-! ## Invariants -/

/-- `w` is the normalized code of a canonical shape: 0, 3, 6 or 7 (R135). -/
def isShapeCode (w : BitVec 3) : Bool := w == 0 || w == 3 || w == 6 || w == 7

/-- The nibble of the accumulator that belongs to block position `n` (R26). -/
def ttaccNibble (ttacc : Word) (n : Nat) : BitVec 4 := ttacc.extractLsb' (4 * n) 4

/-- A `DECBLK` has passed its checks and has not ended (R41). -/
def Phase.inBlock : Phase → Bool
  | .idle => false
  | .exec => false
  | .check => false
  | .select => true
  | .pull => true
  | .recon => true
  | .finish => true

/-- The sequencer is inside the sub-block loop (R116). -/
def Phase.inLoop : Phase → Bool
  | .idle => false
  | .exec => false
  | .check => false
  | .select => false
  | .pull => true
  | .recon => true
  | .finish => false

/-- The invariant of the registers and of the pixel plane. -/
structure State.Inv (s : State) : Prop where
  /-- the plane is in its canonical form -/
  memWf : Memory.wf s.mem = true
  /-- `RESULT.SHAPE` is a normalized code (R27) -/
  resultShape : isShapeCode s.result.shape = true
  /-- `RESULT.PAT` is the bitmap of the shape and the sub-pattern beside it (R188, R189) -/
  resultPat : s.result.valid = true → s.result.pat = patOf (shapeOf s.result.shape) s.result.subpat
  /-- `RESULT` reads 0 unless the last `DECBLK` that passed its checks ended OK (R27) -/
  resultClear : s.result.valid = false → s.result.subpat = 0 ∧ s.result.shape = 0 ∧ s.result.pat = 0
  /-- `ERRCODE` and `ERRSUB` are 0 while `ERR` = 0 (R29) -/
  noFault : s.status.err = false → s.status.errcode = 0 ∧ s.status.errsub = 0
  /-- while `ERR` = 1, `ERRCODE` is the code of a fault, 1 to 4 (R220) -/
  faultCode : s.status.err = true → 1 ≤ s.status.errcode.toNat ∧ s.status.errcode.toNat ≤ 4
  /-- `ERRSUB` is 0 for every fault but `E_STREAM` (R220) -/
  faultSub : s.status.errcode ≠ 4 → s.status.errsub = 0
  /-- a count is at most 64 (R28) -/
  placedRange : ∀ k, (s.placedAt k).toNat ≤ 64
  /-- every nibble of `TTACC` is an OR of normalized codes (R26, R190) -/
  ttaccNibbles : ∀ n, n < 8 → ttaccNibble s.ttacc n = 0 ∨ ttaccNibble s.ttacc n = 3 ∨
    ttaccNibble s.ttacc n = 6 ∨ ttaccNibble s.ttacc n = 7
  /-- `QUANT` is at most 128 and `SCALE` at most 257 (R35) -/
  quantRange : s.work.quant.toNat ≤ 128 ∧ s.work.scale.toNat ≤ 257
  /-- `WSHAPE` is a normalized code (R35) -/
  wshapeCode : isShapeCode s.work.wshape = true
  /-- the bits of `WSUBPAT` above the shape's sub-pattern are 0 (R35) -/
  wsubpatRange : s.work.wsubpat.toNat < 2 ^ pbits s.shape
  /-- no fault is pending while a `DECBLK` runs (R76) -/
  runsUnfaulted : s.phase = .check ∨ s.phase.inBlock = true → s.status.err = false
  /-- a `DECBLK` past its checks is configured, its quantizer is not 0 and is the one derived (R112, R114) -/
  checked : s.phase.inBlock = true → s.cfgv = 0b1111 ∧ s.qctx.mquant ≠ 0 ∧ s.blkDefined = true ∧
    s.work.quant = quantOf s.qctx.mquant ∧ s.work.scale = scaleOf s.qctx.mquant s.qctx.halfqp
  /-- while a `DECBLK` past its checks runs, `RESULT` is not valid (R27, R113) -/
  resultCleared : s.phase.inBlock = true → s.result.valid = false
  /-- inside the loop `K` is a sub-block of the shape that is not empty (R116) -/
  loopSub : s.phase.inLoop = true →
    s.work.k.toNat < s.shape.nsub ∧ isEmptySub s.shape s.work.wsubpat s.work.k.toNat = false
  /-- between coefficient requests the cursor is at most `CAP(s)` and the count at most the cursor (R120, R168) -/
  cursor : s.phase = .pull → s.work.cur.toNat ≤ s.shape.cap ∧ s.work.cnt.toNat ≤ s.work.cur.toNat
  /-- after the placement loop at most `CAP(s)` coefficients have been placed (R168 (b)) -/
  countCap : s.phase = .recon → s.work.cnt.toNat ≤ s.shape.cap
  /-- the pixel in progress is one of the sub-block (R175) -/
  pixel : s.phase = .recon → s.cont.pix < s.shape.cap

/-- The invariant of the Block and of the counts (R28, R116 (b), R168 (d)), and of the number of cells a sub-block's
coefficients have filled. -/
structure State.BlockInv (s : State) : Prop where
  /-- nothing is placed before the first sub-block (R113) -/
  cleared : s.phase = .select → (∀ c, s.cellAt c = 0) ∧ ∀ k, s.placedAt k = 0
  /-- inside the loop the empty sub-blocks and those not begun hold 0 -/
  loopCells : s.phase.inLoop = true → ∀ k, k < s.shape.nsub →
    (s.work.k.toNat < k ∨ isEmptySub s.shape s.work.wsubpat k = true) →
      ∀ p, p < s.shape.cap → s.cellAt (cellIndex s.shape k p) = 0
  /-- inside the loop the empty sub-blocks, those not begun and those the shape does not have count 0 -/
  loopPlaced : s.phase.inLoop = true → ∀ k,
    (s.work.k.toNat < k ∨ isEmptySub s.shape s.work.wsubpat k = true) → s.placedAt k = 0
  /-- during a placement loop the count of the sub-block in progress is not yet written -/
  pullPlaced : s.phase = .pull → s.placedAt s.work.k.toNat = 0
  /-- no more cells of the sub-block in progress are non-zero than coefficients have been placed in it -/
  filled : s.phase.inLoop = true → s.coeffs.countP (fun v => v != 0) ≤ s.work.cnt.toNat
  /-- after the loop the empty sub-blocks hold 0, and they and those the shape does not have count 0 -/
  loopDone : s.phase = .finish → ∀ k,
    (k < s.shape.nsub → isEmptySub s.shape s.work.wsubpat k = true) →
      s.placedAt k = 0 ∧ (k < s.shape.nsub → ∀ p, p < s.shape.cap → s.cellAt (cellIndex s.shape k p) = 0)
  /-- the same of the Block that a `DECBLK` which ended OK left behind -/
  resultDone : s.phase.inBlock = false → s.result.valid = true → ∀ k,
    (k < (shapeOf s.result.shape).nsub → isEmptySub (shapeOf s.result.shape) s.result.subpat k = true) →
      s.placedAt k = 0 ∧ (k < (shapeOf s.result.shape).nsub → ∀ p, p < (shapeOf s.result.shape).cap →
        s.cellAt (cellIndex (shapeOf s.result.shape) k p) = 0)

/-! ## Reachable states -/

/-- What the environment does between two steps: it offers commands, moves the reset input, the bit cursor or the
pixel plane, and decides which requests are answered (R9, R214, R215, R250). It touches nothing of the VRD. -/
def EnvMove (s t : State) : Prop :=
  ∃ cmds resetPin stream grants mem platform, Memory.wf mem = true ∧
    t = { s with cmds := cmds, resetPin := resetPin, stream := stream, grants := grants, mem := mem,
                 platform := platform }

/-- The states a VRD can be in: from reset, by steps and by moves of its environment. -/
inductive Reachable : State → Prop
  | reset : Reachable State.reset
  | step {s t : State} (h : Reachable s) (hs : step s = .next t) : Reachable t
  | env {s t : State} (h : Reachable s) (he : EnvMove s t) : Reachable t

/-! ## Hypotheses on the environment -/

/-- Every request is answered and every address is ordinary memory (R266, R60). -/
def State.environmentAnswers (s : State) : Prop := s.grants = none ∧ ∀ a, s.areaAt a = none

/-- The stream holds at least `n` more codes and no coefficient request on them fails. -/
def State.streamSound (s : State) (n : Nat) : Prop :=
  n ≤ s.stream.length ∧ ∀ code ∈ s.stream.take n, code.coef.err = false

/-- The host is ready to have a block decoded: no fault pending, all four configuration registers written, a
quantizer that is not 0 (R112, R254). -/
def State.hostReady (s : State) : Prop := s.status.err = false ∧ s.cfgv = 0b1111 ∧ s.qctx.mquant ≠ 0

/-- The 64 pixels of the block have 64 addresses (R54, R263). -/
def State.pixelsDistinct (s : State) (sh : Shape) (k : Nat) : Prop :=
  ∀ i j, i < sh.cap → j < sh.cap →
    pixAddr s.dstbase s.dststride sh k (i / sh.width) (i % sh.width) =
      pixAddr s.dstbase s.dststride sh k (j / sh.width) (j % sh.width) → i = j

/-! ## Which words are illegal -/

/-- Some bit that R75 shows as 0 for the format of the word's opcode is 1 (R77 (b)), written out from the tables of
R75. -/
def hasReservedBit (w : Command) : Prop :=
  match w.op.toNat with
  | 0 => w.data ≠ 0
  | 1 => w.data.extractLsb' 10 22 ≠ 0
  | 2 => w.data.extractLsb' 6 26 ≠ 0
  | 5 => w.data.getLsbD 7 = true ∨ w.data.extractLsb' 11 21 ≠ 0
  | 6 => w.data ≠ 0
  | 7 => w.data.extractLsb' 4 28 ≠ 0
  | 8 => w.data.extractLsb' 6 26 ≠ 0
  | 9 => w.data ≠ 0
  | _ => False

/-- The four cases of R77. -/
def isIllegalWord (w : Command) : Prop :=
  10 ≤ w.op.toNat ∨ hasReservedBit w ∨ (w.op = 7 ∧ 10 ≤ (w.data.extractLsb' 0 4).toNat) ∨
    (w.op = 5 ∧ w.data.getLsbD 3 = true ∧ w.data.extractLsb' 0 3 ≠ 0)

/-! ## What a `DECBLK` is compared with -/

/-- The symbol answered at the head of a stream. -/
def headSym (stream : List Code) : BitVec 4 := (stream.head?.map Code.sym).getD 0

/-- `RAW` as a function of the command and the stream (R128). -/
def rawFor (ops : DecOps) (stream : List Code) : BitVec 3 :=
  if ops.noshape then (headSym stream).setWidth 3 else ops.ttcode

/-- The stream after the shape symbol, if one is read (R119). -/
def afterRaw (ops : DecOps) (stream : List Code) : List Code := if ops.noshape then stream.tail else stream

/-- The symbol read that fixes the sub-pattern (R129 to R131). -/
def patternReadFor (x : Ctx) (ops : DecOps) (stream : List Code) : Option SymClass :=
  patternRead (rawShapeOf (rawFor ops stream)) ops.noshape ops.first x.patf x.resred

/-- `WSUBPAT` as a function of the command, the context and the stream (R129 to R134). -/
def subpatFor (c : Cfg) (x : Ctx) (ops : DecOps) (stream : List Code) : BitVec 4 :=
  match patternReadFor x ops stream with
  | none => orientedSubpat c.orient (rawShapeOf (rawFor ops stream))
  | some cls => subpatOfSym cls (headSym (afterRaw ops stream))

/-- The canonical shape as a function of the command and the stream (R135). -/
def shapeFor (ops : DecOps) (stream : List Code) : Shape := canonical (rawShapeOf (rawFor ops stream))

/-- The symbol requests of the selector, in order (R119). -/
def symbolRequests (x : Ctx) (ops : DecOps) (stream : List Code) : List Request :=
  (if ops.noshape then [Request.symRead .ttblk x.regime] else []) ++
    (match patternReadFor x ops stream with
     | none => []
     | some cls => [Request.symRead cls x.regime])

/-- `RESULT` of a `DECBLK` that ends OK with that shape and sub-pattern (R191). -/
def resultFor (sh : Shape) (w : BitVec 4) : ResultReg :=
  { valid := true, subpat := w, shape := shapeCode sh, pat := patOf sh w }

/-- `TTACC` after a `DECBLK` that ends OK (R190). -/
def ttaccFor (ops : DecOps) (sh : Shape) (ttacc : Word) : Word :=
  if ops.ttout then ttacc ||| ((shapeCode sh).setWidth 32 <<< (4 * ops.n.toNat)) else ttacc

/-- The plane after the first `n` pixels of the sub-block in progress have been accumulated one after the other, each
access seeing the earlier ones, and the requests made for them (R56, R175, R182). -/
def State.accumulated (s : State) (res : List Sample) : Nat → List Host.Cell × List Request
  | 0 => (s.mem, [])
  | n + 1 =>
    let before := s.accumulated res n
    let new := accumulate (Memory.read before.1 (s.pixelAddr n).toNat) (sampleAt res n)
    (Memory.write before.1 (s.pixelAddr n).toNat new,
      before.2 ++ [.memRead (s.pixelAddr n), .memWrite (s.pixelAddr n) new])

/-- The sub-block loop of a block of shape `sh` and sub-pattern `w` has been entered at sub-block `first` (R116): it
stands at the placement loop of the first sub-block from there on that is not empty, with cursor and count 0, or at
`FINISH` when there is none. -/
def EntersLoop (sh : Shape) (w : BitVec 4) (first : Nat) (t : State) : Prop :=
  (t.phase = .finish ∧ ∀ j, first ≤ j → j < sh.nsub → isEmptySub sh w j = true) ∨
    (t.phase = .pull ∧ t.work.cur = 0 ∧ t.work.cnt = 0 ∧ t.work.empty = false ∧
      first ≤ t.work.k.toNat ∧ t.work.k.toNat < sh.nsub ∧ isEmptySub sh w t.work.k.toNat = false ∧
      ∀ j, first ≤ j → j < t.work.k.toNat → isEmptySub sh w j = true)

/-- The placement loop that was in progress in `s` has ended in `t` with cursor `cur` and count `cnt` (R116 (c) to (e),
R176): with `SKIPBLK` = 0 the reconstruction of the same sub-block starts, whatever was placed; with `SKIPBLK` = 1 the
loop goes on after it. -/
def PullEnds (s t : State) (cur : Nat) (cnt : BitVec 7) : Prop :=
  t.work.wshape = s.work.wshape ∧ t.work.wsubpat = s.work.wsubpat ∧
    (s.cont.ops.skipblk = false →
      t.phase = .recon ∧ t.work.k = s.work.k ∧ t.work.cur.toNat = cur ∧ t.work.cnt = cnt ∧
        t.cont.res = none ∧ t.cont.pix = 0 ∧ t.cont.old = none) ∧
    (s.cont.ops.skipblk = true → EntersLoop s.shape s.work.wsubpat (s.work.k.toNat + 1) t)

/-- The sub-blocks of a shape that a sub-pattern does not mark empty, in order (R116, R176). -/
def presentSubs (sh : Shape) (w : BitVec 4) : List Nat :=
  (List.range sh.nsub).filter (fun k => !isEmptySub sh w k)

/-- The addresses of the pixels of those sub-blocks, sub-block after sub-block, row after row (R53, R56, R57). -/
def State.presentPixels (s : State) (sh : Shape) (w : BitVec 4) : List Addr :=
  (presentSubs sh w).flatMap fun k =>
    (List.range sh.cap).map fun i => pixAddr s.dstbase s.dststride sh k (i / sh.width) (i % sh.width)

/-- The address of a request on the memory port, and whether it is a write. -/
def Request.memAccess : Request → Option (Bool × Addr)
  | .symRead _ _ => none
  | .coefNext _ => none
  | .itxCall _ _ _ => none
  | .memRead a => some (false, a)
  | .memWrite a _ => some (true, a)

/-- A request without the data that the coefficients decide: the port, and what the port is asked for (R119). -/
def Request.outline : Request → Request
  | .symRead cls regime => .symRead cls regime
  | .coefNext cs => .coefNext cs
  | .itxCall sh _ _ => .itxCall sh .full []
  | .memRead a => .memRead a
  | .memWrite a _ => .memWrite a 0

/-- The outline of the requests for sub-block `k` when `m` coefficients are requested for it (R119 point 3): these
first, and then, unless the command says `SKIPBLK`, the transform and a read and a write of each pixel. -/
def State.subOutline (s : State) (sh : Shape) (skip : Bool) (k m : Nat) : List Request :=
  List.replicate m (.coefNext s.ctx.codingset) ++
    (if skip then []
     else .itxCall (shapeCode sh) .full [] ::
      (List.range sh.cap).flatMap fun i =>
        [.memRead (pixAddr s.dstbase s.dststride sh k (i / sh.width) (i % sh.width)),
         .memWrite (pixAddr s.dstbase s.dststride sh k (i / sh.width) (i % sh.width)) 0])

/-- The shape code of a request on the transform port. -/
def Request.itxShape : Request → Option (BitVec 3)
  | .symRead _ _ => none
  | .coefNext _ => none
  | .itxCall sh _ _ => some sh
  | .memRead _ => none
  | .memWrite _ _ => none

/-- The request is one on the coded stream (R200, R205). -/
def Request.onStream : Request → Bool
  | .symRead _ _ => true
  | .coefNext _ => true
  | .itxCall _ _ _ => false
  | .memRead _ => false
  | .memWrite _ _ => false

/-- The request is one for a coefficient (R205). -/
def Request.isCoef : Request → Bool
  | .symRead _ _ => false
  | .coefNext _ => true
  | .itxCall _ _ _ => false
  | .memRead _ => false
  | .memWrite _ _ => false

/-- The configuration whose DC-only transforms are its full ones: every sub-block goes through the full path (R186). -/
def fullPath (c : Cfg) : Cfg :=
  { c with
    itxDc := c.itxFull
    itx_contract := fun _ _ _ => rfl }

/-- The state after `n` steps of a `DECBLK` in progress, if all of them went on. -/
def ticks (c : Cfg) : Nat → State → Option State
  | 0, s => some s
  | n + 1, s =>
    match tick c s with
    | .answer _ t => ticks c n t
    | .waits _ => none
    | .refused _ => none

end Sys2Proof.Machine
end

