-- ==== Sys2Proof/Certificates/Slice0/Obligations.lean ====
section
/-! DEFINITION. The statements about the model, for the provers. Each docstring names the rule of spec/ behind it. -/

open Sys2Proof Sys2Proof.Machine

/-! ## Encoding -/

/-- Decoding the word of a well-formed command gives the command back (R70, R75, R84). -/
def Obligations.DecodeEncodeRoundTrip : Prop :=
  ∀ i : Instr, WellFormed i → decode (encode i) = .command i

/-- A word that decodes to a command is the one word of that command, and the command is well-formed (R78: a word is
a command with all reserved bits zero, or it is illegal). -/
def Obligations.CommandHasOneWord : Prop :=
  ∀ (w : Command) (i : Instr), decode w = .command i → WellFormed i ∧ encode i = w

/-- R77: a word of the four kinds, when its opcode is admitted, raises `E_ILLCMD` with sub-code 0 and changes nothing
else; every other word is a legal command. -/
def Obligations.IllegalCommandFaults : Prop :=
  (∀ (s : State) (w : Command) (rest : List Command), s.resetPin = false → s.phase = .idle → s.cmds = w :: rest →
    (s.status.err = false ∨ w.op = 0 ∨ w.op = 7 ∨ w.op = 8 ∨ w.op = 9) → isIllegalWord w →
    ∃ t, step s = .next t ∧
      t = { s with
        cmds := rest
        status := if s.status.err then s.status else { err := true, errcode := 1, errsub := 0 }
        responses := s.responses ++ [1#4 ++ t.statusWord] }) ∧
  (∀ w : Command, ¬ isIllegalWord w → ∃ i, decode w = .command i)

/-- Words written out from the tables of R75 and the examples of `spec/95_test_vectors.md` section 3.1. -/
def Obligations.SampleWordsDecode : Prop :=
  decode 0x1000001FB = .command (.setq 0xFB true false) ∧
  decode 0x20000000B = .command (.setctx true 5 false false) ∧
  decode 0x3FFFFFFF0 = .command (.setbase 0xFFFFFFF0) ∧
  decode 0x4FFFFFFF8 = .command (.setstride 0xFFFFFFF8) ∧
  decode 0x500000775 = .command (.decblk 5 false true true true 7) ∧
  decode 0x70000000A = .illegal .reservedRegister

/-! ## Steps -/

/-- In `IDLE`, with reset low, the step takes the oldest word offered: a word that decodes to `i` runs `exec i` in
the state from which the word has been taken and whose sequencer has left `IDLE` (R41, R215). -/
def Obligations.StepRunsDecodedCommand : Prop :=
  ∀ (s : State) (w : Command) (rest : List Command) (i : Instr), s.resetPin = false → s.phase = .idle →
    s.cmds = w :: rest → decode w = .command i → step s = exec i { s with cmds := rest, phase := .exec }

/-- R237: in `IDLE` with no command offered (and reset low) the VRD does nothing. -/
def Obligations.IdleDoesNothing : Prop :=
  ∀ s : State, s.resetPin = false → s.phase = .idle → s.cmds = [] → step s = .next s

/-- R250 to R252: reset, in any phase, puts every register at its reset value, abandons what is in progress without a
response, and leaves the environment alone. -/
def Obligations.ResetAtAnyTime : Prop :=
  ∀ s : State, s.resetPin = true → ∃ t, step s = .next t ∧
    t.qctx = { mquant := 0, halfqp := false, pquantizer := false } ∧
    t.ctx = { regime := false, codingset := 0, patf := false, resred := false } ∧
    t.dstbase = 0 ∧ t.dststride = 0 ∧ t.cfgv = 0 ∧ t.ttacc = 0 ∧
    t.result = { valid := false, subpat := 0, shape := 0, pat := 0 } ∧ (∀ k, t.placedAt k = 0) ∧
    t.status = { err := false, errcode := 0, errsub := 0 } ∧ t.irq = false ∧ t.cmdcnt = 0 ∧
    t.work.quant = 0 ∧ t.work.scale = 0 ∧ t.phase = .idle ∧ t.blkDefined = false ∧ t.outstanding = none ∧
    t.cmds = s.cmds ∧ t.stream = s.stream ∧ t.mem = s.mem ∧ t.platform = s.platform ∧
    t.responses = s.responses ∧ t.requests = s.requests

/-- R46: the values right after reset that the spec gives. -/
def Obligations.ResetStateValues : Prop :=
  State.reset.qctx = { mquant := 0, halfqp := false, pquantizer := false } ∧
  State.reset.ctx = { regime := false, codingset := 0, patf := false, resred := false } ∧
  State.reset.dstbase = 0 ∧ State.reset.dststride = 0 ∧ State.reset.cfgv = 0 ∧ State.reset.ttacc = 0 ∧
  State.reset.result = { valid := false, subpat := 0, shape := 0, pat := 0 } ∧
  (∀ k, State.reset.placedAt k = 0) ∧ State.reset.status = { err := false, errcode := 0, errsub := 0 } ∧
  State.reset.cmdcnt = 0 ∧ State.reset.work.quant = 0 ∧ State.reset.work.scale = 0 ∧ State.reset.phase = .idle ∧
  State.reset.blkDefined = false

/-! ## The housekeeping commands: result, frame and completion -/

/-- `NOP` in every state: the response OK with data 0 and the count, nothing else (R90). -/
def Obligations.NopCompletes : Prop :=
  ∀ s : State, exec .nop s =
    .next { s with responses := s.responses ++ [0#4 ++ 0#32], cmdcnt := s.cmdcnt + 1, phase := .idle }

/-- `SETQ` in every state without a pending fault (R91); everything not named is unchanged. -/
def Obligations.SetqWritesQctx : Prop :=
  ∀ (s : State) (m : BitVec 8) (h p : Bool), s.status.err = false →
    exec (.setq m h p) s = .next { s with
      qctx := { mquant := m, halfqp := h, pquantizer := p }
      cfgv := s.cfgv ||| 0b0001
      responses := s.responses ++ [0#4 ++ 0#32], cmdcnt := s.cmdcnt + 1, phase := .idle }

/-- `SETCTX` in every state without a pending fault (R92); everything not named is unchanged. -/
def Obligations.SetctxWritesCtx : Prop :=
  ∀ (s : State) (r : Bool) (c : BitVec 3) (f d : Bool), s.status.err = false →
    exec (.setctx r c f d) s = .next { s with
      ctx := { regime := r, codingset := c, patf := f, resred := d }
      cfgv := s.cfgv ||| 0b0010
      responses := s.responses ++ [0#4 ++ 0#32], cmdcnt := s.cmdcnt + 1, phase := .idle }

/-- `SETBASE` of every address, in every state without a pending fault, everything not named unchanged; and while a
fault is pending it is refused (R93). -/
def Obligations.SetbaseWritesDstbase : Prop :=
  ∀ (s : State) (a : Addr),
    (s.status.err = false → exec (.setbase a) s = .next { s with
      dstbase := a
      cfgv := s.cfgv ||| 0b0100
      responses := s.responses ++ [0#4 ++ 0#32], cmdcnt := s.cmdcnt + 1, phase := .idle }) ∧
    (s.status.err = true → exec (.setbase a) s = .next { s with
      responses := s.responses ++ [5#4 ++ s.statusWord], phase := .idle })

/-- `SETSTRIDE` of every stride, in every state without a pending fault, everything not named unchanged; and while a
fault is pending it is refused (R94). -/
def Obligations.SetstrideWritesDststride : Prop :=
  ∀ (s : State) (d : Word),
    (s.status.err = false → exec (.setstride d) s = .next { s with
      dststride := d
      cfgv := s.cfgv ||| 0b1000
      responses := s.responses ++ [0#4 ++ 0#32], cmdcnt := s.cmdcnt + 1, phase := .idle }) ∧
    (s.status.err = true → exec (.setstride d) s = .next { s with
      responses := s.responses ++ [5#4 ++ s.statusWord], phase := .idle })

/-- `CLRACC` in every state without a pending fault (R95); everything not named is unchanged. -/
def Obligations.ClraccClearsTtacc : Prop :=
  ∀ s : State, s.status.err = false →
    exec .clracc s = .next { s with
      ttacc := 0
      responses := s.responses ++ [0#4 ++ 0#32], cmdcnt := s.cmdcnt + 1, phase := .idle }

/-- `CLRERR` in every state (R98): the three fields of the record are cleared, `irq` falls, everything not named is
unchanged. -/
def Obligations.ClrerrReturnsFromFault : Prop :=
  ∀ s : State, ∃ t, exec .clrerr s = .next t ∧ t.irq = false ∧ t = { s with
      status := { err := false, errcode := 0, errsub := 0 }
      responses := s.responses ++ [0#4 ++ 0#32], cmdcnt := s.cmdcnt + 1, phase := .idle }

/-- `RDREG` of a register 0 to 9, in every state (R96): the register's value as it stands before the command's own
count, and no side effect. -/
def Obligations.RdregReturnsRegister : Prop :=
  ∀ (s : State) (r : BitVec 4), r.toNat < 10 →
    exec (.rdreg r) s = .next { s with
      responses := s.responses ++ [0#4 ++ s.regVal r], cmdcnt := s.cmdcnt + 1, phase := .idle }

/-- The layouts of the ten registers, field by field, the unassigned bits 0 (R21 to R31). -/
def Obligations.RegisterLayouts : Prop :=
  ∀ s : State,
    ((s.regVal 0).extractLsb' 0 8 = s.qctx.mquant ∧ (s.regVal 0).getLsbD 8 = s.qctx.halfqp ∧
      (s.regVal 0).getLsbD 9 = s.qctx.pquantizer ∧ (s.regVal 0).extractLsb' 10 22 = 0) ∧
    ((s.regVal 1).getLsbD 0 = s.ctx.regime ∧ (s.regVal 1).extractLsb' 1 3 = s.ctx.codingset ∧
      (s.regVal 1).getLsbD 4 = s.ctx.patf ∧ (s.regVal 1).getLsbD 5 = s.ctx.resred ∧
      (s.regVal 1).extractLsb' 6 26 = 0) ∧
    s.regVal 2 = s.dstbase ∧ s.regVal 3 = s.dststride ∧ s.regVal 4 = s.ttacc ∧
    ((s.regVal 5).extractLsb' 0 8 = s.result.pat ∧ (s.regVal 5).extractLsb' 8 3 = s.result.shape ∧
      (s.regVal 5).extractLsb' 11 4 = s.result.subpat ∧ (s.regVal 5).getLsbD 15 = s.result.valid ∧
      (s.regVal 5).extractLsb' 16 16 = 0) ∧
    (∀ k, k < 4 → (s.regVal 6).extractLsb' (8 * k) 7 = s.placedAt k ∧ (s.regVal 6).getLsbD (8 * k + 7) = false) ∧
    ((s.regVal 7).getLsbD 0 = s.status.err ∧ (s.regVal 7).extractLsb' 1 3 = 0 ∧
      (s.regVal 7).extractLsb' 4 4 = s.status.errcode ∧ (s.regVal 7).extractLsb' 8 2 = s.status.errsub ∧
      (s.regVal 7).extractLsb' 10 2 = 0 ∧ (s.regVal 7).extractLsb' 12 4 = s.cfgv ∧
      (s.regVal 7).extractLsb' 16 16 = 0) ∧
    s.regVal 8 = s.cmdcnt ∧
    ((s.regVal 9).extractLsb' 0 9 = s.work.scale ∧ (s.regVal 9).extractLsb' 9 7 = 0 ∧
      (s.regVal 9).extractLsb' 16 8 = s.work.quant ∧ (s.regVal 9).extractLsb' 24 8 = 0)

/-- `RDBLK` once a `DECBLK` has passed its checks (R97): the cell, sign-extended, in every state. -/
def Obligations.RdblkReturnsCell : Prop :=
  ∀ (s : State) (x : BitVec 6), s.blkDefined = true →
    ∃ d : Word, d.toInt = (s.cellAt x.toNat).toInt ∧
      exec (.rdblk x) s = .next { s with
        responses := s.responses ++ [0#4 ++ d], cmdcnt := s.cmdcnt + 1, phase := .idle }

/-- `RDBLK` before that (R47): some 16-bit value, sign-extended; nothing else the spec names changes. The free-value
counter is the model's (log 3) and the statement holds for every value of it. -/
def Obligations.RdblkBeforeDecblk : Prop :=
  ∀ (s : State) (x : BitVec 6), s.blkDefined = false →
    ∃ (v : Sample) (d : Word), d.toInt = v.toInt ∧
      exec (.rdblk x) s = .next { s with
        draws := s.draws + 1
        responses := s.responses ++ [0#4 ++ d], cmdcnt := s.cmdcnt + 1, phase := .idle }

/-! ## Faults and refusal -/

/-- R222: the whole effect of a fault. -/
def Obligations.FaultKeepsFirstRecord : Prop :=
  ∀ (s : State) (code : StatusCode) (sub : BitVec 2), code ≠ .ok →
    ∃ t, s.raiseFault code sub = t ∧ t.irq = true ∧
      t = { s with
        status := if s.status.err then s.status else { err := true, errcode := code.bits, errsub := sub }
        responses := s.responses ++ [code.bits ++ t.statusWord]
        phase := .idle }

/-- R76: while a fault is pending, a word whose opcode is not 0, 7, 8 or 9, legal or not, is answered `REFUSED` with
the `STATUS` register and changes no state. -/
def Obligations.FaultedMachineRefuses : Prop :=
  ∀ (s : State) (w : Command) (rest : List Command), s.resetPin = false → s.phase = .idle → s.cmds = w :: rest →
    s.status.err = true → w.op ≠ 0 → w.op ≠ 7 → w.op ≠ 8 → w.op ≠ 9 →
    step s = .next { s with cmds := rest, responses := s.responses ++ [5#4 ++ s.statusWord] }

/-- R30, R71 to R73, R215: a command that has ended has put exactly one response on the port, with a status 0 to 5,
and counts exactly when the status is OK; one that waits has put none and does not count. -/
def Obligations.OneResponsePerCommand : Prop :=
  ∀ (i : Instr) (s t : State), exec i s = .next t →
    (t.phase = .idle ∧ ∃ (st : BitVec 4) (d : Word), st.toNat ≤ 5 ∧ t.responses = s.responses ++ [st ++ d] ∧
      t.cmdcnt = if st = 0 then s.cmdcnt + 1 else s.cmdcnt) ∨
    (t.phase.inBlock = true ∧ t.responses = s.responses ∧ t.cmdcnt = s.cmdcnt ∧ ∃ r, t.outstanding = some r)

/-- The commands in ill-formed or refused form: `DECBLK` with a shape beside `NOSHAPE`, `RDREG` of a reserved number,
and the six commands that a pending fault refuses (R76, R77, R96, R110). -/
def Obligations.CommandsTurnedAway : Prop :=
  (∀ (s : State) (tt : BitVec 3) (f k o : Bool) (n : BitVec 3), s.status.err = false → tt ≠ 0 →
    exec (.decblk tt true f k o n) s = .next (s.raiseFault .eIllcmd 0)) ∧
  (∀ (s : State) (r : BitVec 4), 10 ≤ r.toNat → exec (.rdreg r) s = .next (s.raiseFault .eIllcmd 0)) ∧
  (∀ (s : State) (i : Instr), s.status.err = true → i ≠ .nop → (∀ r, i ≠ .rdreg r) → (∀ x, i ≠ .rdblk x) →
    i ≠ .clrerr → exec i s = .next { s with responses := s.responses ++ [5#4 ++ s.statusWord], phase := .idle })

/-- R112: the two checks of `DECBLK`, in their order; a `DECBLK` that fails one changes only the fault record. (The
operands latched for the sequencer are the model's own field.) -/
def Obligations.DecblkChecks : Prop :=
  ∀ (s : State) (tt : BitVec 3) (ns f k o : Bool) (n : BitVec 3), s.status.err = false → (ns = true → tt = 0) →
    (s.cfgv ≠ 0b1111 →
      ∃ t, exec (.decblk tt ns f k o n) s = .next t ∧ t = { s with
        status := { err := true, errcode := 2, errsub := 0 }
        responses := s.responses ++ [2#4 ++ t.statusWord]
        phase := .idle
        cont := { s.cont with ops :=
          { ttcode := tt, noshape := ns, first := f, skipblk := k, ttout := o, n := n } } }) ∧
    (s.cfgv = 0b1111 → s.qctx.mquant = 0 →
      ∃ t, exec (.decblk tt ns f k o n) s = .next t ∧ t = { s with
        status := { err := true, errcode := 3, errsub := 0 }
        responses := s.responses ++ [3#4 ++ t.statusWord]
        phase := .idle
        cont := { s.cont with ops :=
          { ttcode := tt, noshape := ns, first := f, skipblk := k, ttout := o, n := n } } })

/-- R228, R29: only an asserted reset or the command `CLRERR` ends the faulted condition, in every state. -/
def Obligations.OnlyClrerrOrResetEndsFault : Prop :=
  ∀ s t : State, s.status.err = true → step s = .next t → t.status.err = false →
    s.resetPin = true ∨ (s.phase = .idle ∧ ∃ rest, s.cmds = 0x900000000 :: rest)

/-- R20, R25, R32: while reset is low, each configuration register changes only when its own command is taken, in `IDLE`,
and a bit of `CFGV` is never cleared and is set only with it. -/
def Obligations.ConfigurationWrittenOnlyBySetCommands : Prop :=
  ∀ s t : State, s.resetPin = false → step s = .next t →
    (t.qctx ≠ s.qctx ∨ t.cfgv.getLsbD 0 ≠ s.cfgv.getLsbD 0 →
      ∃ w rest m h p, s.phase = .idle ∧ s.cmds = w :: rest ∧ decode w = .command (.setq m h p)) ∧
    (t.ctx ≠ s.ctx ∨ t.cfgv.getLsbD 1 ≠ s.cfgv.getLsbD 1 →
      ∃ w rest r c f d, s.phase = .idle ∧ s.cmds = w :: rest ∧ decode w = .command (.setctx r c f d)) ∧
    (t.dstbase ≠ s.dstbase ∨ t.cfgv.getLsbD 2 ≠ s.cfgv.getLsbD 2 →
      ∃ w rest a, s.phase = .idle ∧ s.cmds = w :: rest ∧ decode w = .command (.setbase a)) ∧
    (t.dststride ≠ s.dststride ∨ t.cfgv.getLsbD 3 ≠ s.cfgv.getLsbD 3 →
      ∃ w rest d, s.phase = .idle ∧ s.cmds = w :: rest ∧ decode w = .command (.setstride d)) ∧
    (∀ b, s.cfgv.getLsbD b = true → t.cfgv.getLsbD b = true)

/-! ## The partition selector -/

/-- R131: the condition for reading the 2-bit code, and that the resolution-reduction flag never changes it. -/
def Obligations.PatternReadCondition : Prop :=
  (∀ (r : RawShape) (noshape first patf resred : Bool),
    read2 r noshape first patf resred =
      ((r == .pair8x4 || r == .pair4x8) || (noshape && (!first || patf)))) ∧
  (∀ (r : RawShape) (noshape first patf resred : Bool),
    (patternRead r noshape first patf resred = some .pat2 ↔
      (canonical r = .pair8x4 ∨ canonical r = .pair4x8) ∧ read2 r noshape first patf resred = true) ∧
    (patternRead r noshape first patf resred = some .subblkpat ↔ r = .quad4x4) ∧
    patternRead r noshape first patf resred ≠ some .ttblk)

/-- R132: the sub-pattern of each value of the two bits used, whatever the other bits of the answer. -/
def Obligations.PairCodeSubpatterns : Prop :=
  ∀ sym : BitVec 4,
    (sym.extractLsb' 0 2 = 0 → pairSubpat sym = 0b00) ∧ (sym.extractLsb' 0 2 = 1 → pairSubpat sym = 0b10) ∧
    (sym.extractLsb' 0 2 = 2 → pairSubpat sym = 0b01) ∧ (sym.extractLsb' 0 2 = 3 → pairSubpat sym = 0b00)

/-- R133: the four oriented codes collapse to their pair shape, with these sub-patterns in this hardware. -/
def Obligations.OrientedSubpatterns : Prop :=
  orientedSubpat Config.vrd.orient .pair8x4Top = 0b10 ∧ orientedSubpat Config.vrd.orient .pair8x4Bottom = 0b01 ∧
  orientedSubpat Config.vrd.orient .pair4x8Left = 0b10 ∧ orientedSubpat Config.vrd.orient .pair4x8Right = 0b01 ∧
  canonical .pair8x4Top = .pair8x4 ∧ canonical .pair8x4Bottom = .pair8x4 ∧ canonical .pair4x8Left = .pair4x8 ∧
  canonical .pair4x8Right = .pair4x8

/-- R188, R137: the values of `PAT`, and that bit `3-q` of it is 1 exactly when quadrant `q` (top-left, top-right,
bottom-left, bottom-right) lies in a sub-block that the sub-pattern does not mark empty. -/
def Obligations.PatternBitmap : Prop :=
  (patOf .pair8x4 0 = 0xF ∧ patOf .pair8x4 1 = 0xC ∧ patOf .pair8x4 2 = 0x3 ∧ patOf .pair4x8 0 = 0xF ∧
    patOf .pair4x8 1 = 0xA ∧ patOf .pair4x8 2 = 0x5 ∧ patOf .full8x8 0 = 0xF) ∧
  (∀ w : BitVec 4, patOf .quad4x4 w = (~~~w).setWidth 8) ∧
  (∀ (sh : Shape) (w : BitVec 4) (q k : Nat), w.toNat < 2 ^ pbits sh → q < 4 → k < sh.nsub →
    (∃ p, p < sh.cap ∧ cellIndex sh k p = 8 * (4 * (q / 2)) + 4 * (q % 2)) →
    (patOf sh w).getLsbD (3 - q) = !isEmptySub sh w k) ∧
  (∀ (sh : Shape) (w : BitVec 4), (patOf sh w).extractLsb' 4 4 = 0)

/-! ## The dequantizer -/

/-- R145: the derivation of `QUANT` and `SCALE` and their ranges, for every usable quantizer, and that the `CHECK`
phase of a `DECBLK` that passes its checks writes them from the `QCTX` in force. -/
def Obligations.QuantizerDerivation : Prop :=
  (∀ (m : BitVec 8) (h : Bool), m ≠ 0 →
    ((quantOf m).toNat : Int) = |m.toInt| ∧
    (scaleOf m h).toNat = 2 * (quantOf m).toNat + (if 0 < m.toInt ∧ h = true then 1 else 0) ∧
    1 ≤ (quantOf m).toNat ∧ (quantOf m).toNat ≤ 128 ∧ 2 ≤ (scaleOf m h).toNat ∧ (scaleOf m h).toNat ≤ 257) ∧
  (∀ (c : Cfg) (s : State), s.phase = .check → s.hostReady →
    ∃ t, tick c s = .answer () t ∧ t.work.quant = quantOf s.qctx.mquant ∧
      t.work.scale = scaleOf s.qctx.mquant s.qctx.halfqp ∧ t.qctx = s.qctx)

/-- R148: product and sum keep the low 16 bits, and where they fit the result is exact. -/
def Obligations.DequantizeExact : Prop :=
  ∀ (q : BitVec 8) (sc : BitVec 9) (v : BitVec 32),
    ((dequant q sc true v).toInt - v.toInt * (sc.toNat : Int)) % 65536 = 0 ∧
    ((dequant q sc false v).toInt - (dequant q sc true v).toInt -
      (if (dequant q sc true v).toInt < 0 then -(q.toNat : Int) else (q.toNat : Int))) % 65536 = 0 ∧
    (|v.toInt| * (sc.toNat : Int) + (q.toNat : Int) ≤ 32767 → 0 < sc.toNat →
      (dequant q sc true v).toInt = v.toInt * (sc.toNat : Int) ∧
      (dequant q sc false v).toInt =
        v.toInt * (sc.toNat : Int) + (if v.toInt < 0 then -(q.toNat : Int) else (q.toNat : Int)))

/-- R151 (and R149): the symmetry of the dequantizer where no product overflows. -/
def Obligations.DequantizeAntisymmetry : Prop :=
  ∀ (q : BitVec 8) (sc : BitVec 9) (v : BitVec 32), 0 < sc.toNat →
    |v.toInt| * (sc.toNat : Int) + (q.toNat : Int) ≤ 32767 →
    (dequant q sc true (-v)).toInt = -(dequant q sc true v).toInt ∧
    (v ≠ 0 → (dequant q sc false v).toInt + (dequant q sc false (-v)).toInt = 0) ∧
    (v = 0 → (dequant q sc false v).toInt + (dequant q sc false (-v)).toInt = 2 * (q.toNat : Int))

/-! ## Geometry, scan order, pixels -/

/-- R34: over the sub-blocks of one shape the cells are distinct and cover the Block. -/
def Obligations.CellsPartitionBlock : Prop :=
  ∀ sh : Shape,
    (∀ k j p q, k < sh.nsub → j < sh.nsub → p < sh.cap → q < sh.cap →
      cellIndex sh k p = cellIndex sh j q → k = j ∧ p = q) ∧
    (∀ c, c < 64 → ∃ k p, k < sh.nsub ∧ p < sh.cap ∧ cellIndex sh k p = c) ∧
    (∀ k p, k < sh.nsub → p < sh.cap → cellIndex sh k p < 64)

/-- R157 (a), R168 (c): whatever the scan tables, two cursors of the sub-blocks of one shape never name one cell, and
every cell of a sub-block is named by some cursor. -/
def Obligations.ScannedCellsDistinct : Prop :=
  ∀ (c : Cfg) (sh : Shape) (r : Bool),
    (∀ k j a b, k < sh.nsub → j < sh.nsub → a < sh.cap → b < sh.cap →
      cellIndex sh k (scanAt c sh r a) = cellIndex sh j (scanAt c sh r b) → k = j ∧ a = b) ∧
    (∀ p, p < sh.cap → ∃ a, a < sh.cap ∧ scanAt c sh r a = p) ∧
    scanAt c .full8x8 false 0 = 0

/-- R54: with a stride of magnitude 8 or more the 64 addresses of a block are distinct before wrapping. -/
def Obligations.PixelAddressesDistinct : Prop :=
  ∀ (base : Addr) (stride : Word) (sh : Shape), 8 ≤ |stride.toInt| →
    ∀ k j y z x u, k < sh.nsub → j < sh.nsub → y < sh.height → z < sh.height → x < sh.width → u < sh.width →
      pixSum base stride sh k y x = pixSum base stride sh j z u → k = j ∧ y = z ∧ x = u

/-- R182, R183: the clamped sum, in general and on the cases of the table. -/
def Obligations.PixelClamp : Prop :=
  (∀ (old : Byte) (r : Sample), ((accumulate old r).toNat : Int) =
    if (old.toNat : Int) + r.toInt < 0 then 0 else if 255 < (old.toNat : Int) + r.toInt then 255
    else (old.toNat : Int) + r.toInt) ∧
  accumulate 100 5 = 105 ∧ accumulate 100 (-5) = 95 ∧ accumulate 250 10 = 255 ∧ accumulate 3 (-10) = 0 ∧
  accumulate 255 0 = 255 ∧ accumulate 0 0 = 0 ∧ accumulate 0 255 = 255 ∧ accumulate 0 256 = 255 ∧
  accumulate 255 (-255) = 0 ∧ accumulate 255 (-32768) = 0 ∧ accumulate 0 32767 = 255

/-! ## The phases of a `DECBLK` -/

/-- R128 to R136, R116: the step of the `SELECT` phase that fixes the sub-pattern, for every configuration: it makes the
symbol read that the raw shape calls for, if any, writes the normalized code and the sub-pattern, and enters the
sub-block loop at the first sub-block that is not empty, or at `FINISH`. -/
def Obligations.SelectorEntersLoop : Prop :=
  ∀ (c : Cfg) (s : State) (read : Option SymClass), s.phase = .select → s.cont.rawDone = true → s.grants = none →
    read = patternRead (rawShapeOf s.work.raw) s.cont.ops.noshape s.cont.ops.first s.ctx.patf s.ctx.resred →
    (read ≠ none → s.stream ≠ []) →
    ∃ t, tick c s = .answer () t ∧
      t.requests = s.requests ++ (match read with
        | none => []
        | some cls => [.symRead cls s.ctx.regime]) ∧
      t.work.wshape = shapeCode (canonical (rawShapeOf s.work.raw)) ∧
      t.work.wsubpat = (match read with
        | none => orientedSubpat c.orient (rawShapeOf s.work.raw)
        | some cls => subpatOfSym cls (headSym s.stream)) ∧
      EntersLoop (canonical (rawShapeOf s.work.raw)) t.work.wsubpat 0 t ∧
      t.blk = s.blk ∧ t.placed = s.placed ∧ t.mem = s.mem ∧ t.responses = s.responses

/-- R159 to R166, R116, R118, R176: what one answer of the coefficient decoder does in a placement loop, for every
configuration: an error ends the command with `E_STREAM`; an overrun ends the loop with nothing placed; any other triple
puts the dequantized value in the cell the scan table names, and the last one ends the loop. Where the loop ends, the
same sub-block is reconstructed next, whatever was placed, or with `SKIPBLK` the next one that is not empty begins, or
the command finishes. Where the stream then stands is another statement's (log 9). -/
def Obligations.PlacementStep : Prop :=
  ∀ (c : Cfg) (s : State) (code : Code) (rest : List Code), s.phase = .pull → s.Inv →
    s.stream = code :: rest → s.grants = none →
    ∃ t, tick c s = .answer () t ∧
      t.requests = s.requests ++ [.coefNext s.ctx.codingset] ∧ t.mem = s.mem ∧ t.ttacc = s.ttacc ∧
      t.result = s.result ∧ t.cmdcnt = s.cmdcnt ∧
      (code.coef.err = true →
        t.phase = .idle ∧ t.status = { err := true, errcode := 4, errsub := s.work.k } ∧ t.blk = s.blk ∧
        t.placed = s.placed.setIfInBounds s.work.k.toNat s.work.cnt ∧
        t.responses = s.responses ++ [4#4 ++ t.statusWord]) ∧
      (code.coef.err = false →
        t.status = s.status ∧ t.responses = s.responses ∧ t.work.last = code.coef.last) ∧
      (code.coef.err = false → s.shape.cap ≤ s.work.cur.toNat + code.coef.skip.toNat →
        t.blk = s.blk ∧ t.placed = s.placed.setIfInBounds s.work.k.toNat s.work.cnt ∧
        PullEnds s t (s.work.cur.toNat + code.coef.skip.toNat) s.work.cnt) ∧
      (code.coef.err = false → s.work.cur.toNat + code.coef.skip.toNat < s.shape.cap →
        t.blk = s.blk.setIfInBounds
          (cellIndex s.shape s.work.k.toNat
            (scanAt c s.shape s.ctx.regime (s.work.cur.toNat + code.coef.skip.toNat)))
          (dequant s.work.quant s.work.scale s.qctx.pquantizer code.coef.value) ∧
        (code.coef.last = true →
          t.placed = s.placed.setIfInBounds s.work.k.toNat (s.work.cnt + 1) ∧
          PullEnds s t (s.work.cur.toNat + code.coef.skip.toNat + 1) (s.work.cnt + 1)) ∧
        (code.coef.last = false → t.phase = .pull ∧ t.placed = s.placed ∧ t.work.k = s.work.k ∧
          t.work.cur.toNat = s.work.cur.toNat + code.coef.skip.toNat + 1 ∧ t.work.cnt = s.work.cnt + 1))

/-- Every step of a `DECBLK` that goes on moves the stream by one code exactly when it made a symbol or a coefficient
request, an answer with `err` = 1 among them, and else leaves it. That an answer is one code, and that a failing one is
passed too, is the model's view of the stream (log 9): U12 leaves the position after an error open. -/
def Obligations.StreamRequestTakesOneCode : Prop :=
  ∀ (c : Cfg) (s t : State), tick c s = .answer () t →
    (t.stream = s.stream ∧ ∃ log, t.requests = s.requests ++ log ∧ log.countP Request.onStream = 0) ∨
    (∃ code r, s.stream = code :: t.stream ∧ t.requests = s.requests ++ [r] ∧ r.onStream = true)

/-- R175, R182, R56, R54: the reconstruction of one sub-block, for every configuration and every stride: one transform
request, then for each pixel in row order a read and a write of the clamped sum, each access seeing the earlier ones.
Where the addresses of the sub-block are distinct, each pixel becomes the clamped sum of its byte and its sample. No
byte outside the sub-block changes, and no register 0 to 9. Then the loop goes on after the sub-block. -/
def Obligations.ReconstructionAddsClamped : Prop :=
  ∀ (c : Cfg) (s : State), s.phase = .recon → s.cont.res = none → s.cont.pix = 0 → s.cont.old = none →
    s.environmentAnswers → Memory.wf s.mem = true →
    ∃ t res, ticks c (1 + 2 * s.shape.cap) s = some t ∧
      res = itxSamples c s.shape (s.itxKind c) s.coeffs ∧
      t.mem = (s.accumulated res s.shape.cap).1 ∧
      t.requests = s.requests ++
        Request.itxCall (shapeCode s.shape) (s.itxKind c) s.coeffs :: (s.accumulated res s.shape.cap).2 ∧
      (s.pixelsDistinct s.shape s.work.k.toNat → ∀ i, i < s.shape.cap →
        t.byteAt (s.pixelAddr i) = accumulate (s.byteAt (s.pixelAddr i)) (sampleAt res i)) ∧
      (∀ a, (∀ i, i < s.shape.cap → a ≠ s.pixelAddr i) → t.byteAt a = s.byteAt a) ∧
      t.blk = s.blk ∧ t.placed = s.placed ∧ t.result = s.result ∧ t.ttacc = s.ttacc ∧ t.status = s.status ∧
      t.cmdcnt = s.cmdcnt ∧ t.qctx = s.qctx ∧ t.ctx = s.ctx ∧ t.dstbase = s.dstbase ∧
      t.dststride = s.dststride ∧ t.cfgv = s.cfgv ∧ t.work.quant = s.work.quant ∧ t.work.scale = s.work.scale ∧
      t.stream = s.stream ∧ t.responses = s.responses ∧
      EntersLoop s.shape s.work.wsubpat (s.work.k.toNat + 1) t

/-- R186, under the count criterion: in every state that the two invariants allow, the transform request of a
sub-block is answered with the samples of the full transform, whichever kind was requested. It rests on the strong
transform contract R210 (a), which the configuration carries (log 2). -/
def Obligations.DcPathEqualsFullPath : Prop :=
  ∀ (c : Cfg) (s : State), c.dcSelect = .countEq1 → s.Inv → s.BlockInv → s.phase = .recon →
    itxSamples c s.shape (s.itxKind c) s.coeffs = itxSamples c s.shape .full s.coeffs

/-! ## The whole `DECBLK` -/

/-- R186: for every start state, every stream and every configuration that selects by count, a `DECBLK` does exactly what
it does where every sub-block goes through the full transform: outcome, plane, requests and all. It rests on the strong
transform contract R210 (a), which the configuration carries (log 2). -/
def Obligations.DecblkSameThroughFullPath : Prop :=
  ∀ (c : Cfg) (ops : DecOps) (s : State), c.dcSelect = .countEq1 →
    runBlock c ops s = runBlock (fullPath c) ops s

/-- R57, R116, R119, R176: on a ready VRD whose agents answer, with 70 sound codes ahead, every `DECBLK` reconstructs
exactly the sub-blocks that its sub-pattern does not mark empty, in order and whatever was placed in them, and with
`SKIPBLK` none: one transform request for each, of the normalized shape, and a read and then a write of each of their
pixels and of no other. In all it makes at least as many coefficient requests as there are such sub-blocks, and at most
`CAP(s) + 1` times as many; how they fall on the sub-blocks is `DecblkRequestOrder`. -/
def Obligations.DecblkReconstructsPresentSubblocks : Prop :=
  ∀ (s : State) (ops : DecOps) (sh : Shape) (w : BitVec 4), s.hostReady → s.environmentAnswers →
    s.streamSound 70 → (ops.noshape = true → ops.ttcode = 0) → sh = shapeFor ops s.stream →
    w = subpatFor Config.vrd s.ctx ops s.stream →
    ∃ t log, exec (.decblk ops.ttcode ops.noshape ops.first ops.skipblk ops.ttout ops.n) s = .next t ∧
      t.requests = s.requests ++ log ∧
      log.filterMap Request.itxShape =
        (if ops.skipblk then [] else List.replicate (presentSubs sh w).length (shapeCode sh)) ∧
      log.filterMap Request.memAccess =
        (if ops.skipblk then [] else (s.presentPixels sh w).flatMap (fun a => [(false, a), (true, a)])) ∧
      (presentSubs sh w).length ≤ log.countP Request.isCoef ∧
      log.countP Request.isCoef ≤ (presentSubs sh w).length * (sh.cap + 1)

/-- R110, R116, R120, R127, R188 to R191, R266: on a ready VRD whose agents answer, with 70 sound codes ahead (2
symbols and 68 coefficients), every `DECBLK` completes with status OK: shape and sub-pattern as the selector says of
the command, the context and the stream, the symbol reads it says and no other, `RESULT` and `TTACC` as their rules
say. -/
def Obligations.DecblkCompletes : Prop :=
  ∀ (s : State) (ops : DecOps), s.hostReady → s.environmentAnswers → s.streamSound 70 →
    (ops.noshape = true → ops.ttcode = 0) →
    ∃ t, exec (.decblk ops.ttcode ops.noshape ops.first ops.skipblk ops.ttout ops.n) s = .next t ∧
      t.phase = .idle ∧
      t.result = resultFor (shapeFor ops s.stream) (subpatFor Config.vrd s.ctx ops s.stream) ∧
      t.responses = s.responses ++ [0#4 ++ t.regVal 5] ∧ t.cmdcnt = s.cmdcnt + 1 ∧ t.status = s.status ∧
      t.ttacc = ttaccFor ops (shapeFor ops s.stream) s.ttacc ∧
      t.work.quant = quantOf s.qctx.mquant ∧ t.work.scale = scaleOf s.qctx.mquant s.qctx.halfqp ∧
      t.blkDefined = true ∧
      (∃ others, t.requests = s.requests ++ symbolRequests s.ctx ops s.stream ++ others ∧
        ∀ r ∈ others, ∀ cls reg, r ≠ Request.symRead cls reg)

/-- R119, R115, R116 (e), R120: on a ready VRD whose agents answer, with 70 sound codes ahead, the whole order of the
requests of every `DECBLK`: the symbol reads of the selector; then, for each sub-block that is not empty, in order, its
own coefficient requests, at least one and at most `CAP(s) + 1`, and after them, unless the command says `SKIPBLK`, its
transform request and a read and a write of each of its pixels; and nothing else. -/
def Obligations.DecblkRequestOrder : Prop :=
  ∀ (s : State) (ops : DecOps) (sh : Shape) (w : BitVec 4), s.hostReady → s.environmentAnswers →
    s.streamSound 70 → (ops.noshape = true → ops.ttcode = 0) → sh = shapeFor ops s.stream →
    w = subpatFor Config.vrd s.ctx ops s.stream →
    ∃ t log counts, exec (.decblk ops.ttcode ops.noshape ops.first ops.skipblk ops.ttout ops.n) s = .next t ∧
      t.requests = s.requests ++ log ∧ counts.length = (presentSubs sh w).length ∧
      (∀ m ∈ counts, 1 ≤ m ∧ m ≤ sh.cap + 1) ∧
      log.map Request.outline = symbolRequests s.ctx ops s.stream ++
        ((presentSubs sh w).zip counts).flatMap (fun p => s.subOutline sh ops.skipblk p.1 p.2)

/-- R110, R121 generalised: an 8x8 block whose one coefficient does not overrun, reconstructed through the DC path, with
`TTOUT` set or clear (the shape code 0 changes no nibble): the Block, the count, the response, and every byte of the
plane. That the samples are those of the full transform rests on the strong transform contract (log 2); that the stream
has moved by one code is the model's view of it (log 9). -/
def Obligations.DecblkSingleCoefficient : Prop :=
  ∀ (s : State) (f o : Bool) (n : BitVec 3) (code : Code) (rest : List Code), s.hostReady →
    s.environmentAnswers → Memory.wf s.mem = true → s.pixelsDistinct .full8x8 0 →
    s.stream = code :: rest → code.coef.err = false → code.coef.last = true → code.coef.skip.toNat < 64 →
    ∃ t, exec (.decblk 0 false f false o n) s = .next t ∧ t.phase = .idle ∧ t.stream = rest ∧
      t.blk = (Vector.replicate 64 0).setIfInBounds
        (scanAt Config.vrd .full8x8 s.ctx.regime code.coef.skip.toNat)
        (dequant (quantOf s.qctx.mquant) (scaleOf s.qctx.mquant s.qctx.halfqp) s.qctx.pquantizer
          code.coef.value) ∧
      t.regVal 6 = 1 ∧ t.responses = s.responses ++ [0#4 ++ 0x0000800F#32] ∧ t.ttacc = s.ttacc ∧
      (∀ i, i < 64 → t.byteAt (pixAddr s.dstbase s.dststride .full8x8 0 (i / 8) (i % 8)) =
        accumulate (s.byteAt (pixAddr s.dstbase s.dststride .full8x8 0 (i / 8) (i % 8)))
          (Config.vrd.itxFull .full8x8 (t.coeffsOf .full8x8 0) i)) ∧
      (∀ a, (∀ i, i < 64 → a ≠ pixAddr s.dstbase s.dststride .full8x8 0 (i / 8) (i % 8)) →
        t.byteAt a = s.byteAt a)

/-- R117, R165: an 8x8 block whose first coefficient request fails: the fault, and what it leaves. That the cursor
then stands one code further is the model's view of the stream (log 9). -/
def Obligations.DecblkFirstRequestFails : Prop :=
  ∀ (s : State) (f k o : Bool) (n : BitVec 3) (code : Code) (rest : List Code), s.hostReady → s.grants = none →
    s.stream = code :: rest → code.coef.err = true →
    ∃ t, exec (.decblk 0 false f k o n) s = .next t ∧ t.phase = .idle ∧
      t.status = { err := true, errcode := 4, errsub := 0 } ∧
      t.responses = s.responses ++ [4#4 ++ t.statusWord] ∧ t.cmdcnt = s.cmdcnt ∧ t.ttacc = s.ttacc ∧
      t.result = { valid := false, subpat := 0, shape := 0, pat := 0 } ∧ (∀ j, t.placedAt j = 0) ∧
      (∀ j, t.cellAt j = 0) ∧ t.mem = s.mem ∧ t.stream = rest ∧
      t.requests = s.requests ++ [.coefNext s.ctx.codingset]

/-- R226, right column: the state after every `DECBLK` that ended with `E_STREAM`, whatever it had done before. -/
def Obligations.DecblkStreamErrorState : Prop :=
  ∀ (s t : State) (tt : BitVec 3) (ns f k o : Bool) (n : BitVec 3), s.status.err = false →
    exec (.decblk tt ns f k o n) s = .next t → t.phase = .idle → t.status.err = true → t.status.errcode = 4 →
    t.responses = s.responses ++ [4#4 ++ t.statusWord] ∧ t.cmdcnt = s.cmdcnt ∧
      t.qctx = s.qctx ∧ t.ctx = s.ctx ∧ t.dstbase = s.dstbase ∧ t.dststride = s.dststride ∧ t.cfgv = s.cfgv ∧
      t.ttacc = s.ttacc ∧ t.result = { valid := false, subpat := 0, shape := 0, pat := 0 } ∧
      (∀ j, t.status.errsub.toNat < j → t.placedAt j = 0) ∧
      (∀ j, j < t.status.errsub.toNat → isEmptySub t.shape t.work.wsubpat j = true → t.placedAt j = 0) ∧
      (∀ j p, j < t.shape.nsub → t.status.errsub.toNat < j → p < t.shape.cap →
        t.cellAt (cellIndex t.shape j p) = 0) ∧
      t.work.quant = quantOf s.qctx.mquant ∧ t.work.scale = scaleOf s.qctx.mquant s.qctx.halfqp ∧
      (k = true → t.mem = s.mem) ∧
      (∀ a, (∀ j y x, j < t.status.errsub.toNat → isEmptySub t.shape t.work.wsubpat j = false →
          y < t.shape.height → x < t.shape.width → a ≠ pixAddr s.dstbase s.dststride t.shape j y x) →
        t.byteAt a = s.byteAt a)

/-- R57, R53: whatever a `DECBLK` does and wherever it stops or waits, a byte of the plane that is not a pixel of a
sub-block the sub-pattern leaves non-empty reads as before, and with `SKIPBLK` every byte does. -/
def Obligations.DecblkWritesOnlyItsFootprint : Prop :=
  ∀ (s t : State) (tt : BitVec 3) (ns f k o : Bool) (n : BitVec 3),
    exec (.decblk tt ns f k o n) s = .next t →
    (∀ a, (∀ j y x, j < t.shape.nsub → isEmptySub t.shape t.work.wsubpat j = false →
        y < t.shape.height → x < t.shape.width → a ≠ pixAddr s.dstbase s.dststride t.shape j y x) →
      t.byteAt a = s.byteAt a) ∧
    (k = true → t.mem = s.mem)

/-- The frame of `DECBLK` (R20, R30, R53, R190, R223, R257): no configuration register, and nothing of the environment
but the stream, the plane and the grants, changes; the accumulator and the count change only when it ends OK. -/
def Obligations.DecblkFrame : Prop :=
  ∀ (s t : State) (tt : BitVec 3) (ns f k o : Bool) (n : BitVec 3),
    exec (.decblk tt ns f k o n) s = .next t →
    t.qctx = s.qctx ∧ t.ctx = s.ctx ∧ t.dstbase = s.dstbase ∧ t.dststride = s.dststride ∧ t.cfgv = s.cfgv ∧
      t.cmds = s.cmds ∧ t.resetPin = s.resetPin ∧ t.platform = s.platform ∧ t.draws = s.draws ∧
      (t.phase ≠ .idle ∨ t.status.err = true → t.ttacc = s.ttacc ∧ t.cmdcnt = s.cmdcnt) ∧
      (s.status.err = true → t.status = s.status)

/-- R185: with `SKIPBLK` set or clear, a `DECBLK` that ends leaves the same Block, counts, result, accumulator, fault
record, counter, responses and stream position; with it set it makes no transform and no memory request. -/
def Obligations.SkipChangesOnlyReconstruction : Prop :=
  ∀ (s t u : State) (tt : BitVec 3) (ns f o : Bool) (n : BitVec 3), s.grants = none →
    exec (.decblk tt ns f true o n) s = .next t → exec (.decblk tt ns f false o n) s = .next u →
    t.phase = .idle → u.phase = .idle →
    t.blk = u.blk ∧ t.placed = u.placed ∧ t.result = u.result ∧ t.ttacc = u.ttacc ∧ t.status = u.status ∧
      t.cmdcnt = u.cmdcnt ∧ t.responses = u.responses ∧ t.stream = u.stream ∧ t.mem = s.mem ∧
      (∃ log, t.requests = s.requests ++ log ∧ ∀ r ∈ log, (∃ cls reg, r = .symRead cls reg) ∨
        r = .coefNext s.ctx.codingset)

/-- R115, R119, R120, R266: the requests of a `DECBLK`, whatever the agents answer: at most two symbol reads, which
come first; then at most 68 coefficient requests, 4 transform requests, 64 byte reads and 64 byte writes; and the
stream has moved past exactly one code for each symbol and each coefficient (the model's view of the stream, log 9). -/
def Obligations.RequestBudget : Prop :=
  ∀ (s t : State) (tt : BitVec 3) (ns f k o : Bool) (n : BitVec 3),
    exec (.decblk tt ns f k o n) s = .next t →
    ∃ syms others, t.requests = s.requests ++ syms ++ others ∧ syms.length ≤ 2 ∧
      (∀ r ∈ syms, ∃ cls, r = Request.symRead cls s.ctx.regime) ∧
      (∀ r ∈ others, ∀ cls reg, r ≠ Request.symRead cls reg) ∧
      others.countP (fun r => match r with | .coefNext _ => true | _ => false) ≤ 68 ∧
      others.countP (fun r => match r with | .itxCall _ _ _ => true | _ => false) ≤ 4 ∧
      others.countP (fun r => match r with | .memRead _ => true | _ => false) ≤ 64 ∧
      others.countP (fun r => match r with | .memWrite _ _ => true | _ => false) ≤ 64 ∧
      t.stream = s.stream.drop
        (syms.length + others.countP (fun r => match r with | .coefNext _ => true | _ => false))

/-- R266, R252: while the agents are silent a `DECBLK` in progress stays in its phase with its request outstanding,
step after step, puts out no response and takes no command; only reset ends the wait. (A wait is a next state: log 8.) -/
def Obligations.SilentAgentStalls : Prop :=
  ∀ (s : State), s.grants = some 0 → s.resetPin = false → (∀ a, s.areaAt a ≠ some .device) →
    (s.phase = .pull ∨ s.phase = .recon) →
    ∃ t r, step s = .next t ∧ step t = .next t ∧ t = { s with outstanding := some r }

/-- R213, R266: waiting changes nothing. A `DECBLK` whose agents fell silent after any number of requests, and
then answer again, does exactly what it would have done had they answered throughout (the form of the wait is the
model's, log 8). -/
def Obligations.StalledDecblkResumes : Prop :=
  ∀ (s t : State) (granted : Nat) (tt : BitVec 3) (ns f k o : Bool) (n : BitVec 3), s.resetPin = false →
    exec (.decblk tt ns f k o n) { s with grants := some granted } = .next t → t.phase ≠ .idle →
    step { t with grants := none } = exec (.decblk tt ns f k o n) { s with grants := none }

/-! ## Invariants -/

/-- Every step keeps the invariant of the registers and the plane. For the reset step, the clauses on `WSHAPE` and
`WSUBPAT` rest on the 0 that the model gives these registers there (DESIGN CHOICE, log 4). -/
def Obligations.StepKeepsInv : Prop :=
  ∀ s t : State, s.Inv → step s = .next t → t.Inv

/-- Every step keeps the invariant of the Block and the counts. -/
def Obligations.StepKeepsBlockInv : Prop :=
  ∀ s t : State, s.Inv → s.BlockInv → step s = .next t → t.BlockInv

/-- The state after reset meets both invariants; for `WSHAPE` and `WSUBPAT` by the model's choice (log 4). -/
def Obligations.ResetMeetsInvariants : Prop := State.reset.Inv ∧ State.reset.BlockInv

/-- Every state that steps and moves of the environment can reach from reset meets both invariants. Right after a reset,
`WSHAPE` and `WSUBPAT` are in range by the model's choice of 0 (DESIGN CHOICE, log 4); that the environment moves between
steps is the model's form (log 15). -/
def Obligations.ReachableMeetsInvariants : Prop := ∀ s : State, Reachable s → s.Inv ∧ s.BlockInv
end

