-- ==== Sys2Proof/Laws/State.lean ====
section
/-! SUPPORT. What each named update of the state does to each field, true by `rfl`, so that no proof unfolds a record
update; and what taking a fault and moving along the sub-block loop leave alone. -/

namespace Sys2Proof.Machine

open Sys2Proof


/-! ### `setByte` -/

@[simp] theorem State.setByte_qctx (s : State) (a : Addr) (b : Byte) : (s.setByte a b).qctx = s.qctx := rfl
@[simp] theorem State.setByte_ctx (s : State) (a : Addr) (b : Byte) : (s.setByte a b).ctx = s.ctx := rfl
@[simp] theorem State.setByte_dstbase (s : State) (a : Addr) (b : Byte) : (s.setByte a b).dstbase = s.dstbase := rfl
@[simp] theorem State.setByte_dststride (s : State) (a : Addr) (b : Byte) :
    (s.setByte a b).dststride = s.dststride := rfl
@[simp] theorem State.setByte_cfgv (s : State) (a : Addr) (b : Byte) : (s.setByte a b).cfgv = s.cfgv := rfl
@[simp] theorem State.setByte_ttacc (s : State) (a : Addr) (b : Byte) : (s.setByte a b).ttacc = s.ttacc := rfl
@[simp] theorem State.setByte_result (s : State) (a : Addr) (b : Byte) : (s.setByte a b).result = s.result := rfl
@[simp] theorem State.setByte_placed (s : State) (a : Addr) (b : Byte) : (s.setByte a b).placed = s.placed := rfl
@[simp] theorem State.setByte_status (s : State) (a : Addr) (b : Byte) : (s.setByte a b).status = s.status := rfl
@[simp] theorem State.setByte_cmdcnt (s : State) (a : Addr) (b : Byte) : (s.setByte a b).cmdcnt = s.cmdcnt := rfl
@[simp] theorem State.setByte_blk (s : State) (a : Addr) (b : Byte) : (s.setByte a b).blk = s.blk := rfl
@[simp] theorem State.setByte_work (s : State) (a : Addr) (b : Byte) : (s.setByte a b).work = s.work := rfl
@[simp] theorem State.setByte_phase (s : State) (a : Addr) (b : Byte) : (s.setByte a b).phase = s.phase := rfl
@[simp] theorem State.setByte_cont (s : State) (a : Addr) (b : Byte) : (s.setByte a b).cont = s.cont := rfl
@[simp] theorem State.setByte_blkDefined (s : State) (a : Addr) (b : Byte) :
    (s.setByte a b).blkDefined = s.blkDefined := rfl
@[simp] theorem State.setByte_draws (s : State) (a : Addr) (b : Byte) : (s.setByte a b).draws = s.draws := rfl
@[simp] theorem State.setByte_outstanding (s : State) (a : Addr) (b : Byte) :
    (s.setByte a b).outstanding = s.outstanding := rfl
@[simp] theorem State.setByte_cmds (s : State) (a : Addr) (b : Byte) : (s.setByte a b).cmds = s.cmds := rfl
@[simp] theorem State.setByte_resetPin (s : State) (a : Addr) (b : Byte) :
    (s.setByte a b).resetPin = s.resetPin := rfl
@[simp] theorem State.setByte_stream (s : State) (a : Addr) (b : Byte) : (s.setByte a b).stream = s.stream := rfl
@[simp] theorem State.setByte_grants (s : State) (a : Addr) (b : Byte) : (s.setByte a b).grants = s.grants := rfl
@[simp] theorem State.setByte_mem (s : State) (a : Addr) (b : Byte) :
    (s.setByte a b).mem = Memory.write s.mem a.toNat b := rfl
@[simp] theorem State.setByte_platform (s : State) (a : Addr) (b : Byte) :
    (s.setByte a b).platform = s.platform := rfl
@[simp] theorem State.setByte_responses (s : State) (a : Addr) (b : Byte) :
    (s.setByte a b).responses = s.responses := rfl
@[simp] theorem State.setByte_requests (s : State) (a : Addr) (b : Byte) :
    (s.setByte a b).requests = s.requests := rfl

/-! ### `setCell` -/

@[simp] theorem State.setCell_qctx (s : State) (c : Nat) (v : Sample) : (s.setCell c v).qctx = s.qctx := rfl
@[simp] theorem State.setCell_ctx (s : State) (c : Nat) (v : Sample) : (s.setCell c v).ctx = s.ctx := rfl
@[simp] theorem State.setCell_dstbase (s : State) (c : Nat) (v : Sample) : (s.setCell c v).dstbase = s.dstbase := rfl
@[simp] theorem State.setCell_dststride (s : State) (c : Nat) (v : Sample) :
    (s.setCell c v).dststride = s.dststride := rfl
@[simp] theorem State.setCell_cfgv (s : State) (c : Nat) (v : Sample) : (s.setCell c v).cfgv = s.cfgv := rfl
@[simp] theorem State.setCell_ttacc (s : State) (c : Nat) (v : Sample) : (s.setCell c v).ttacc = s.ttacc := rfl
@[simp] theorem State.setCell_result (s : State) (c : Nat) (v : Sample) : (s.setCell c v).result = s.result := rfl
@[simp] theorem State.setCell_placed (s : State) (c : Nat) (v : Sample) : (s.setCell c v).placed = s.placed := rfl
@[simp] theorem State.setCell_status (s : State) (c : Nat) (v : Sample) : (s.setCell c v).status = s.status := rfl
@[simp] theorem State.setCell_cmdcnt (s : State) (c : Nat) (v : Sample) : (s.setCell c v).cmdcnt = s.cmdcnt := rfl
@[simp] theorem State.setCell_blk (s : State) (c : Nat) (v : Sample) :
    (s.setCell c v).blk = s.blk.setIfInBounds c v := rfl
@[simp] theorem State.setCell_work (s : State) (c : Nat) (v : Sample) : (s.setCell c v).work = s.work := rfl
@[simp] theorem State.setCell_phase (s : State) (c : Nat) (v : Sample) : (s.setCell c v).phase = s.phase := rfl
@[simp] theorem State.setCell_cont (s : State) (c : Nat) (v : Sample) : (s.setCell c v).cont = s.cont := rfl
@[simp] theorem State.setCell_blkDefined (s : State) (c : Nat) (v : Sample) :
    (s.setCell c v).blkDefined = s.blkDefined := rfl
@[simp] theorem State.setCell_draws (s : State) (c : Nat) (v : Sample) : (s.setCell c v).draws = s.draws := rfl
@[simp] theorem State.setCell_outstanding (s : State) (c : Nat) (v : Sample) :
    (s.setCell c v).outstanding = s.outstanding := rfl
@[simp] theorem State.setCell_cmds (s : State) (c : Nat) (v : Sample) : (s.setCell c v).cmds = s.cmds := rfl
@[simp] theorem State.setCell_resetPin (s : State) (c : Nat) (v : Sample) :
    (s.setCell c v).resetPin = s.resetPin := rfl
@[simp] theorem State.setCell_stream (s : State) (c : Nat) (v : Sample) : (s.setCell c v).stream = s.stream := rfl
@[simp] theorem State.setCell_grants (s : State) (c : Nat) (v : Sample) : (s.setCell c v).grants = s.grants := rfl
@[simp] theorem State.setCell_mem (s : State) (c : Nat) (v : Sample) : (s.setCell c v).mem = s.mem := rfl
@[simp] theorem State.setCell_platform (s : State) (c : Nat) (v : Sample) :
    (s.setCell c v).platform = s.platform := rfl
@[simp] theorem State.setCell_responses (s : State) (c : Nat) (v : Sample) :
    (s.setCell c v).responses = s.responses := rfl
@[simp] theorem State.setCell_requests (s : State) (c : Nat) (v : Sample) :
    (s.setCell c v).requests = s.requests := rfl

/-! ### `setPlaced` -/

@[simp] theorem State.setPlaced_qctx (s : State) (k : Nat) (n : BitVec 7) : (s.setPlaced k n).qctx = s.qctx := rfl
@[simp] theorem State.setPlaced_ctx (s : State) (k : Nat) (n : BitVec 7) : (s.setPlaced k n).ctx = s.ctx := rfl
@[simp] theorem State.setPlaced_dstbase (s : State) (k : Nat) (n : BitVec 7) :
    (s.setPlaced k n).dstbase = s.dstbase := rfl
@[simp] theorem State.setPlaced_dststride (s : State) (k : Nat) (n : BitVec 7) :
    (s.setPlaced k n).dststride = s.dststride := rfl
@[simp] theorem State.setPlaced_cfgv (s : State) (k : Nat) (n : BitVec 7) : (s.setPlaced k n).cfgv = s.cfgv := rfl
@[simp] theorem State.setPlaced_ttacc (s : State) (k : Nat) (n : BitVec 7) : (s.setPlaced k n).ttacc = s.ttacc := rfl
@[simp] theorem State.setPlaced_result (s : State) (k : Nat) (n : BitVec 7) :
    (s.setPlaced k n).result = s.result := rfl
@[simp] theorem State.setPlaced_placed (s : State) (k : Nat) (n : BitVec 7) :
    (s.setPlaced k n).placed = s.placed.setIfInBounds k n := rfl
@[simp] theorem State.setPlaced_status (s : State) (k : Nat) (n : BitVec 7) :
    (s.setPlaced k n).status = s.status := rfl
@[simp] theorem State.setPlaced_cmdcnt (s : State) (k : Nat) (n : BitVec 7) :
    (s.setPlaced k n).cmdcnt = s.cmdcnt := rfl
@[simp] theorem State.setPlaced_blk (s : State) (k : Nat) (n : BitVec 7) : (s.setPlaced k n).blk = s.blk := rfl
@[simp] theorem State.setPlaced_work (s : State) (k : Nat) (n : BitVec 7) : (s.setPlaced k n).work = s.work := rfl
@[simp] theorem State.setPlaced_phase (s : State) (k : Nat) (n : BitVec 7) : (s.setPlaced k n).phase = s.phase := rfl
@[simp] theorem State.setPlaced_cont (s : State) (k : Nat) (n : BitVec 7) : (s.setPlaced k n).cont = s.cont := rfl
@[simp] theorem State.setPlaced_blkDefined (s : State) (k : Nat) (n : BitVec 7) :
    (s.setPlaced k n).blkDefined = s.blkDefined := rfl
@[simp] theorem State.setPlaced_draws (s : State) (k : Nat) (n : BitVec 7) : (s.setPlaced k n).draws = s.draws := rfl
@[simp] theorem State.setPlaced_outstanding (s : State) (k : Nat) (n : BitVec 7) :
    (s.setPlaced k n).outstanding = s.outstanding := rfl
@[simp] theorem State.setPlaced_cmds (s : State) (k : Nat) (n : BitVec 7) : (s.setPlaced k n).cmds = s.cmds := rfl
@[simp] theorem State.setPlaced_resetPin (s : State) (k : Nat) (n : BitVec 7) :
    (s.setPlaced k n).resetPin = s.resetPin := rfl
@[simp] theorem State.setPlaced_stream (s : State) (k : Nat) (n : BitVec 7) :
    (s.setPlaced k n).stream = s.stream := rfl
@[simp] theorem State.setPlaced_grants (s : State) (k : Nat) (n : BitVec 7) :
    (s.setPlaced k n).grants = s.grants := rfl
@[simp] theorem State.setPlaced_mem (s : State) (k : Nat) (n : BitVec 7) : (s.setPlaced k n).mem = s.mem := rfl
@[simp] theorem State.setPlaced_platform (s : State) (k : Nat) (n : BitVec 7) :
    (s.setPlaced k n).platform = s.platform := rfl
@[simp] theorem State.setPlaced_responses (s : State) (k : Nat) (n : BitVec 7) :
    (s.setPlaced k n).responses = s.responses := rfl
@[simp] theorem State.setPlaced_requests (s : State) (k : Nat) (n : BitVec 7) :
    (s.setPlaced k n).requests = s.requests := rfl

/-! ### `clearBlock` -/

@[simp] theorem State.clearBlock_qctx (s : State) : (s.clearBlock).qctx = s.qctx := rfl
@[simp] theorem State.clearBlock_ctx (s : State) : (s.clearBlock).ctx = s.ctx := rfl
@[simp] theorem State.clearBlock_dstbase (s : State) : (s.clearBlock).dstbase = s.dstbase := rfl
@[simp] theorem State.clearBlock_dststride (s : State) : (s.clearBlock).dststride = s.dststride := rfl
@[simp] theorem State.clearBlock_cfgv (s : State) : (s.clearBlock).cfgv = s.cfgv := rfl
@[simp] theorem State.clearBlock_ttacc (s : State) : (s.clearBlock).ttacc = s.ttacc := rfl
@[simp] theorem State.clearBlock_result (s : State) :
    (s.clearBlock).result = { valid := false, subpat := 0, shape := 0, pat := 0 } := rfl
@[simp] theorem State.clearBlock_placed (s : State) : (s.clearBlock).placed = Vector.replicate 4 0 := rfl
@[simp] theorem State.clearBlock_status (s : State) : (s.clearBlock).status = s.status := rfl
@[simp] theorem State.clearBlock_cmdcnt (s : State) : (s.clearBlock).cmdcnt = s.cmdcnt := rfl
@[simp] theorem State.clearBlock_blk (s : State) : (s.clearBlock).blk = Vector.replicate 64 0 := rfl
@[simp] theorem State.clearBlock_work (s : State) : (s.clearBlock).work = s.work := rfl
@[simp] theorem State.clearBlock_phase (s : State) : (s.clearBlock).phase = s.phase := rfl
@[simp] theorem State.clearBlock_cont (s : State) : (s.clearBlock).cont = s.cont := rfl
@[simp] theorem State.clearBlock_blkDefined (s : State) : (s.clearBlock).blkDefined = true := rfl
@[simp] theorem State.clearBlock_draws (s : State) : (s.clearBlock).draws = s.draws := rfl
@[simp] theorem State.clearBlock_outstanding (s : State) : (s.clearBlock).outstanding = s.outstanding := rfl
@[simp] theorem State.clearBlock_cmds (s : State) : (s.clearBlock).cmds = s.cmds := rfl
@[simp] theorem State.clearBlock_resetPin (s : State) : (s.clearBlock).resetPin = s.resetPin := rfl
@[simp] theorem State.clearBlock_stream (s : State) : (s.clearBlock).stream = s.stream := rfl
@[simp] theorem State.clearBlock_grants (s : State) : (s.clearBlock).grants = s.grants := rfl
@[simp] theorem State.clearBlock_mem (s : State) : (s.clearBlock).mem = s.mem := rfl
@[simp] theorem State.clearBlock_platform (s : State) : (s.clearBlock).platform = s.platform := rfl
@[simp] theorem State.clearBlock_responses (s : State) : (s.clearBlock).responses = s.responses := rfl
@[simp] theorem State.clearBlock_requests (s : State) : (s.clearBlock).requests = s.requests := rfl

/-! ### `setCfgv` -/

@[simp] theorem State.setCfgv_qctx (s : State) (b : Nat) : (s.setCfgv b).qctx = s.qctx := rfl
@[simp] theorem State.setCfgv_ctx (s : State) (b : Nat) : (s.setCfgv b).ctx = s.ctx := rfl
@[simp] theorem State.setCfgv_dstbase (s : State) (b : Nat) : (s.setCfgv b).dstbase = s.dstbase := rfl
@[simp] theorem State.setCfgv_dststride (s : State) (b : Nat) : (s.setCfgv b).dststride = s.dststride := rfl
@[simp] theorem State.setCfgv_cfgv (s : State) (b : Nat) : (s.setCfgv b).cfgv = s.cfgv ||| (1#4 <<< b) := rfl
@[simp] theorem State.setCfgv_ttacc (s : State) (b : Nat) : (s.setCfgv b).ttacc = s.ttacc := rfl
@[simp] theorem State.setCfgv_result (s : State) (b : Nat) : (s.setCfgv b).result = s.result := rfl
@[simp] theorem State.setCfgv_placed (s : State) (b : Nat) : (s.setCfgv b).placed = s.placed := rfl
@[simp] theorem State.setCfgv_status (s : State) (b : Nat) : (s.setCfgv b).status = s.status := rfl
@[simp] theorem State.setCfgv_cmdcnt (s : State) (b : Nat) : (s.setCfgv b).cmdcnt = s.cmdcnt := rfl
@[simp] theorem State.setCfgv_blk (s : State) (b : Nat) : (s.setCfgv b).blk = s.blk := rfl
@[simp] theorem State.setCfgv_work (s : State) (b : Nat) : (s.setCfgv b).work = s.work := rfl
@[simp] theorem State.setCfgv_phase (s : State) (b : Nat) : (s.setCfgv b).phase = s.phase := rfl
@[simp] theorem State.setCfgv_cont (s : State) (b : Nat) : (s.setCfgv b).cont = s.cont := rfl
@[simp] theorem State.setCfgv_blkDefined (s : State) (b : Nat) : (s.setCfgv b).blkDefined = s.blkDefined := rfl
@[simp] theorem State.setCfgv_draws (s : State) (b : Nat) : (s.setCfgv b).draws = s.draws := rfl
@[simp] theorem State.setCfgv_outstanding (s : State) (b : Nat) : (s.setCfgv b).outstanding = s.outstanding := rfl
@[simp] theorem State.setCfgv_cmds (s : State) (b : Nat) : (s.setCfgv b).cmds = s.cmds := rfl
@[simp] theorem State.setCfgv_resetPin (s : State) (b : Nat) : (s.setCfgv b).resetPin = s.resetPin := rfl
@[simp] theorem State.setCfgv_stream (s : State) (b : Nat) : (s.setCfgv b).stream = s.stream := rfl
@[simp] theorem State.setCfgv_grants (s : State) (b : Nat) : (s.setCfgv b).grants = s.grants := rfl
@[simp] theorem State.setCfgv_mem (s : State) (b : Nat) : (s.setCfgv b).mem = s.mem := rfl
@[simp] theorem State.setCfgv_platform (s : State) (b : Nat) : (s.setCfgv b).platform = s.platform := rfl
@[simp] theorem State.setCfgv_responses (s : State) (b : Nat) : (s.setCfgv b).responses = s.responses := rfl
@[simp] theorem State.setCfgv_requests (s : State) (b : Nat) : (s.setCfgv b).requests = s.requests := rfl

/-! ### `respond` -/

@[simp] theorem State.respond_qctx (s : State) (st : StatusCode) (d : Word) : (s.respond st d).qctx = s.qctx := rfl
@[simp] theorem State.respond_ctx (s : State) (st : StatusCode) (d : Word) : (s.respond st d).ctx = s.ctx := rfl
@[simp] theorem State.respond_dstbase (s : State) (st : StatusCode) (d : Word) :
    (s.respond st d).dstbase = s.dstbase := rfl
@[simp] theorem State.respond_dststride (s : State) (st : StatusCode) (d : Word) :
    (s.respond st d).dststride = s.dststride := rfl
@[simp] theorem State.respond_cfgv (s : State) (st : StatusCode) (d : Word) : (s.respond st d).cfgv = s.cfgv := rfl
@[simp] theorem State.respond_ttacc (s : State) (st : StatusCode) (d : Word) : (s.respond st d).ttacc = s.ttacc := rfl
@[simp] theorem State.respond_result (s : State) (st : StatusCode) (d : Word) :
    (s.respond st d).result = s.result := rfl
@[simp] theorem State.respond_placed (s : State) (st : StatusCode) (d : Word) :
    (s.respond st d).placed = s.placed := rfl
@[simp] theorem State.respond_status (s : State) (st : StatusCode) (d : Word) :
    (s.respond st d).status = s.status := rfl
@[simp] theorem State.respond_cmdcnt (s : State) (st : StatusCode) (d : Word) :
    (s.respond st d).cmdcnt = (if st = .ok then s.cmdcnt + 1 else s.cmdcnt) := rfl
@[simp] theorem State.respond_blk (s : State) (st : StatusCode) (d : Word) : (s.respond st d).blk = s.blk := rfl
@[simp] theorem State.respond_work (s : State) (st : StatusCode) (d : Word) : (s.respond st d).work = s.work := rfl
@[simp] theorem State.respond_phase (s : State) (st : StatusCode) (d : Word) : (s.respond st d).phase = .idle := rfl
@[simp] theorem State.respond_cont (s : State) (st : StatusCode) (d : Word) : (s.respond st d).cont = s.cont := rfl
@[simp] theorem State.respond_blkDefined (s : State) (st : StatusCode) (d : Word) :
    (s.respond st d).blkDefined = s.blkDefined := rfl
@[simp] theorem State.respond_draws (s : State) (st : StatusCode) (d : Word) : (s.respond st d).draws = s.draws := rfl
@[simp] theorem State.respond_outstanding (s : State) (st : StatusCode) (d : Word) :
    (s.respond st d).outstanding = s.outstanding := rfl
@[simp] theorem State.respond_cmds (s : State) (st : StatusCode) (d : Word) : (s.respond st d).cmds = s.cmds := rfl
@[simp] theorem State.respond_resetPin (s : State) (st : StatusCode) (d : Word) :
    (s.respond st d).resetPin = s.resetPin := rfl
@[simp] theorem State.respond_stream (s : State) (st : StatusCode) (d : Word) :
    (s.respond st d).stream = s.stream := rfl
@[simp] theorem State.respond_grants (s : State) (st : StatusCode) (d : Word) :
    (s.respond st d).grants = s.grants := rfl
@[simp] theorem State.respond_mem (s : State) (st : StatusCode) (d : Word) : (s.respond st d).mem = s.mem := rfl
@[simp] theorem State.respond_platform (s : State) (st : StatusCode) (d : Word) :
    (s.respond st d).platform = s.platform := rfl
@[simp] theorem State.respond_responses (s : State) (st : StatusCode) (d : Word) :
    (s.respond st d).responses = s.responses ++ [st.bits ++ d] := rfl
@[simp] theorem State.respond_requests (s : State) (st : StatusCode) (d : Word) :
    (s.respond st d).requests = s.requests := rfl

/-! ### `clearFault` -/

@[simp] theorem State.clearFault_qctx (s : State) : (s.clearFault).qctx = s.qctx := rfl
@[simp] theorem State.clearFault_ctx (s : State) : (s.clearFault).ctx = s.ctx := rfl
@[simp] theorem State.clearFault_dstbase (s : State) : (s.clearFault).dstbase = s.dstbase := rfl
@[simp] theorem State.clearFault_dststride (s : State) : (s.clearFault).dststride = s.dststride := rfl
@[simp] theorem State.clearFault_cfgv (s : State) : (s.clearFault).cfgv = s.cfgv := rfl
@[simp] theorem State.clearFault_ttacc (s : State) : (s.clearFault).ttacc = s.ttacc := rfl
@[simp] theorem State.clearFault_result (s : State) : (s.clearFault).result = s.result := rfl
@[simp] theorem State.clearFault_placed (s : State) : (s.clearFault).placed = s.placed := rfl
@[simp] theorem State.clearFault_status (s : State) :
    (s.clearFault).status = { err := false, errcode := 0, errsub := 0 } := rfl
@[simp] theorem State.clearFault_cmdcnt (s : State) : (s.clearFault).cmdcnt = s.cmdcnt := rfl
@[simp] theorem State.clearFault_blk (s : State) : (s.clearFault).blk = s.blk := rfl
@[simp] theorem State.clearFault_work (s : State) : (s.clearFault).work = s.work := rfl
@[simp] theorem State.clearFault_phase (s : State) : (s.clearFault).phase = s.phase := rfl
@[simp] theorem State.clearFault_cont (s : State) : (s.clearFault).cont = s.cont := rfl
@[simp] theorem State.clearFault_blkDefined (s : State) : (s.clearFault).blkDefined = s.blkDefined := rfl
@[simp] theorem State.clearFault_draws (s : State) : (s.clearFault).draws = s.draws := rfl
@[simp] theorem State.clearFault_outstanding (s : State) : (s.clearFault).outstanding = s.outstanding := rfl
@[simp] theorem State.clearFault_cmds (s : State) : (s.clearFault).cmds = s.cmds := rfl
@[simp] theorem State.clearFault_resetPin (s : State) : (s.clearFault).resetPin = s.resetPin := rfl
@[simp] theorem State.clearFault_stream (s : State) : (s.clearFault).stream = s.stream := rfl
@[simp] theorem State.clearFault_grants (s : State) : (s.clearFault).grants = s.grants := rfl
@[simp] theorem State.clearFault_mem (s : State) : (s.clearFault).mem = s.mem := rfl
@[simp] theorem State.clearFault_platform (s : State) : (s.clearFault).platform = s.platform := rfl
@[simp] theorem State.clearFault_responses (s : State) : (s.clearFault).responses = s.responses := rfl
@[simp] theorem State.clearFault_requests (s : State) : (s.clearFault).requests = s.requests := rfl

/-! ### `await` -/

@[simp] theorem State.await_qctx (s : State) (r : Request) : (s.await r).qctx = s.qctx := rfl
@[simp] theorem State.await_ctx (s : State) (r : Request) : (s.await r).ctx = s.ctx := rfl
@[simp] theorem State.await_dstbase (s : State) (r : Request) : (s.await r).dstbase = s.dstbase := rfl
@[simp] theorem State.await_dststride (s : State) (r : Request) : (s.await r).dststride = s.dststride := rfl
@[simp] theorem State.await_cfgv (s : State) (r : Request) : (s.await r).cfgv = s.cfgv := rfl
@[simp] theorem State.await_ttacc (s : State) (r : Request) : (s.await r).ttacc = s.ttacc := rfl
@[simp] theorem State.await_result (s : State) (r : Request) : (s.await r).result = s.result := rfl
@[simp] theorem State.await_placed (s : State) (r : Request) : (s.await r).placed = s.placed := rfl
@[simp] theorem State.await_status (s : State) (r : Request) : (s.await r).status = s.status := rfl
@[simp] theorem State.await_cmdcnt (s : State) (r : Request) : (s.await r).cmdcnt = s.cmdcnt := rfl
@[simp] theorem State.await_blk (s : State) (r : Request) : (s.await r).blk = s.blk := rfl
@[simp] theorem State.await_work (s : State) (r : Request) : (s.await r).work = s.work := rfl
@[simp] theorem State.await_phase (s : State) (r : Request) : (s.await r).phase = s.phase := rfl
@[simp] theorem State.await_cont (s : State) (r : Request) : (s.await r).cont = s.cont := rfl
@[simp] theorem State.await_blkDefined (s : State) (r : Request) : (s.await r).blkDefined = s.blkDefined := rfl
@[simp] theorem State.await_draws (s : State) (r : Request) : (s.await r).draws = s.draws := rfl
@[simp] theorem State.await_outstanding (s : State) (r : Request) : (s.await r).outstanding = some r := rfl
@[simp] theorem State.await_cmds (s : State) (r : Request) : (s.await r).cmds = s.cmds := rfl
@[simp] theorem State.await_resetPin (s : State) (r : Request) : (s.await r).resetPin = s.resetPin := rfl
@[simp] theorem State.await_stream (s : State) (r : Request) : (s.await r).stream = s.stream := rfl
@[simp] theorem State.await_grants (s : State) (r : Request) : (s.await r).grants = s.grants := rfl
@[simp] theorem State.await_mem (s : State) (r : Request) : (s.await r).mem = s.mem := rfl
@[simp] theorem State.await_platform (s : State) (r : Request) : (s.await r).platform = s.platform := rfl
@[simp] theorem State.await_responses (s : State) (r : Request) : (s.await r).responses = s.responses := rfl
@[simp] theorem State.await_requests (s : State) (r : Request) : (s.await r).requests = s.requests := rfl

/-! ### `answered` -/

@[simp] theorem State.answered_qctx (s : State) (r : Request) : (s.answered r).qctx = s.qctx := rfl
@[simp] theorem State.answered_ctx (s : State) (r : Request) : (s.answered r).ctx = s.ctx := rfl
@[simp] theorem State.answered_dstbase (s : State) (r : Request) : (s.answered r).dstbase = s.dstbase := rfl
@[simp] theorem State.answered_dststride (s : State) (r : Request) : (s.answered r).dststride = s.dststride := rfl
@[simp] theorem State.answered_cfgv (s : State) (r : Request) : (s.answered r).cfgv = s.cfgv := rfl
@[simp] theorem State.answered_ttacc (s : State) (r : Request) : (s.answered r).ttacc = s.ttacc := rfl
@[simp] theorem State.answered_result (s : State) (r : Request) : (s.answered r).result = s.result := rfl
@[simp] theorem State.answered_placed (s : State) (r : Request) : (s.answered r).placed = s.placed := rfl
@[simp] theorem State.answered_status (s : State) (r : Request) : (s.answered r).status = s.status := rfl
@[simp] theorem State.answered_cmdcnt (s : State) (r : Request) : (s.answered r).cmdcnt = s.cmdcnt := rfl
@[simp] theorem State.answered_blk (s : State) (r : Request) : (s.answered r).blk = s.blk := rfl
@[simp] theorem State.answered_work (s : State) (r : Request) : (s.answered r).work = s.work := rfl
@[simp] theorem State.answered_phase (s : State) (r : Request) : (s.answered r).phase = s.phase := rfl
@[simp] theorem State.answered_cont (s : State) (r : Request) : (s.answered r).cont = s.cont := rfl
@[simp] theorem State.answered_blkDefined (s : State) (r : Request) : (s.answered r).blkDefined = s.blkDefined := rfl
@[simp] theorem State.answered_draws (s : State) (r : Request) : (s.answered r).draws = s.draws := rfl
@[simp] theorem State.answered_outstanding (s : State) (r : Request) : (s.answered r).outstanding = none := rfl
@[simp] theorem State.answered_cmds (s : State) (r : Request) : (s.answered r).cmds = s.cmds := rfl
@[simp] theorem State.answered_resetPin (s : State) (r : Request) : (s.answered r).resetPin = s.resetPin := rfl
@[simp] theorem State.answered_stream (s : State) (r : Request) : (s.answered r).stream = s.stream := rfl
@[simp] theorem State.answered_grants (s : State) (r : Request) :
    (s.answered r).grants = s.grants.map (fun n => n - 1) := rfl
@[simp] theorem State.answered_mem (s : State) (r : Request) : (s.answered r).mem = s.mem := rfl
@[simp] theorem State.answered_platform (s : State) (r : Request) : (s.answered r).platform = s.platform := rfl
@[simp] theorem State.answered_responses (s : State) (r : Request) : (s.answered r).responses = s.responses := rfl
@[simp] theorem State.answered_requests (s : State) (r : Request) : (s.answered r).requests = s.requests ++ [r] := rfl

/-! ### `accept` -/

@[simp] theorem State.accept_qctx (s : State) (rest : List Command) : (s.accept rest).qctx = s.qctx := rfl
@[simp] theorem State.accept_ctx (s : State) (rest : List Command) : (s.accept rest).ctx = s.ctx := rfl
@[simp] theorem State.accept_dstbase (s : State) (rest : List Command) : (s.accept rest).dstbase = s.dstbase := rfl
@[simp] theorem State.accept_dststride (s : State) (rest : List Command) :
    (s.accept rest).dststride = s.dststride := rfl
@[simp] theorem State.accept_cfgv (s : State) (rest : List Command) : (s.accept rest).cfgv = s.cfgv := rfl
@[simp] theorem State.accept_ttacc (s : State) (rest : List Command) : (s.accept rest).ttacc = s.ttacc := rfl
@[simp] theorem State.accept_result (s : State) (rest : List Command) : (s.accept rest).result = s.result := rfl
@[simp] theorem State.accept_placed (s : State) (rest : List Command) : (s.accept rest).placed = s.placed := rfl
@[simp] theorem State.accept_status (s : State) (rest : List Command) : (s.accept rest).status = s.status := rfl
@[simp] theorem State.accept_cmdcnt (s : State) (rest : List Command) : (s.accept rest).cmdcnt = s.cmdcnt := rfl
@[simp] theorem State.accept_blk (s : State) (rest : List Command) : (s.accept rest).blk = s.blk := rfl
@[simp] theorem State.accept_work (s : State) (rest : List Command) : (s.accept rest).work = s.work := rfl
@[simp] theorem State.accept_phase (s : State) (rest : List Command) : (s.accept rest).phase = .exec := rfl
@[simp] theorem State.accept_cont (s : State) (rest : List Command) : (s.accept rest).cont = s.cont := rfl
@[simp] theorem State.accept_blkDefined (s : State) (rest : List Command) :
    (s.accept rest).blkDefined = s.blkDefined := rfl
@[simp] theorem State.accept_draws (s : State) (rest : List Command) : (s.accept rest).draws = s.draws := rfl
@[simp] theorem State.accept_outstanding (s : State) (rest : List Command) :
    (s.accept rest).outstanding = s.outstanding := rfl
@[simp] theorem State.accept_cmds (s : State) (rest : List Command) : (s.accept rest).cmds = rest := rfl
@[simp] theorem State.accept_resetPin (s : State) (rest : List Command) : (s.accept rest).resetPin = s.resetPin := rfl
@[simp] theorem State.accept_stream (s : State) (rest : List Command) : (s.accept rest).stream = s.stream := rfl
@[simp] theorem State.accept_grants (s : State) (rest : List Command) : (s.accept rest).grants = s.grants := rfl
@[simp] theorem State.accept_mem (s : State) (rest : List Command) : (s.accept rest).mem = s.mem := rfl
@[simp] theorem State.accept_platform (s : State) (rest : List Command) : (s.accept rest).platform = s.platform := rfl
@[simp] theorem State.accept_responses (s : State) (rest : List Command) :
    (s.accept rest).responses = s.responses := rfl
@[simp] theorem State.accept_requests (s : State) (rest : List Command) : (s.accept rest).requests = s.requests := rfl

/-! ### `setRaw` -/

@[simp] theorem State.setRaw_qctx (s : State) (r : BitVec 3) : (s.setRaw r).qctx = s.qctx := rfl
@[simp] theorem State.setRaw_ctx (s : State) (r : BitVec 3) : (s.setRaw r).ctx = s.ctx := rfl
@[simp] theorem State.setRaw_dstbase (s : State) (r : BitVec 3) : (s.setRaw r).dstbase = s.dstbase := rfl
@[simp] theorem State.setRaw_dststride (s : State) (r : BitVec 3) : (s.setRaw r).dststride = s.dststride := rfl
@[simp] theorem State.setRaw_cfgv (s : State) (r : BitVec 3) : (s.setRaw r).cfgv = s.cfgv := rfl
@[simp] theorem State.setRaw_ttacc (s : State) (r : BitVec 3) : (s.setRaw r).ttacc = s.ttacc := rfl
@[simp] theorem State.setRaw_result (s : State) (r : BitVec 3) : (s.setRaw r).result = s.result := rfl
@[simp] theorem State.setRaw_placed (s : State) (r : BitVec 3) : (s.setRaw r).placed = s.placed := rfl
@[simp] theorem State.setRaw_status (s : State) (r : BitVec 3) : (s.setRaw r).status = s.status := rfl
@[simp] theorem State.setRaw_cmdcnt (s : State) (r : BitVec 3) : (s.setRaw r).cmdcnt = s.cmdcnt := rfl
@[simp] theorem State.setRaw_blk (s : State) (r : BitVec 3) : (s.setRaw r).blk = s.blk := rfl
@[simp] theorem State.setRaw_work (s : State) (r : BitVec 3) : (s.setRaw r).work = { s.work with raw := r } := rfl
@[simp] theorem State.setRaw_phase (s : State) (r : BitVec 3) : (s.setRaw r).phase = s.phase := rfl
@[simp] theorem State.setRaw_cont (s : State) (r : BitVec 3) :
    (s.setRaw r).cont = { s.cont with rawDone := true } := rfl
@[simp] theorem State.setRaw_blkDefined (s : State) (r : BitVec 3) : (s.setRaw r).blkDefined = s.blkDefined := rfl
@[simp] theorem State.setRaw_draws (s : State) (r : BitVec 3) : (s.setRaw r).draws = s.draws := rfl
@[simp] theorem State.setRaw_outstanding (s : State) (r : BitVec 3) : (s.setRaw r).outstanding = s.outstanding := rfl
@[simp] theorem State.setRaw_cmds (s : State) (r : BitVec 3) : (s.setRaw r).cmds = s.cmds := rfl
@[simp] theorem State.setRaw_resetPin (s : State) (r : BitVec 3) : (s.setRaw r).resetPin = s.resetPin := rfl
@[simp] theorem State.setRaw_stream (s : State) (r : BitVec 3) : (s.setRaw r).stream = s.stream := rfl
@[simp] theorem State.setRaw_grants (s : State) (r : BitVec 3) : (s.setRaw r).grants = s.grants := rfl
@[simp] theorem State.setRaw_mem (s : State) (r : BitVec 3) : (s.setRaw r).mem = s.mem := rfl
@[simp] theorem State.setRaw_platform (s : State) (r : BitVec 3) : (s.setRaw r).platform = s.platform := rfl
@[simp] theorem State.setRaw_responses (s : State) (r : BitVec 3) : (s.setRaw r).responses = s.responses := rfl
@[simp] theorem State.setRaw_requests (s : State) (r : BitVec 3) : (s.setRaw r).requests = s.requests := rfl

/-! ### `deriveQuant` -/

@[simp] theorem State.deriveQuant_qctx (s : State) : (s.deriveQuant).qctx = s.qctx := rfl
@[simp] theorem State.deriveQuant_ctx (s : State) : (s.deriveQuant).ctx = s.ctx := rfl
@[simp] theorem State.deriveQuant_dstbase (s : State) : (s.deriveQuant).dstbase = s.dstbase := rfl
@[simp] theorem State.deriveQuant_dststride (s : State) : (s.deriveQuant).dststride = s.dststride := rfl
@[simp] theorem State.deriveQuant_cfgv (s : State) : (s.deriveQuant).cfgv = s.cfgv := rfl
@[simp] theorem State.deriveQuant_ttacc (s : State) : (s.deriveQuant).ttacc = s.ttacc := rfl
@[simp] theorem State.deriveQuant_result (s : State) : (s.deriveQuant).result = s.result := rfl
@[simp] theorem State.deriveQuant_placed (s : State) : (s.deriveQuant).placed = s.placed := rfl
@[simp] theorem State.deriveQuant_status (s : State) : (s.deriveQuant).status = s.status := rfl
@[simp] theorem State.deriveQuant_cmdcnt (s : State) : (s.deriveQuant).cmdcnt = s.cmdcnt := rfl
@[simp] theorem State.deriveQuant_blk (s : State) : (s.deriveQuant).blk = s.blk := rfl
@[simp] theorem State.deriveQuant_work (s : State) :
    (s.deriveQuant).work = { s.work with quant := quantOf s.qctx.mquant, scale := scaleOf s.qctx.mquant s.qctx.halfqp } := rfl
@[simp] theorem State.deriveQuant_phase (s : State) : (s.deriveQuant).phase = s.phase := rfl
@[simp] theorem State.deriveQuant_cont (s : State) : (s.deriveQuant).cont = s.cont := rfl
@[simp] theorem State.deriveQuant_blkDefined (s : State) : (s.deriveQuant).blkDefined = s.blkDefined := rfl
@[simp] theorem State.deriveQuant_draws (s : State) : (s.deriveQuant).draws = s.draws := rfl
@[simp] theorem State.deriveQuant_outstanding (s : State) : (s.deriveQuant).outstanding = s.outstanding := rfl
@[simp] theorem State.deriveQuant_cmds (s : State) : (s.deriveQuant).cmds = s.cmds := rfl
@[simp] theorem State.deriveQuant_resetPin (s : State) : (s.deriveQuant).resetPin = s.resetPin := rfl
@[simp] theorem State.deriveQuant_stream (s : State) : (s.deriveQuant).stream = s.stream := rfl
@[simp] theorem State.deriveQuant_grants (s : State) : (s.deriveQuant).grants = s.grants := rfl
@[simp] theorem State.deriveQuant_mem (s : State) : (s.deriveQuant).mem = s.mem := rfl
@[simp] theorem State.deriveQuant_platform (s : State) : (s.deriveQuant).platform = s.platform := rfl
@[simp] theorem State.deriveQuant_responses (s : State) : (s.deriveQuant).responses = s.responses := rfl
@[simp] theorem State.deriveQuant_requests (s : State) : (s.deriveQuant).requests = s.requests := rfl

/-! ### `advance` -/

@[simp] theorem State.advance_qctx (s : State) (a : CoefAnswer) : (s.advance a).qctx = s.qctx := rfl
@[simp] theorem State.advance_ctx (s : State) (a : CoefAnswer) : (s.advance a).ctx = s.ctx := rfl
@[simp] theorem State.advance_dstbase (s : State) (a : CoefAnswer) : (s.advance a).dstbase = s.dstbase := rfl
@[simp] theorem State.advance_dststride (s : State) (a : CoefAnswer) : (s.advance a).dststride = s.dststride := rfl
@[simp] theorem State.advance_cfgv (s : State) (a : CoefAnswer) : (s.advance a).cfgv = s.cfgv := rfl
@[simp] theorem State.advance_ttacc (s : State) (a : CoefAnswer) : (s.advance a).ttacc = s.ttacc := rfl
@[simp] theorem State.advance_result (s : State) (a : CoefAnswer) : (s.advance a).result = s.result := rfl
@[simp] theorem State.advance_placed (s : State) (a : CoefAnswer) : (s.advance a).placed = s.placed := rfl
@[simp] theorem State.advance_status (s : State) (a : CoefAnswer) : (s.advance a).status = s.status := rfl
@[simp] theorem State.advance_cmdcnt (s : State) (a : CoefAnswer) : (s.advance a).cmdcnt = s.cmdcnt := rfl
@[simp] theorem State.advance_blk (s : State) (a : CoefAnswer) : (s.advance a).blk = s.blk := rfl
@[simp] theorem State.advance_work (s : State) (a : CoefAnswer) :
    (s.advance a).work = { s.work with last := a.last, cur := s.work.cur + a.skip.setWidth 33 } := rfl
@[simp] theorem State.advance_phase (s : State) (a : CoefAnswer) : (s.advance a).phase = s.phase := rfl
@[simp] theorem State.advance_cont (s : State) (a : CoefAnswer) : (s.advance a).cont = s.cont := rfl
@[simp] theorem State.advance_blkDefined (s : State) (a : CoefAnswer) : (s.advance a).blkDefined = s.blkDefined := rfl
@[simp] theorem State.advance_draws (s : State) (a : CoefAnswer) : (s.advance a).draws = s.draws := rfl
@[simp] theorem State.advance_outstanding (s : State) (a : CoefAnswer) :
    (s.advance a).outstanding = s.outstanding := rfl
@[simp] theorem State.advance_cmds (s : State) (a : CoefAnswer) : (s.advance a).cmds = s.cmds := rfl
@[simp] theorem State.advance_resetPin (s : State) (a : CoefAnswer) : (s.advance a).resetPin = s.resetPin := rfl
@[simp] theorem State.advance_stream (s : State) (a : CoefAnswer) : (s.advance a).stream = s.stream := rfl
@[simp] theorem State.advance_grants (s : State) (a : CoefAnswer) : (s.advance a).grants = s.grants := rfl
@[simp] theorem State.advance_mem (s : State) (a : CoefAnswer) : (s.advance a).mem = s.mem := rfl
@[simp] theorem State.advance_platform (s : State) (a : CoefAnswer) : (s.advance a).platform = s.platform := rfl
@[simp] theorem State.advance_responses (s : State) (a : CoefAnswer) : (s.advance a).responses = s.responses := rfl
@[simp] theorem State.advance_requests (s : State) (a : CoefAnswer) : (s.advance a).requests = s.requests := rfl

/-! ### `gotCode` -/

@[simp] theorem State.gotCode_qctx (s : State) (r : Request) (rest : List Code) :
    (s.gotCode r rest).qctx = s.qctx := rfl
@[simp] theorem State.gotCode_ctx (s : State) (r : Request) (rest : List Code) : (s.gotCode r rest).ctx = s.ctx := rfl
@[simp] theorem State.gotCode_dstbase (s : State) (r : Request) (rest : List Code) :
    (s.gotCode r rest).dstbase = s.dstbase := rfl
@[simp] theorem State.gotCode_dststride (s : State) (r : Request) (rest : List Code) :
    (s.gotCode r rest).dststride = s.dststride := rfl
@[simp] theorem State.gotCode_cfgv (s : State) (r : Request) (rest : List Code) :
    (s.gotCode r rest).cfgv = s.cfgv := rfl
@[simp] theorem State.gotCode_ttacc (s : State) (r : Request) (rest : List Code) :
    (s.gotCode r rest).ttacc = s.ttacc := rfl
@[simp] theorem State.gotCode_result (s : State) (r : Request) (rest : List Code) :
    (s.gotCode r rest).result = s.result := rfl
@[simp] theorem State.gotCode_placed (s : State) (r : Request) (rest : List Code) :
    (s.gotCode r rest).placed = s.placed := rfl
@[simp] theorem State.gotCode_status (s : State) (r : Request) (rest : List Code) :
    (s.gotCode r rest).status = s.status := rfl
@[simp] theorem State.gotCode_cmdcnt (s : State) (r : Request) (rest : List Code) :
    (s.gotCode r rest).cmdcnt = s.cmdcnt := rfl
@[simp] theorem State.gotCode_blk (s : State) (r : Request) (rest : List Code) : (s.gotCode r rest).blk = s.blk := rfl
@[simp] theorem State.gotCode_work (s : State) (r : Request) (rest : List Code) :
    (s.gotCode r rest).work = s.work := rfl
@[simp] theorem State.gotCode_phase (s : State) (r : Request) (rest : List Code) :
    (s.gotCode r rest).phase = s.phase := rfl
@[simp] theorem State.gotCode_cont (s : State) (r : Request) (rest : List Code) :
    (s.gotCode r rest).cont = s.cont := rfl
@[simp] theorem State.gotCode_blkDefined (s : State) (r : Request) (rest : List Code) :
    (s.gotCode r rest).blkDefined = s.blkDefined := rfl
@[simp] theorem State.gotCode_draws (s : State) (r : Request) (rest : List Code) :
    (s.gotCode r rest).draws = s.draws := rfl
@[simp] theorem State.gotCode_outstanding (s : State) (r : Request) (rest : List Code) :
    (s.gotCode r rest).outstanding = none := rfl
@[simp] theorem State.gotCode_cmds (s : State) (r : Request) (rest : List Code) :
    (s.gotCode r rest).cmds = s.cmds := rfl
@[simp] theorem State.gotCode_resetPin (s : State) (r : Request) (rest : List Code) :
    (s.gotCode r rest).resetPin = s.resetPin := rfl
@[simp] theorem State.gotCode_stream (s : State) (r : Request) (rest : List Code) :
    (s.gotCode r rest).stream = rest := rfl
@[simp] theorem State.gotCode_grants (s : State) (r : Request) (rest : List Code) :
    (s.gotCode r rest).grants = s.grants.map (fun n => n - 1) := rfl
@[simp] theorem State.gotCode_mem (s : State) (r : Request) (rest : List Code) : (s.gotCode r rest).mem = s.mem := rfl
@[simp] theorem State.gotCode_platform (s : State) (r : Request) (rest : List Code) :
    (s.gotCode r rest).platform = s.platform := rfl
@[simp] theorem State.gotCode_responses (s : State) (r : Request) (rest : List Code) :
    (s.gotCode r rest).responses = s.responses := rfl
@[simp] theorem State.gotCode_requests (s : State) (r : Request) (rest : List Code) :
    (s.gotCode r rest).requests = s.requests ++ [r] := rfl

/-! ### `setSub` -/

@[simp] theorem State.setSub_qctx (s : State) (k : Nat) (e : Bool) : (s.setSub k e).qctx = s.qctx := rfl
@[simp] theorem State.setSub_ctx (s : State) (k : Nat) (e : Bool) : (s.setSub k e).ctx = s.ctx := rfl
@[simp] theorem State.setSub_dstbase (s : State) (k : Nat) (e : Bool) : (s.setSub k e).dstbase = s.dstbase := rfl
@[simp] theorem State.setSub_dststride (s : State) (k : Nat) (e : Bool) :
    (s.setSub k e).dststride = s.dststride := rfl
@[simp] theorem State.setSub_cfgv (s : State) (k : Nat) (e : Bool) : (s.setSub k e).cfgv = s.cfgv := rfl
@[simp] theorem State.setSub_ttacc (s : State) (k : Nat) (e : Bool) : (s.setSub k e).ttacc = s.ttacc := rfl
@[simp] theorem State.setSub_result (s : State) (k : Nat) (e : Bool) : (s.setSub k e).result = s.result := rfl
@[simp] theorem State.setSub_placed (s : State) (k : Nat) (e : Bool) : (s.setSub k e).placed = s.placed := rfl
@[simp] theorem State.setSub_status (s : State) (k : Nat) (e : Bool) : (s.setSub k e).status = s.status := rfl
@[simp] theorem State.setSub_cmdcnt (s : State) (k : Nat) (e : Bool) : (s.setSub k e).cmdcnt = s.cmdcnt := rfl
@[simp] theorem State.setSub_blk (s : State) (k : Nat) (e : Bool) : (s.setSub k e).blk = s.blk := rfl
@[simp] theorem State.setSub_work (s : State) (k : Nat) (e : Bool) :
    (s.setSub k e).work = { s.work with k := BitVec.ofNat 2 k, empty := e } := rfl
@[simp] theorem State.setSub_phase (s : State) (k : Nat) (e : Bool) : (s.setSub k e).phase = s.phase := rfl
@[simp] theorem State.setSub_cont (s : State) (k : Nat) (e : Bool) : (s.setSub k e).cont = s.cont := rfl
@[simp] theorem State.setSub_blkDefined (s : State) (k : Nat) (e : Bool) :
    (s.setSub k e).blkDefined = s.blkDefined := rfl
@[simp] theorem State.setSub_draws (s : State) (k : Nat) (e : Bool) : (s.setSub k e).draws = s.draws := rfl
@[simp] theorem State.setSub_outstanding (s : State) (k : Nat) (e : Bool) :
    (s.setSub k e).outstanding = s.outstanding := rfl
@[simp] theorem State.setSub_cmds (s : State) (k : Nat) (e : Bool) : (s.setSub k e).cmds = s.cmds := rfl
@[simp] theorem State.setSub_resetPin (s : State) (k : Nat) (e : Bool) : (s.setSub k e).resetPin = s.resetPin := rfl
@[simp] theorem State.setSub_stream (s : State) (k : Nat) (e : Bool) : (s.setSub k e).stream = s.stream := rfl
@[simp] theorem State.setSub_grants (s : State) (k : Nat) (e : Bool) : (s.setSub k e).grants = s.grants := rfl
@[simp] theorem State.setSub_mem (s : State) (k : Nat) (e : Bool) : (s.setSub k e).mem = s.mem := rfl
@[simp] theorem State.setSub_platform (s : State) (k : Nat) (e : Bool) : (s.setSub k e).platform = s.platform := rfl
@[simp] theorem State.setSub_responses (s : State) (k : Nat) (e : Bool) :
    (s.setSub k e).responses = s.responses := rfl
@[simp] theorem State.setSub_requests (s : State) (k : Nat) (e : Bool) : (s.setSub k e).requests = s.requests := rfl

/-! ### `startPull` -/

@[simp] theorem State.startPull_qctx (s : State) : (s.startPull).qctx = s.qctx := rfl
@[simp] theorem State.startPull_ctx (s : State) : (s.startPull).ctx = s.ctx := rfl
@[simp] theorem State.startPull_dstbase (s : State) : (s.startPull).dstbase = s.dstbase := rfl
@[simp] theorem State.startPull_dststride (s : State) : (s.startPull).dststride = s.dststride := rfl
@[simp] theorem State.startPull_cfgv (s : State) : (s.startPull).cfgv = s.cfgv := rfl
@[simp] theorem State.startPull_ttacc (s : State) : (s.startPull).ttacc = s.ttacc := rfl
@[simp] theorem State.startPull_result (s : State) : (s.startPull).result = s.result := rfl
@[simp] theorem State.startPull_placed (s : State) : (s.startPull).placed = s.placed := rfl
@[simp] theorem State.startPull_status (s : State) : (s.startPull).status = s.status := rfl
@[simp] theorem State.startPull_cmdcnt (s : State) : (s.startPull).cmdcnt = s.cmdcnt := rfl
@[simp] theorem State.startPull_blk (s : State) : (s.startPull).blk = s.blk := rfl
@[simp] theorem State.startPull_work (s : State) : (s.startPull).work = { s.work with cur := 0, cnt := 0 } := rfl
@[simp] theorem State.startPull_phase (s : State) : (s.startPull).phase = .pull := rfl
@[simp] theorem State.startPull_cont (s : State) : (s.startPull).cont = s.cont := rfl
@[simp] theorem State.startPull_blkDefined (s : State) : (s.startPull).blkDefined = s.blkDefined := rfl
@[simp] theorem State.startPull_draws (s : State) : (s.startPull).draws = s.draws := rfl
@[simp] theorem State.startPull_outstanding (s : State) : (s.startPull).outstanding = s.outstanding := rfl
@[simp] theorem State.startPull_cmds (s : State) : (s.startPull).cmds = s.cmds := rfl
@[simp] theorem State.startPull_resetPin (s : State) : (s.startPull).resetPin = s.resetPin := rfl
@[simp] theorem State.startPull_stream (s : State) : (s.startPull).stream = s.stream := rfl
@[simp] theorem State.startPull_grants (s : State) : (s.startPull).grants = s.grants := rfl
@[simp] theorem State.startPull_mem (s : State) : (s.startPull).mem = s.mem := rfl
@[simp] theorem State.startPull_platform (s : State) : (s.startPull).platform = s.platform := rfl
@[simp] theorem State.startPull_responses (s : State) : (s.startPull).responses = s.responses := rfl
@[simp] theorem State.startPull_requests (s : State) : (s.startPull).requests = s.requests := rfl

/-! ### `startFinish` -/

@[simp] theorem State.startFinish_qctx (s : State) : (s.startFinish).qctx = s.qctx := rfl
@[simp] theorem State.startFinish_ctx (s : State) : (s.startFinish).ctx = s.ctx := rfl
@[simp] theorem State.startFinish_dstbase (s : State) : (s.startFinish).dstbase = s.dstbase := rfl
@[simp] theorem State.startFinish_dststride (s : State) : (s.startFinish).dststride = s.dststride := rfl
@[simp] theorem State.startFinish_cfgv (s : State) : (s.startFinish).cfgv = s.cfgv := rfl
@[simp] theorem State.startFinish_ttacc (s : State) : (s.startFinish).ttacc = s.ttacc := rfl
@[simp] theorem State.startFinish_result (s : State) : (s.startFinish).result = s.result := rfl
@[simp] theorem State.startFinish_placed (s : State) : (s.startFinish).placed = s.placed := rfl
@[simp] theorem State.startFinish_status (s : State) : (s.startFinish).status = s.status := rfl
@[simp] theorem State.startFinish_cmdcnt (s : State) : (s.startFinish).cmdcnt = s.cmdcnt := rfl
@[simp] theorem State.startFinish_blk (s : State) : (s.startFinish).blk = s.blk := rfl
@[simp] theorem State.startFinish_work (s : State) : (s.startFinish).work = s.work := rfl
@[simp] theorem State.startFinish_phase (s : State) : (s.startFinish).phase = .finish := rfl
@[simp] theorem State.startFinish_cont (s : State) : (s.startFinish).cont = s.cont := rfl
@[simp] theorem State.startFinish_blkDefined (s : State) : (s.startFinish).blkDefined = s.blkDefined := rfl
@[simp] theorem State.startFinish_draws (s : State) : (s.startFinish).draws = s.draws := rfl
@[simp] theorem State.startFinish_outstanding (s : State) : (s.startFinish).outstanding = s.outstanding := rfl
@[simp] theorem State.startFinish_cmds (s : State) : (s.startFinish).cmds = s.cmds := rfl
@[simp] theorem State.startFinish_resetPin (s : State) : (s.startFinish).resetPin = s.resetPin := rfl
@[simp] theorem State.startFinish_stream (s : State) : (s.startFinish).stream = s.stream := rfl
@[simp] theorem State.startFinish_grants (s : State) : (s.startFinish).grants = s.grants := rfl
@[simp] theorem State.startFinish_mem (s : State) : (s.startFinish).mem = s.mem := rfl
@[simp] theorem State.startFinish_platform (s : State) : (s.startFinish).platform = s.platform := rfl
@[simp] theorem State.startFinish_responses (s : State) : (s.startFinish).responses = s.responses := rfl
@[simp] theorem State.startFinish_requests (s : State) : (s.startFinish).requests = s.requests := rfl

/-! ### `setShape` -/

@[simp] theorem State.setShape_qctx (s : State) (w : BitVec 3) (p : BitVec 4) : (s.setShape w p).qctx = s.qctx := rfl
@[simp] theorem State.setShape_ctx (s : State) (w : BitVec 3) (p : BitVec 4) : (s.setShape w p).ctx = s.ctx := rfl
@[simp] theorem State.setShape_dstbase (s : State) (w : BitVec 3) (p : BitVec 4) :
    (s.setShape w p).dstbase = s.dstbase := rfl
@[simp] theorem State.setShape_dststride (s : State) (w : BitVec 3) (p : BitVec 4) :
    (s.setShape w p).dststride = s.dststride := rfl
@[simp] theorem State.setShape_cfgv (s : State) (w : BitVec 3) (p : BitVec 4) : (s.setShape w p).cfgv = s.cfgv := rfl
@[simp] theorem State.setShape_ttacc (s : State) (w : BitVec 3) (p : BitVec 4) :
    (s.setShape w p).ttacc = s.ttacc := rfl
@[simp] theorem State.setShape_result (s : State) (w : BitVec 3) (p : BitVec 4) :
    (s.setShape w p).result = s.result := rfl
@[simp] theorem State.setShape_placed (s : State) (w : BitVec 3) (p : BitVec 4) :
    (s.setShape w p).placed = s.placed := rfl
@[simp] theorem State.setShape_status (s : State) (w : BitVec 3) (p : BitVec 4) :
    (s.setShape w p).status = s.status := rfl
@[simp] theorem State.setShape_cmdcnt (s : State) (w : BitVec 3) (p : BitVec 4) :
    (s.setShape w p).cmdcnt = s.cmdcnt := rfl
@[simp] theorem State.setShape_blk (s : State) (w : BitVec 3) (p : BitVec 4) : (s.setShape w p).blk = s.blk := rfl
@[simp] theorem State.setShape_work (s : State) (w : BitVec 3) (p : BitVec 4) :
    (s.setShape w p).work = { s.work with wshape := w, wsubpat := p } := rfl
@[simp] theorem State.setShape_phase (s : State) (w : BitVec 3) (p : BitVec 4) :
    (s.setShape w p).phase = s.phase := rfl
@[simp] theorem State.setShape_cont (s : State) (w : BitVec 3) (p : BitVec 4) : (s.setShape w p).cont = s.cont := rfl
@[simp] theorem State.setShape_blkDefined (s : State) (w : BitVec 3) (p : BitVec 4) :
    (s.setShape w p).blkDefined = s.blkDefined := rfl
@[simp] theorem State.setShape_draws (s : State) (w : BitVec 3) (p : BitVec 4) :
    (s.setShape w p).draws = s.draws := rfl
@[simp] theorem State.setShape_outstanding (s : State) (w : BitVec 3) (p : BitVec 4) :
    (s.setShape w p).outstanding = s.outstanding := rfl
@[simp] theorem State.setShape_cmds (s : State) (w : BitVec 3) (p : BitVec 4) : (s.setShape w p).cmds = s.cmds := rfl
@[simp] theorem State.setShape_resetPin (s : State) (w : BitVec 3) (p : BitVec 4) :
    (s.setShape w p).resetPin = s.resetPin := rfl
@[simp] theorem State.setShape_stream (s : State) (w : BitVec 3) (p : BitVec 4) :
    (s.setShape w p).stream = s.stream := rfl
@[simp] theorem State.setShape_grants (s : State) (w : BitVec 3) (p : BitVec 4) :
    (s.setShape w p).grants = s.grants := rfl
@[simp] theorem State.setShape_mem (s : State) (w : BitVec 3) (p : BitVec 4) : (s.setShape w p).mem = s.mem := rfl
@[simp] theorem State.setShape_platform (s : State) (w : BitVec 3) (p : BitVec 4) :
    (s.setShape w p).platform = s.platform := rfl
@[simp] theorem State.setShape_responses (s : State) (w : BitVec 3) (p : BitVec 4) :
    (s.setShape w p).responses = s.responses := rfl
@[simp] theorem State.setShape_requests (s : State) (w : BitVec 3) (p : BitVec 4) :
    (s.setShape w p).requests = s.requests := rfl

/-! ### `startRecon` -/

@[simp] theorem State.startRecon_qctx (s : State) : (s.startRecon).qctx = s.qctx := rfl
@[simp] theorem State.startRecon_ctx (s : State) : (s.startRecon).ctx = s.ctx := rfl
@[simp] theorem State.startRecon_dstbase (s : State) : (s.startRecon).dstbase = s.dstbase := rfl
@[simp] theorem State.startRecon_dststride (s : State) : (s.startRecon).dststride = s.dststride := rfl
@[simp] theorem State.startRecon_cfgv (s : State) : (s.startRecon).cfgv = s.cfgv := rfl
@[simp] theorem State.startRecon_ttacc (s : State) : (s.startRecon).ttacc = s.ttacc := rfl
@[simp] theorem State.startRecon_result (s : State) : (s.startRecon).result = s.result := rfl
@[simp] theorem State.startRecon_placed (s : State) : (s.startRecon).placed = s.placed := rfl
@[simp] theorem State.startRecon_status (s : State) : (s.startRecon).status = s.status := rfl
@[simp] theorem State.startRecon_cmdcnt (s : State) : (s.startRecon).cmdcnt = s.cmdcnt := rfl
@[simp] theorem State.startRecon_blk (s : State) : (s.startRecon).blk = s.blk := rfl
@[simp] theorem State.startRecon_work (s : State) : (s.startRecon).work = s.work := rfl
@[simp] theorem State.startRecon_phase (s : State) : (s.startRecon).phase = .recon := rfl
@[simp] theorem State.startRecon_cont (s : State) :
    (s.startRecon).cont = { s.cont with res := none, pix := 0, old := none } := rfl
@[simp] theorem State.startRecon_blkDefined (s : State) : (s.startRecon).blkDefined = s.blkDefined := rfl
@[simp] theorem State.startRecon_draws (s : State) : (s.startRecon).draws = s.draws := rfl
@[simp] theorem State.startRecon_outstanding (s : State) : (s.startRecon).outstanding = s.outstanding := rfl
@[simp] theorem State.startRecon_cmds (s : State) : (s.startRecon).cmds = s.cmds := rfl
@[simp] theorem State.startRecon_resetPin (s : State) : (s.startRecon).resetPin = s.resetPin := rfl
@[simp] theorem State.startRecon_stream (s : State) : (s.startRecon).stream = s.stream := rfl
@[simp] theorem State.startRecon_grants (s : State) : (s.startRecon).grants = s.grants := rfl
@[simp] theorem State.startRecon_mem (s : State) : (s.startRecon).mem = s.mem := rfl
@[simp] theorem State.startRecon_platform (s : State) : (s.startRecon).platform = s.platform := rfl
@[simp] theorem State.startRecon_responses (s : State) : (s.startRecon).responses = s.responses := rfl
@[simp] theorem State.startRecon_requests (s : State) : (s.startRecon).requests = s.requests := rfl

/-! ### `countOne` -/

@[simp] theorem State.countOne_qctx (s : State) : (s.countOne).qctx = s.qctx := rfl
@[simp] theorem State.countOne_ctx (s : State) : (s.countOne).ctx = s.ctx := rfl
@[simp] theorem State.countOne_dstbase (s : State) : (s.countOne).dstbase = s.dstbase := rfl
@[simp] theorem State.countOne_dststride (s : State) : (s.countOne).dststride = s.dststride := rfl
@[simp] theorem State.countOne_cfgv (s : State) : (s.countOne).cfgv = s.cfgv := rfl
@[simp] theorem State.countOne_ttacc (s : State) : (s.countOne).ttacc = s.ttacc := rfl
@[simp] theorem State.countOne_result (s : State) : (s.countOne).result = s.result := rfl
@[simp] theorem State.countOne_placed (s : State) : (s.countOne).placed = s.placed := rfl
@[simp] theorem State.countOne_status (s : State) : (s.countOne).status = s.status := rfl
@[simp] theorem State.countOne_cmdcnt (s : State) : (s.countOne).cmdcnt = s.cmdcnt := rfl
@[simp] theorem State.countOne_blk (s : State) : (s.countOne).blk = s.blk := rfl
@[simp] theorem State.countOne_work (s : State) :
    (s.countOne).work = { s.work with cur := s.work.cur + 1, cnt := s.work.cnt + 1 } := rfl
@[simp] theorem State.countOne_phase (s : State) : (s.countOne).phase = s.phase := rfl
@[simp] theorem State.countOne_cont (s : State) : (s.countOne).cont = s.cont := rfl
@[simp] theorem State.countOne_blkDefined (s : State) : (s.countOne).blkDefined = s.blkDefined := rfl
@[simp] theorem State.countOne_draws (s : State) : (s.countOne).draws = s.draws := rfl
@[simp] theorem State.countOne_outstanding (s : State) : (s.countOne).outstanding = s.outstanding := rfl
@[simp] theorem State.countOne_cmds (s : State) : (s.countOne).cmds = s.cmds := rfl
@[simp] theorem State.countOne_resetPin (s : State) : (s.countOne).resetPin = s.resetPin := rfl
@[simp] theorem State.countOne_stream (s : State) : (s.countOne).stream = s.stream := rfl
@[simp] theorem State.countOne_grants (s : State) : (s.countOne).grants = s.grants := rfl
@[simp] theorem State.countOne_mem (s : State) : (s.countOne).mem = s.mem := rfl
@[simp] theorem State.countOne_platform (s : State) : (s.countOne).platform = s.platform := rfl
@[simp] theorem State.countOne_responses (s : State) : (s.countOne).responses = s.responses := rfl
@[simp] theorem State.countOne_requests (s : State) : (s.countOne).requests = s.requests := rfl

/-! ### `setOld` -/

@[simp] theorem State.setOld_qctx (s : State) (b : Byte) : (s.setOld b).qctx = s.qctx := rfl
@[simp] theorem State.setOld_ctx (s : State) (b : Byte) : (s.setOld b).ctx = s.ctx := rfl
@[simp] theorem State.setOld_dstbase (s : State) (b : Byte) : (s.setOld b).dstbase = s.dstbase := rfl
@[simp] theorem State.setOld_dststride (s : State) (b : Byte) : (s.setOld b).dststride = s.dststride := rfl
@[simp] theorem State.setOld_cfgv (s : State) (b : Byte) : (s.setOld b).cfgv = s.cfgv := rfl
@[simp] theorem State.setOld_ttacc (s : State) (b : Byte) : (s.setOld b).ttacc = s.ttacc := rfl
@[simp] theorem State.setOld_result (s : State) (b : Byte) : (s.setOld b).result = s.result := rfl
@[simp] theorem State.setOld_placed (s : State) (b : Byte) : (s.setOld b).placed = s.placed := rfl
@[simp] theorem State.setOld_status (s : State) (b : Byte) : (s.setOld b).status = s.status := rfl
@[simp] theorem State.setOld_cmdcnt (s : State) (b : Byte) : (s.setOld b).cmdcnt = s.cmdcnt := rfl
@[simp] theorem State.setOld_blk (s : State) (b : Byte) : (s.setOld b).blk = s.blk := rfl
@[simp] theorem State.setOld_work (s : State) (b : Byte) : (s.setOld b).work = s.work := rfl
@[simp] theorem State.setOld_phase (s : State) (b : Byte) : (s.setOld b).phase = s.phase := rfl
@[simp] theorem State.setOld_cont (s : State) (b : Byte) : (s.setOld b).cont = { s.cont with old := some b } := rfl
@[simp] theorem State.setOld_blkDefined (s : State) (b : Byte) : (s.setOld b).blkDefined = s.blkDefined := rfl
@[simp] theorem State.setOld_draws (s : State) (b : Byte) : (s.setOld b).draws = s.draws := rfl
@[simp] theorem State.setOld_outstanding (s : State) (b : Byte) : (s.setOld b).outstanding = s.outstanding := rfl
@[simp] theorem State.setOld_cmds (s : State) (b : Byte) : (s.setOld b).cmds = s.cmds := rfl
@[simp] theorem State.setOld_resetPin (s : State) (b : Byte) : (s.setOld b).resetPin = s.resetPin := rfl
@[simp] theorem State.setOld_stream (s : State) (b : Byte) : (s.setOld b).stream = s.stream := rfl
@[simp] theorem State.setOld_grants (s : State) (b : Byte) : (s.setOld b).grants = s.grants := rfl
@[simp] theorem State.setOld_mem (s : State) (b : Byte) : (s.setOld b).mem = s.mem := rfl
@[simp] theorem State.setOld_platform (s : State) (b : Byte) : (s.setOld b).platform = s.platform := rfl
@[simp] theorem State.setOld_responses (s : State) (b : Byte) : (s.setOld b).responses = s.responses := rfl
@[simp] theorem State.setOld_requests (s : State) (b : Byte) : (s.setOld b).requests = s.requests := rfl

/-! ### `nextPixel` -/

@[simp] theorem State.nextPixel_qctx (s : State) : (s.nextPixel).qctx = s.qctx := rfl
@[simp] theorem State.nextPixel_ctx (s : State) : (s.nextPixel).ctx = s.ctx := rfl
@[simp] theorem State.nextPixel_dstbase (s : State) : (s.nextPixel).dstbase = s.dstbase := rfl
@[simp] theorem State.nextPixel_dststride (s : State) : (s.nextPixel).dststride = s.dststride := rfl
@[simp] theorem State.nextPixel_cfgv (s : State) : (s.nextPixel).cfgv = s.cfgv := rfl
@[simp] theorem State.nextPixel_ttacc (s : State) : (s.nextPixel).ttacc = s.ttacc := rfl
@[simp] theorem State.nextPixel_result (s : State) : (s.nextPixel).result = s.result := rfl
@[simp] theorem State.nextPixel_placed (s : State) : (s.nextPixel).placed = s.placed := rfl
@[simp] theorem State.nextPixel_status (s : State) : (s.nextPixel).status = s.status := rfl
@[simp] theorem State.nextPixel_cmdcnt (s : State) : (s.nextPixel).cmdcnt = s.cmdcnt := rfl
@[simp] theorem State.nextPixel_blk (s : State) : (s.nextPixel).blk = s.blk := rfl
@[simp] theorem State.nextPixel_work (s : State) : (s.nextPixel).work = s.work := rfl
@[simp] theorem State.nextPixel_phase (s : State) : (s.nextPixel).phase = s.phase := rfl
@[simp] theorem State.nextPixel_cont (s : State) :
    (s.nextPixel).cont = { s.cont with pix := s.cont.pix + 1, old := none } := rfl
@[simp] theorem State.nextPixel_blkDefined (s : State) : (s.nextPixel).blkDefined = s.blkDefined := rfl
@[simp] theorem State.nextPixel_draws (s : State) : (s.nextPixel).draws = s.draws := rfl
@[simp] theorem State.nextPixel_outstanding (s : State) : (s.nextPixel).outstanding = s.outstanding := rfl
@[simp] theorem State.nextPixel_cmds (s : State) : (s.nextPixel).cmds = s.cmds := rfl
@[simp] theorem State.nextPixel_resetPin (s : State) : (s.nextPixel).resetPin = s.resetPin := rfl
@[simp] theorem State.nextPixel_stream (s : State) : (s.nextPixel).stream = s.stream := rfl
@[simp] theorem State.nextPixel_grants (s : State) : (s.nextPixel).grants = s.grants := rfl
@[simp] theorem State.nextPixel_mem (s : State) : (s.nextPixel).mem = s.mem := rfl
@[simp] theorem State.nextPixel_platform (s : State) : (s.nextPixel).platform = s.platform := rfl
@[simp] theorem State.nextPixel_responses (s : State) : (s.nextPixel).responses = s.responses := rfl
@[simp] theorem State.nextPixel_requests (s : State) : (s.nextPixel).requests = s.requests := rfl

/-! ### `setResult` -/

@[simp] theorem State.setResult_qctx (s : State) (r : ResultReg) : (s.setResult r).qctx = s.qctx := rfl
@[simp] theorem State.setResult_ctx (s : State) (r : ResultReg) : (s.setResult r).ctx = s.ctx := rfl
@[simp] theorem State.setResult_dstbase (s : State) (r : ResultReg) : (s.setResult r).dstbase = s.dstbase := rfl
@[simp] theorem State.setResult_dststride (s : State) (r : ResultReg) : (s.setResult r).dststride = s.dststride := rfl
@[simp] theorem State.setResult_cfgv (s : State) (r : ResultReg) : (s.setResult r).cfgv = s.cfgv := rfl
@[simp] theorem State.setResult_ttacc (s : State) (r : ResultReg) : (s.setResult r).ttacc = s.ttacc := rfl
@[simp] theorem State.setResult_result (s : State) (r : ResultReg) : (s.setResult r).result = r := rfl
@[simp] theorem State.setResult_placed (s : State) (r : ResultReg) : (s.setResult r).placed = s.placed := rfl
@[simp] theorem State.setResult_status (s : State) (r : ResultReg) : (s.setResult r).status = s.status := rfl
@[simp] theorem State.setResult_cmdcnt (s : State) (r : ResultReg) : (s.setResult r).cmdcnt = s.cmdcnt := rfl
@[simp] theorem State.setResult_blk (s : State) (r : ResultReg) : (s.setResult r).blk = s.blk := rfl
@[simp] theorem State.setResult_work (s : State) (r : ResultReg) : (s.setResult r).work = s.work := rfl
@[simp] theorem State.setResult_phase (s : State) (r : ResultReg) : (s.setResult r).phase = s.phase := rfl
@[simp] theorem State.setResult_cont (s : State) (r : ResultReg) : (s.setResult r).cont = s.cont := rfl
@[simp] theorem State.setResult_blkDefined (s : State) (r : ResultReg) :
    (s.setResult r).blkDefined = s.blkDefined := rfl
@[simp] theorem State.setResult_draws (s : State) (r : ResultReg) : (s.setResult r).draws = s.draws := rfl
@[simp] theorem State.setResult_outstanding (s : State) (r : ResultReg) :
    (s.setResult r).outstanding = s.outstanding := rfl
@[simp] theorem State.setResult_cmds (s : State) (r : ResultReg) : (s.setResult r).cmds = s.cmds := rfl
@[simp] theorem State.setResult_resetPin (s : State) (r : ResultReg) : (s.setResult r).resetPin = s.resetPin := rfl
@[simp] theorem State.setResult_stream (s : State) (r : ResultReg) : (s.setResult r).stream = s.stream := rfl
@[simp] theorem State.setResult_grants (s : State) (r : ResultReg) : (s.setResult r).grants = s.grants := rfl
@[simp] theorem State.setResult_mem (s : State) (r : ResultReg) : (s.setResult r).mem = s.mem := rfl
@[simp] theorem State.setResult_platform (s : State) (r : ResultReg) : (s.setResult r).platform = s.platform := rfl
@[simp] theorem State.setResult_responses (s : State) (r : ResultReg) : (s.setResult r).responses = s.responses := rfl
@[simp] theorem State.setResult_requests (s : State) (r : ResultReg) : (s.setResult r).requests = s.requests := rfl

/-! ### `startSelect` -/

@[simp] theorem State.startSelect_qctx (s : State) : (s.startSelect).qctx = s.qctx := rfl
@[simp] theorem State.startSelect_ctx (s : State) : (s.startSelect).ctx = s.ctx := rfl
@[simp] theorem State.startSelect_dstbase (s : State) : (s.startSelect).dstbase = s.dstbase := rfl
@[simp] theorem State.startSelect_dststride (s : State) : (s.startSelect).dststride = s.dststride := rfl
@[simp] theorem State.startSelect_cfgv (s : State) : (s.startSelect).cfgv = s.cfgv := rfl
@[simp] theorem State.startSelect_ttacc (s : State) : (s.startSelect).ttacc = s.ttacc := rfl
@[simp] theorem State.startSelect_result (s : State) : (s.startSelect).result = s.result := rfl
@[simp] theorem State.startSelect_placed (s : State) : (s.startSelect).placed = s.placed := rfl
@[simp] theorem State.startSelect_status (s : State) : (s.startSelect).status = s.status := rfl
@[simp] theorem State.startSelect_cmdcnt (s : State) : (s.startSelect).cmdcnt = s.cmdcnt := rfl
@[simp] theorem State.startSelect_blk (s : State) : (s.startSelect).blk = s.blk := rfl
@[simp] theorem State.startSelect_work (s : State) : (s.startSelect).work = s.work := rfl
@[simp] theorem State.startSelect_phase (s : State) : (s.startSelect).phase = .select := rfl
@[simp] theorem State.startSelect_cont (s : State) : (s.startSelect).cont = { s.cont with rawDone := false } := rfl
@[simp] theorem State.startSelect_blkDefined (s : State) : (s.startSelect).blkDefined = s.blkDefined := rfl
@[simp] theorem State.startSelect_draws (s : State) : (s.startSelect).draws = s.draws := rfl
@[simp] theorem State.startSelect_outstanding (s : State) : (s.startSelect).outstanding = s.outstanding := rfl
@[simp] theorem State.startSelect_cmds (s : State) : (s.startSelect).cmds = s.cmds := rfl
@[simp] theorem State.startSelect_resetPin (s : State) : (s.startSelect).resetPin = s.resetPin := rfl
@[simp] theorem State.startSelect_stream (s : State) : (s.startSelect).stream = s.stream := rfl
@[simp] theorem State.startSelect_grants (s : State) : (s.startSelect).grants = s.grants := rfl
@[simp] theorem State.startSelect_mem (s : State) : (s.startSelect).mem = s.mem := rfl
@[simp] theorem State.startSelect_platform (s : State) : (s.startSelect).platform = s.platform := rfl
@[simp] theorem State.startSelect_responses (s : State) : (s.startSelect).responses = s.responses := rfl
@[simp] theorem State.startSelect_requests (s : State) : (s.startSelect).requests = s.requests := rfl

/-! ### `setRes` -/

@[simp] theorem State.setRes_qctx (s : State) (res : List Sample) : (s.setRes res).qctx = s.qctx := rfl
@[simp] theorem State.setRes_ctx (s : State) (res : List Sample) : (s.setRes res).ctx = s.ctx := rfl
@[simp] theorem State.setRes_dstbase (s : State) (res : List Sample) : (s.setRes res).dstbase = s.dstbase := rfl
@[simp] theorem State.setRes_dststride (s : State) (res : List Sample) : (s.setRes res).dststride = s.dststride := rfl
@[simp] theorem State.setRes_cfgv (s : State) (res : List Sample) : (s.setRes res).cfgv = s.cfgv := rfl
@[simp] theorem State.setRes_ttacc (s : State) (res : List Sample) : (s.setRes res).ttacc = s.ttacc := rfl
@[simp] theorem State.setRes_result (s : State) (res : List Sample) : (s.setRes res).result = s.result := rfl
@[simp] theorem State.setRes_placed (s : State) (res : List Sample) : (s.setRes res).placed = s.placed := rfl
@[simp] theorem State.setRes_status (s : State) (res : List Sample) : (s.setRes res).status = s.status := rfl
@[simp] theorem State.setRes_cmdcnt (s : State) (res : List Sample) : (s.setRes res).cmdcnt = s.cmdcnt := rfl
@[simp] theorem State.setRes_blk (s : State) (res : List Sample) : (s.setRes res).blk = s.blk := rfl
@[simp] theorem State.setRes_work (s : State) (res : List Sample) : (s.setRes res).work = s.work := rfl
@[simp] theorem State.setRes_phase (s : State) (res : List Sample) : (s.setRes res).phase = s.phase := rfl
@[simp] theorem State.setRes_cont (s : State) (res : List Sample) :
    (s.setRes res).cont = { s.cont with res := some res, pix := 0, old := none } := rfl
@[simp] theorem State.setRes_blkDefined (s : State) (res : List Sample) :
    (s.setRes res).blkDefined = s.blkDefined := rfl
@[simp] theorem State.setRes_draws (s : State) (res : List Sample) : (s.setRes res).draws = s.draws := rfl
@[simp] theorem State.setRes_outstanding (s : State) (res : List Sample) :
    (s.setRes res).outstanding = s.outstanding := rfl
@[simp] theorem State.setRes_cmds (s : State) (res : List Sample) : (s.setRes res).cmds = s.cmds := rfl
@[simp] theorem State.setRes_resetPin (s : State) (res : List Sample) : (s.setRes res).resetPin = s.resetPin := rfl
@[simp] theorem State.setRes_stream (s : State) (res : List Sample) : (s.setRes res).stream = s.stream := rfl
@[simp] theorem State.setRes_grants (s : State) (res : List Sample) : (s.setRes res).grants = s.grants := rfl
@[simp] theorem State.setRes_mem (s : State) (res : List Sample) : (s.setRes res).mem = s.mem := rfl
@[simp] theorem State.setRes_platform (s : State) (res : List Sample) : (s.setRes res).platform = s.platform := rfl
@[simp] theorem State.setRes_responses (s : State) (res : List Sample) : (s.setRes res).responses = s.responses := rfl
@[simp] theorem State.setRes_requests (s : State) (res : List Sample) : (s.setRes res).requests = s.requests := rfl

/-! ### `startBlock` -/

@[simp] theorem State.startBlock_qctx (s : State) (o : DecOps) : (s.startBlock o).qctx = s.qctx := rfl
@[simp] theorem State.startBlock_ctx (s : State) (o : DecOps) : (s.startBlock o).ctx = s.ctx := rfl
@[simp] theorem State.startBlock_dstbase (s : State) (o : DecOps) : (s.startBlock o).dstbase = s.dstbase := rfl
@[simp] theorem State.startBlock_dststride (s : State) (o : DecOps) : (s.startBlock o).dststride = s.dststride := rfl
@[simp] theorem State.startBlock_cfgv (s : State) (o : DecOps) : (s.startBlock o).cfgv = s.cfgv := rfl
@[simp] theorem State.startBlock_ttacc (s : State) (o : DecOps) : (s.startBlock o).ttacc = s.ttacc := rfl
@[simp] theorem State.startBlock_result (s : State) (o : DecOps) : (s.startBlock o).result = s.result := rfl
@[simp] theorem State.startBlock_placed (s : State) (o : DecOps) : (s.startBlock o).placed = s.placed := rfl
@[simp] theorem State.startBlock_status (s : State) (o : DecOps) : (s.startBlock o).status = s.status := rfl
@[simp] theorem State.startBlock_cmdcnt (s : State) (o : DecOps) : (s.startBlock o).cmdcnt = s.cmdcnt := rfl
@[simp] theorem State.startBlock_blk (s : State) (o : DecOps) : (s.startBlock o).blk = s.blk := rfl
@[simp] theorem State.startBlock_work (s : State) (o : DecOps) : (s.startBlock o).work = s.work := rfl
@[simp] theorem State.startBlock_phase (s : State) (o : DecOps) : (s.startBlock o).phase = .check := rfl
@[simp] theorem State.startBlock_cont (s : State) (o : DecOps) :
    (s.startBlock o).cont = { s.cont with ops := o } := rfl
@[simp] theorem State.startBlock_blkDefined (s : State) (o : DecOps) :
    (s.startBlock o).blkDefined = s.blkDefined := rfl
@[simp] theorem State.startBlock_draws (s : State) (o : DecOps) : (s.startBlock o).draws = s.draws := rfl
@[simp] theorem State.startBlock_outstanding (s : State) (o : DecOps) :
    (s.startBlock o).outstanding = s.outstanding := rfl
@[simp] theorem State.startBlock_cmds (s : State) (o : DecOps) : (s.startBlock o).cmds = s.cmds := rfl
@[simp] theorem State.startBlock_resetPin (s : State) (o : DecOps) : (s.startBlock o).resetPin = s.resetPin := rfl
@[simp] theorem State.startBlock_stream (s : State) (o : DecOps) : (s.startBlock o).stream = s.stream := rfl
@[simp] theorem State.startBlock_grants (s : State) (o : DecOps) : (s.startBlock o).grants = s.grants := rfl
@[simp] theorem State.startBlock_mem (s : State) (o : DecOps) : (s.startBlock o).mem = s.mem := rfl
@[simp] theorem State.startBlock_platform (s : State) (o : DecOps) : (s.startBlock o).platform = s.platform := rfl
@[simp] theorem State.startBlock_responses (s : State) (o : DecOps) : (s.startBlock o).responses = s.responses := rfl
@[simp] theorem State.startBlock_requests (s : State) (o : DecOps) : (s.startBlock o).requests = s.requests := rfl

/-! ### the head of the sub-block loop: only the working registers and the phase change -/

@[simp] theorem State.enterFrom_qctx (sh : Shape) (n : Nat) (s : State) :
    (State.enterFrom sh n s).qctx = s.qctx := by
  induction n generalizing s with
  | zero => rfl
  | succ n ih => simp only [State.enterFrom]; split <;> simp [ih]

@[simp] theorem State.enterFrom_ctx (sh : Shape) (n : Nat) (s : State) :
    (State.enterFrom sh n s).ctx = s.ctx := by
  induction n generalizing s with
  | zero => rfl
  | succ n ih => simp only [State.enterFrom]; split <;> simp [ih]

@[simp] theorem State.enterFrom_dstbase (sh : Shape) (n : Nat) (s : State) :
    (State.enterFrom sh n s).dstbase = s.dstbase := by
  induction n generalizing s with
  | zero => rfl
  | succ n ih => simp only [State.enterFrom]; split <;> simp [ih]

@[simp] theorem State.enterFrom_dststride (sh : Shape) (n : Nat) (s : State) :
    (State.enterFrom sh n s).dststride = s.dststride := by
  induction n generalizing s with
  | zero => rfl
  | succ n ih => simp only [State.enterFrom]; split <;> simp [ih]

@[simp] theorem State.enterFrom_cfgv (sh : Shape) (n : Nat) (s : State) :
    (State.enterFrom sh n s).cfgv = s.cfgv := by
  induction n generalizing s with
  | zero => rfl
  | succ n ih => simp only [State.enterFrom]; split <;> simp [ih]

@[simp] theorem State.enterFrom_ttacc (sh : Shape) (n : Nat) (s : State) :
    (State.enterFrom sh n s).ttacc = s.ttacc := by
  induction n generalizing s with
  | zero => rfl
  | succ n ih => simp only [State.enterFrom]; split <;> simp [ih]

@[simp] theorem State.enterFrom_result (sh : Shape) (n : Nat) (s : State) :
    (State.enterFrom sh n s).result = s.result := by
  induction n generalizing s with
  | zero => rfl
  | succ n ih => simp only [State.enterFrom]; split <;> simp [ih]

@[simp] theorem State.enterFrom_placed (sh : Shape) (n : Nat) (s : State) :
    (State.enterFrom sh n s).placed = s.placed := by
  induction n generalizing s with
  | zero => rfl
  | succ n ih => simp only [State.enterFrom]; split <;> simp [ih]

@[simp] theorem State.enterFrom_status (sh : Shape) (n : Nat) (s : State) :
    (State.enterFrom sh n s).status = s.status := by
  induction n generalizing s with
  | zero => rfl
  | succ n ih => simp only [State.enterFrom]; split <;> simp [ih]

@[simp] theorem State.enterFrom_cmdcnt (sh : Shape) (n : Nat) (s : State) :
    (State.enterFrom sh n s).cmdcnt = s.cmdcnt := by
  induction n generalizing s with
  | zero => rfl
  | succ n ih => simp only [State.enterFrom]; split <;> simp [ih]

@[simp] theorem State.enterFrom_blk (sh : Shape) (n : Nat) (s : State) :
    (State.enterFrom sh n s).blk = s.blk := by
  induction n generalizing s with
  | zero => rfl
  | succ n ih => simp only [State.enterFrom]; split <;> simp [ih]

@[simp] theorem State.enterFrom_cont (sh : Shape) (n : Nat) (s : State) :
    (State.enterFrom sh n s).cont = s.cont := by
  induction n generalizing s with
  | zero => rfl
  | succ n ih => simp only [State.enterFrom]; split <;> simp [ih]

@[simp] theorem State.enterFrom_blkDefined (sh : Shape) (n : Nat) (s : State) :
    (State.enterFrom sh n s).blkDefined = s.blkDefined := by
  induction n generalizing s with
  | zero => rfl
  | succ n ih => simp only [State.enterFrom]; split <;> simp [ih]

@[simp] theorem State.enterFrom_draws (sh : Shape) (n : Nat) (s : State) :
    (State.enterFrom sh n s).draws = s.draws := by
  induction n generalizing s with
  | zero => rfl
  | succ n ih => simp only [State.enterFrom]; split <;> simp [ih]

@[simp] theorem State.enterFrom_outstanding (sh : Shape) (n : Nat) (s : State) :
    (State.enterFrom sh n s).outstanding = s.outstanding := by
  induction n generalizing s with
  | zero => rfl
  | succ n ih => simp only [State.enterFrom]; split <;> simp [ih]

@[simp] theorem State.enterFrom_cmds (sh : Shape) (n : Nat) (s : State) :
    (State.enterFrom sh n s).cmds = s.cmds := by
  induction n generalizing s with
  | zero => rfl
  | succ n ih => simp only [State.enterFrom]; split <;> simp [ih]

@[simp] theorem State.enterFrom_resetPin (sh : Shape) (n : Nat) (s : State) :
    (State.enterFrom sh n s).resetPin = s.resetPin := by
  induction n generalizing s with
  | zero => rfl
  | succ n ih => simp only [State.enterFrom]; split <;> simp [ih]

@[simp] theorem State.enterFrom_stream (sh : Shape) (n : Nat) (s : State) :
    (State.enterFrom sh n s).stream = s.stream := by
  induction n generalizing s with
  | zero => rfl
  | succ n ih => simp only [State.enterFrom]; split <;> simp [ih]

@[simp] theorem State.enterFrom_grants (sh : Shape) (n : Nat) (s : State) :
    (State.enterFrom sh n s).grants = s.grants := by
  induction n generalizing s with
  | zero => rfl
  | succ n ih => simp only [State.enterFrom]; split <;> simp [ih]

@[simp] theorem State.enterFrom_mem (sh : Shape) (n : Nat) (s : State) :
    (State.enterFrom sh n s).mem = s.mem := by
  induction n generalizing s with
  | zero => rfl
  | succ n ih => simp only [State.enterFrom]; split <;> simp [ih]

@[simp] theorem State.enterFrom_platform (sh : Shape) (n : Nat) (s : State) :
    (State.enterFrom sh n s).platform = s.platform := by
  induction n generalizing s with
  | zero => rfl
  | succ n ih => simp only [State.enterFrom]; split <;> simp [ih]

@[simp] theorem State.enterFrom_responses (sh : Shape) (n : Nat) (s : State) :
    (State.enterFrom sh n s).responses = s.responses := by
  induction n generalizing s with
  | zero => rfl
  | succ n ih => simp only [State.enterFrom]; split <;> simp [ih]

@[simp] theorem State.enterFrom_requests (sh : Shape) (n : Nat) (s : State) :
    (State.enterFrom sh n s).requests = s.requests := by
  induction n generalizing s with
  | zero => rfl
  | succ n ih => simp only [State.enterFrom]; split <;> simp [ih]

/-! ### recording a fault: only the record changes, and only when none is pending -/

@[simp] theorem State.recordFault_qctx (s : State) (code : StatusCode) (sub : BitVec 2) :
    (s.recordFault code sub).qctx = s.qctx := by unfold State.recordFault; split <;> rfl
@[simp] theorem State.recordFault_ctx (s : State) (code : StatusCode) (sub : BitVec 2) :
    (s.recordFault code sub).ctx = s.ctx := by unfold State.recordFault; split <;> rfl
@[simp] theorem State.recordFault_dstbase (s : State) (code : StatusCode) (sub : BitVec 2) :
    (s.recordFault code sub).dstbase = s.dstbase := by unfold State.recordFault; split <;> rfl
@[simp] theorem State.recordFault_dststride (s : State) (code : StatusCode) (sub : BitVec 2) :
    (s.recordFault code sub).dststride = s.dststride := by unfold State.recordFault; split <;> rfl
@[simp] theorem State.recordFault_cfgv (s : State) (code : StatusCode) (sub : BitVec 2) :
    (s.recordFault code sub).cfgv = s.cfgv := by unfold State.recordFault; split <;> rfl
@[simp] theorem State.recordFault_ttacc (s : State) (code : StatusCode) (sub : BitVec 2) :
    (s.recordFault code sub).ttacc = s.ttacc := by unfold State.recordFault; split <;> rfl
@[simp] theorem State.recordFault_result (s : State) (code : StatusCode) (sub : BitVec 2) :
    (s.recordFault code sub).result = s.result := by unfold State.recordFault; split <;> rfl
@[simp] theorem State.recordFault_placed (s : State) (code : StatusCode) (sub : BitVec 2) :
    (s.recordFault code sub).placed = s.placed := by unfold State.recordFault; split <;> rfl
@[simp] theorem State.recordFault_cmdcnt (s : State) (code : StatusCode) (sub : BitVec 2) :
    (s.recordFault code sub).cmdcnt = s.cmdcnt := by unfold State.recordFault; split <;> rfl
@[simp] theorem State.recordFault_blk (s : State) (code : StatusCode) (sub : BitVec 2) :
    (s.recordFault code sub).blk = s.blk := by unfold State.recordFault; split <;> rfl
@[simp] theorem State.recordFault_work (s : State) (code : StatusCode) (sub : BitVec 2) :
    (s.recordFault code sub).work = s.work := by unfold State.recordFault; split <;> rfl
@[simp] theorem State.recordFault_phase (s : State) (code : StatusCode) (sub : BitVec 2) :
    (s.recordFault code sub).phase = s.phase := by unfold State.recordFault; split <;> rfl
@[simp] theorem State.recordFault_cont (s : State) (code : StatusCode) (sub : BitVec 2) :
    (s.recordFault code sub).cont = s.cont := by unfold State.recordFault; split <;> rfl
@[simp] theorem State.recordFault_blkDefined (s : State) (code : StatusCode) (sub : BitVec 2) :
    (s.recordFault code sub).blkDefined = s.blkDefined := by unfold State.recordFault; split <;> rfl
@[simp] theorem State.recordFault_draws (s : State) (code : StatusCode) (sub : BitVec 2) :
    (s.recordFault code sub).draws = s.draws := by unfold State.recordFault; split <;> rfl
@[simp] theorem State.recordFault_outstanding (s : State) (code : StatusCode) (sub : BitVec 2) :
    (s.recordFault code sub).outstanding = s.outstanding := by unfold State.recordFault; split <;> rfl
@[simp] theorem State.recordFault_cmds (s : State) (code : StatusCode) (sub : BitVec 2) :
    (s.recordFault code sub).cmds = s.cmds := by unfold State.recordFault; split <;> rfl
@[simp] theorem State.recordFault_resetPin (s : State) (code : StatusCode) (sub : BitVec 2) :
    (s.recordFault code sub).resetPin = s.resetPin := by unfold State.recordFault; split <;> rfl
@[simp] theorem State.recordFault_stream (s : State) (code : StatusCode) (sub : BitVec 2) :
    (s.recordFault code sub).stream = s.stream := by unfold State.recordFault; split <;> rfl
@[simp] theorem State.recordFault_grants (s : State) (code : StatusCode) (sub : BitVec 2) :
    (s.recordFault code sub).grants = s.grants := by unfold State.recordFault; split <;> rfl
@[simp] theorem State.recordFault_mem (s : State) (code : StatusCode) (sub : BitVec 2) :
    (s.recordFault code sub).mem = s.mem := by unfold State.recordFault; split <;> rfl
@[simp] theorem State.recordFault_platform (s : State) (code : StatusCode) (sub : BitVec 2) :
    (s.recordFault code sub).platform = s.platform := by unfold State.recordFault; split <;> rfl
@[simp] theorem State.recordFault_responses (s : State) (code : StatusCode) (sub : BitVec 2) :
    (s.recordFault code sub).responses = s.responses := by unfold State.recordFault; split <;> rfl
@[simp] theorem State.recordFault_requests (s : State) (code : StatusCode) (sub : BitVec 2) :
    (s.recordFault code sub).requests = s.requests := by unfold State.recordFault; split <;> rfl

end Sys2Proof.Machine
end

