-- ==== Sys2Proof/Laws/Memory.lean ====
section
/-! SUPPORT. The pixel plane: reading after writing, the canonical form kept by every operation, and equal reads of
two planes in canonical form mean equal planes. -/

namespace Sys2Proof.Machine

open Sys2Proof

namespace Memory

@[simp] theorem read_nil (a : Nat) : read [] a = unlisted := rfl

theorem read_cons (x : Nat) (b : Byte) (rest : List Host.Cell) (a : Nat) :
    read ((x, b) :: rest) a = if x = a then b else read rest a := rfl

theorem wfFrom_mono {lo hi : Nat} (h : lo ≤ hi) (m : List Host.Cell) (w : wfFrom hi m = true) :
    wfFrom lo m = true := by
  cases m with
  | nil => rfl
  | cons e rest =>
    simp only [wfFrom, Bool.and_eq_true, decide_eq_true_eq] at w ⊢
    exact ⟨⟨⟨by omega, w.1.1.2⟩, w.1.2⟩, w.2⟩

/-- Below the first address allowed in a list in canonical form nothing is listed. -/
theorem read_below {lo a : Nat} (m : List Host.Cell) (w : wfFrom lo m = true) (h : a < lo) :
    read m a = unlisted := by
  induction m generalizing lo with
  | nil => rfl
  | cons e rest ih =>
    simp only [wfFrom, Bool.and_eq_true, decide_eq_true_eq] at w
    rw [show e = (e.1, e.2) from rfl, read_cons, if_neg (by omega)]
    exact ih w.2 (by omega)

theorem read_consUnlessUnlisted_same {lo a : Nat} (b : Byte) (rest : List Host.Cell)
    (w : wfFrom lo rest = true) (h : a < lo) : read (consUnlessUnlisted a b rest) a = b := by
  unfold consUnlessUnlisted
  split
  · rw [read_below rest w h, ‹b = unlisted›]
  · rw [read_cons, if_pos rfl]

theorem read_consUnlessUnlisted_other {a x : Nat} (b : Byte) (rest : List Host.Cell) (h : a ≠ x) :
    read (consUnlessUnlisted a b rest) x = read rest x := by
  unfold consUnlessUnlisted
  split
  · rfl
  · rw [read_cons, if_neg h]

/-- Reading the byte just written (any list in canonical form). -/
theorem read_write_same {lo : Nat} (m : List Host.Cell) (a : Nat) (b : Byte) (w : wfFrom lo m = true) :
    read (write m a b) a = b := by
  induction m generalizing lo with
  | nil => exact read_consUnlessUnlisted_same (lo := a + 1) b [] rfl (by omega)
  | cons e rest ih =>
    obtain ⟨x, y⟩ := e
    have w' := w
    simp only [wfFrom, Bool.and_eq_true, decide_eq_true_eq] at w'
    unfold write
    split
    · refine read_consUnlessUnlisted_same (lo := x) b _ ?_ ‹a < x›
      simp only [wfFrom, Bool.and_eq_true, decide_eq_true_eq]
      exact ⟨⟨⟨le_refl x, w'.1.1.2⟩, w'.1.2⟩, w'.2⟩
    · split
      · exact read_consUnlessUnlisted_same (lo := x + 1) b _ w'.2 (by omega)
      · rw [read_cons, if_neg (by omega)]
        exact ih w'.2

/-- Reading any other address (any list at all). -/
theorem read_write_other (m : List Host.Cell) (a x : Nat) (b : Byte) (h : a ≠ x) :
    read (write m a b) x = read m x := by
  induction m with
  | nil => exact read_consUnlessUnlisted_other b [] h
  | cons e rest ih =>
    obtain ⟨y, v⟩ := e
    unfold write
    split
    · exact read_consUnlessUnlisted_other b _ h
    · split
      · rw [read_consUnlessUnlisted_other b _ h, read_cons, if_neg (by omega)]
      · rw [read_cons, read_cons, ih]

theorem wfFrom_consUnlessUnlisted {lo a : Nat} (b : Byte) (rest : List Host.Cell) (hlo : lo ≤ a)
    (ha : a < 2 ^ 32) (w : wfFrom (a + 1) rest = true) : wfFrom lo (consUnlessUnlisted a b rest) = true := by
  unfold consUnlessUnlisted
  split
  · exact wfFrom_mono (by omega) rest w
  · simp only [wfFrom, Bool.and_eq_true, decide_eq_true_eq]
    exact ⟨⟨⟨hlo, ha⟩, by simpa using ‹¬b = unlisted›⟩, w⟩

/-- A write keeps the canonical form. -/
theorem wfFrom_write {lo : Nat} (m : List Host.Cell) (a : Nat) (b : Byte) (hlo : lo ≤ a) (ha : a < 2 ^ 32)
    (w : wfFrom lo m = true) : wfFrom lo (write m a b) = true := by
  induction m generalizing lo with
  | nil => exact wfFrom_consUnlessUnlisted b [] hlo ha rfl
  | cons e rest ih =>
    obtain ⟨x, y⟩ := e
    have w' := w
    simp only [wfFrom, Bool.and_eq_true, decide_eq_true_eq] at w'
    unfold write
    split
    · refine wfFrom_consUnlessUnlisted b _ hlo ha ?_
      simp only [wfFrom, Bool.and_eq_true, decide_eq_true_eq]
      exact ⟨⟨⟨by omega, w'.1.1.2⟩, w'.1.2⟩, w'.2⟩
    · split
      · exact wfFrom_consUnlessUnlisted b _ hlo ha (by simpa [‹a = x›] using w'.2)
      · simp only [wfFrom, Bool.and_eq_true, decide_eq_true_eq]
        exact ⟨⟨⟨w'.1.1.1, w'.1.1.2⟩, w'.1.2⟩, ih (by omega) w'.2⟩

/-- The only operation that changes memory keeps the canonical form. -/
theorem wf_write (m : List Host.Cell) (a : Addr) (b : Byte) (w : wf m = true) :
    wf (write m a.toNat b) = true := wfFrom_write m a.toNat b (Nat.zero_le _) a.isLt w

/-- Two planes in canonical form with the same bytes are the same list. -/
theorem eq_of_read_eq {lo : Nat} (m n : List Host.Cell) (wm : wfFrom lo m = true) (wn : wfFrom lo n = true)
    (h : ∀ a, read m a = read n a) : m = n := by
  induction m generalizing lo n with
  | nil =>
    cases n with
    | nil => rfl
    | cons e rest =>
      obtain ⟨x, b⟩ := e
      simp only [wfFrom, Bool.and_eq_true, decide_eq_true_eq] at wn
      have hx := h x
      rw [read_nil, read_cons, if_pos rfl] at hx
      simp [← hx] at wn
  | cons e rest ih =>
    obtain ⟨x, b⟩ := e
    simp only [wfFrom, Bool.and_eq_true, decide_eq_true_eq] at wm
    have hx := h x
    rw [read_cons, if_pos rfl] at hx
    cases n with
    | nil => simp [hx] at wm
    | cons e' rest' =>
      obtain ⟨y, d⟩ := e'
      simp only [wfFrom, Bool.and_eq_true, decide_eq_true_eq] at wn
      have hy := h y
      rw [read_cons, read_cons, if_pos (rfl : y = y)] at hy
      have hxy : x = y := by
        rcases Nat.lt_trichotomy x y with hlt | heq | hgt
        · rw [read_cons, if_neg (by omega), read_below rest' wn.2 (by omega)] at hx
          simp [hx] at wm
        · exact heq
        · rw [if_neg (by omega), read_below rest wm.2 (by omega)] at hy
          simp [← hy] at wn
      subst hxy
      rw [read_cons, if_pos rfl] at hx
      subst hx
      refine congrArg _ (ih rest' wm.2 wn.2 fun a => ?_)
      have ha := h a
      rw [read_cons, read_cons] at ha
      by_cases hax : x = a
      · rw [← hax, read_below rest wm.2 (by omega), read_below rest' wn.2 (by omega)]
      · rwa [if_neg hax, if_neg hax] at ha

end Memory

theorem State.byteAt_setByte_same (s : State) (a : Addr) (b : Byte) (w : Memory.wf s.mem = true) :
    (s.setByte a b).byteAt a = b := Memory.read_write_same s.mem a.toNat b w

theorem State.byteAt_setByte_other (s : State) (a x : Addr) (b : Byte) (h : a ≠ x) :
    (s.setByte a b).byteAt x = s.byteAt x :=
  Memory.read_write_other s.mem a.toNat x.toNat b (fun e => h (BitVec.eq_of_toNat_eq e))

/-- The operations that give a plane keep its canonical form; the machine's reset leaves the plane alone. -/
theorem State.setByte_wf (s : State) (a : Addr) (b : Byte) (w : Memory.wf s.mem = true) :
    Memory.wf (s.setByte a b).mem = true := Memory.wf_write s.mem a b w

theorem State.applyReset_wf (s : State) (w : Memory.wf s.mem = true) : Memory.wf s.applyReset.mem = true := w

/-- The plane of the state after reset is in canonical form. -/
theorem State.reset_wf : Memory.wf State.reset.mem = true := rfl

end Sys2Proof.Machine
end

