-- ==== Sys2Proof/Laws/Ops.lean ====
section
/-! SUPPORT. Each shared operation of the machine, said once: what a request can come to, what a fault does, and the
inversion lemma of every step of a `DECBLK`. Proofs cite these and do not unfold the operations. -/

namespace Sys2Proof.Machine

open Sys2Proof

/-! ## Requests -/

/-- A request on the coded stream is answered exactly when a code is there and the agents answer. -/
theorem State.readCode_answer_iff (s t : State) (r : Request) (code : Code) :
    s.readCode r = .answer code t ↔
      ∃ rest, s.stream = code :: rest ∧ s.agentsAnswer = true ∧ t = s.gotCode r rest := by
  unfold State.readCode
  cases s.stream with
  | nil => simp
  | cons c rest =>
    by_cases h : s.agentsAnswer
    · simp only [h, if_true, Reply.answer.injEq, List.cons.injEq, true_and]
      constructor
      · rintro ⟨rfl, rfl⟩
        exact ⟨rest, ⟨rfl, rfl⟩, rfl⟩
      · rintro ⟨rest', ⟨rfl, rfl⟩, rfl⟩
        exact ⟨rfl, rfl⟩
    · simp [h]

/-- A request on the coded stream waits exactly when no code is there or the agents are silent. -/
theorem State.readCode_waits_iff (s t : State) (r : Request) :
    s.readCode r = .waits t ↔ (s.stream = [] ∨ s.agentsAnswer = false) ∧ t = s.await r := by
  unfold State.readCode
  cases s.stream with
  | nil => simp [eq_comm (a := s.await r)]
  | cons c rest =>
    by_cases h : s.agentsAnswer
    · simp [h]
    · simp only [h, Bool.false_eq_true, if_false, Reply.waits.injEq, reduceCtorEq, false_or, true_and]
      exact eq_comm

theorem State.readCode_not_refused (s : State) (r : Request) (f : Refusal) : s.readCode r ≠ .refused f := by
  unfold State.readCode
  cases s.stream with
  | nil => simp
  | cons c rest => by_cases h : s.agentsAnswer <;> simp [h]

theorem State.symRead_answer_iff (s t : State) (cls : SymClass) (sym : BitVec 4) :
    s.symRead cls = .answer sym t ↔
      ∃ code rest, s.stream = code :: rest ∧ s.agentsAnswer = true ∧ code.sym = sym ∧
        t = s.gotCode (.symRead cls s.ctx.regime) rest := by
  unfold State.symRead
  cases h : s.readCode (.symRead cls s.ctx.regime) with
  | answer code u =>
    obtain ⟨rest, hs, ha, rfl⟩ := (s.readCode_answer_iff u _ code).1 h
    simp only [Reply.answer.injEq]
    constructor
    · rintro ⟨rfl, rfl⟩
      exact ⟨code, rest, hs, ha, rfl, rfl⟩
    · rintro ⟨code', rest', hs', -, rfl, rfl⟩
      obtain ⟨rfl, rfl⟩ := List.cons.inj (hs.symm.trans hs')
      exact ⟨rfl, rfl⟩
  | waits u =>
    obtain ⟨hw, -⟩ := (s.readCode_waits_iff u _).1 h
    simp only [reduceCtorEq, false_iff, not_exists]
    rintro code rest ⟨hs, ha, -, -⟩
    rcases hw with hw | hw
    · simp [hw] at hs
    · simp [hw] at ha
  | refused f => exact absurd h (s.readCode_not_refused _ f)

theorem State.symRead_waits_iff (s t : State) (cls : SymClass) :
    s.symRead cls = .waits t ↔
      (s.stream = [] ∨ s.agentsAnswer = false) ∧ t = s.await (.symRead cls s.ctx.regime) := by
  rw [← s.readCode_waits_iff t]
  unfold State.symRead
  cases h : s.readCode (.symRead cls s.ctx.regime) <;> simp

theorem State.symRead_not_refused (s : State) (cls : SymClass) (f : Refusal) : s.symRead cls ≠ .refused f := by
  unfold State.symRead
  cases h : s.readCode (.symRead cls s.ctx.regime) with
  | answer _ _ => simp
  | waits _ => simp
  | refused g => exact absurd h (s.readCode_not_refused _ g)

theorem State.coefNext_answer_iff (s t : State) (a : CoefAnswer) :
    s.coefNext = .answer a t ↔
      ∃ code rest, s.stream = code :: rest ∧ s.agentsAnswer = true ∧ code.coef = a ∧
        t = s.gotCode (.coefNext s.ctx.codingset) rest := by
  unfold State.coefNext
  cases h : s.readCode (.coefNext s.ctx.codingset) with
  | answer code u =>
    obtain ⟨rest, hs, ha, rfl⟩ := (s.readCode_answer_iff u _ code).1 h
    simp only [Reply.answer.injEq]
    constructor
    · rintro ⟨rfl, rfl⟩
      exact ⟨code, rest, hs, ha, rfl, rfl⟩
    · rintro ⟨code', rest', hs', -, rfl, rfl⟩
      obtain ⟨rfl, rfl⟩ := List.cons.inj (hs.symm.trans hs')
      exact ⟨rfl, rfl⟩
  | waits u =>
    obtain ⟨hw, -⟩ := (s.readCode_waits_iff u _).1 h
    simp only [reduceCtorEq, false_iff, not_exists]
    rintro code rest ⟨hs, ha, -, -⟩
    rcases hw with hw | hw
    · simp [hw] at hs
    · simp [hw] at ha
  | refused f => exact absurd h (s.readCode_not_refused _ f)

theorem State.coefNext_waits_iff (s t : State) :
    s.coefNext = .waits t ↔
      (s.stream = [] ∨ s.agentsAnswer = false) ∧ t = s.await (.coefNext s.ctx.codingset) := by
  rw [← s.readCode_waits_iff t]
  unfold State.coefNext
  cases h : s.readCode (.coefNext s.ctx.codingset) <;> simp

theorem State.coefNext_not_refused (s : State) (f : Refusal) : s.coefNext ≠ .refused f := by
  unfold State.coefNext
  cases h : s.readCode (.coefNext s.ctx.codingset) with
  | answer _ _ => simp
  | waits _ => simp
  | refused g => exact absurd h (s.readCode_not_refused _ g)

theorem State.askPure_answer_iff {α : Type} (s t : State) (r : Request) (a b : α) :
    s.askPure r a = .answer b t ↔ s.agentsAnswer = true ∧ b = a ∧ t = s.answered r := by
  unfold State.askPure
  by_cases h : s.agentsAnswer <;> simp [h, eq_comm (a := a), eq_comm (a := s.answered r)]

theorem State.askPure_waits_iff {α : Type} (s t : State) (r : Request) (a : α) :
    s.askPure r a = .waits t ↔ s.agentsAnswer = false ∧ t = s.await r := by
  unfold State.askPure
  by_cases h : s.agentsAnswer <;> simp [h, eq_comm (a := s.await r)]

theorem State.askPure_not_refused {α : Type} (s : State) (r : Request) (a : α) (f : Refusal) :
    s.askPure r a ≠ .refused f := by
  unfold State.askPure
  by_cases h : s.agentsAnswer <;> simp [h]

/-- A byte is read exactly at an ordinary address whose memory answers. -/
theorem State.memRead_answer_iff (s t : State) (a : Addr) (b : Byte) :
    s.memRead a = .answer b t ↔
      s.areaAt a = none ∧ s.agentsAnswer = true ∧ b = s.byteAt a ∧ t = s.answered (.memRead a) := by
  unfold State.memRead
  cases s.areaAt a with
  | none => simp [State.askPure_answer_iff]
  | some k => cases k <;> simp

theorem State.memRead_waits_iff (s t : State) (a : Addr) :
    s.memRead a = .waits t ↔
      (s.areaAt a = some .unbacked ∨ s.areaAt a = none ∧ s.agentsAnswer = false) ∧
        t = s.await (.memRead a) := by
  unfold State.memRead
  cases s.areaAt a with
  | none => simp [State.askPure_waits_iff]
  | some k => cases k <;> simp [eq_comm (a := s.await (.memRead a))]

theorem State.memRead_refused_iff (s : State) (a : Addr) (f : Refusal) :
    s.memRead a = .refused f ↔ s.areaAt a = some .device ∧ f = .nonOrdinaryMemory a := by
  unfold State.memRead
  cases s.areaAt a with
  | none => simp [State.askPure_not_refused]
  | some k => cases k <;> simp [eq_comm (a := f)]

/-- A byte is written exactly at an ordinary address whose memory answers. -/
theorem State.memWrite_answer_iff (s t : State) (a : Addr) (b : Byte) (u : Unit) :
    s.memWrite a b = .answer u t ↔
      s.areaAt a = none ∧ s.agentsAnswer = true ∧ t = (s.answered (.memWrite a b)).setByte a b := by
  unfold State.memWrite State.askPure
  cases s.areaAt a with
  | none => by_cases h : s.agentsAnswer <;> simp [h, eq_comm (b := t)]
  | some k => cases k <;> simp

theorem State.memWrite_waits_iff (s t : State) (a : Addr) (b : Byte) :
    s.memWrite a b = .waits t ↔
      (s.areaAt a = some .unbacked ∨ s.areaAt a = none ∧ s.agentsAnswer = false) ∧
        t = s.await (.memWrite a b) := by
  unfold State.memWrite State.askPure
  cases s.areaAt a with
  | none => by_cases h : s.agentsAnswer <;> simp [h, eq_comm (b := t)]
  | some k => cases k <;> simp [eq_comm (b := t)]

theorem State.memWrite_refused_iff (s : State) (a : Addr) (b : Byte) (f : Refusal) :
    s.memWrite a b = .refused f ↔ s.areaAt a = some .device ∧ f = .nonOrdinaryMemory a := by
  unfold State.memWrite State.askPure
  cases s.areaAt a with
  | none => by_cases h : s.agentsAnswer <;> simp [h]
  | some k => cases k <;> simp [eq_comm (a := f)]

/-! ## Faults -/

theorem State.recordFault_first (s : State) (code : StatusCode) (sub : BitVec 2) (h : s.status.err = false) :
    (s.recordFault code sub).status = { err := true, errcode := code.bits, errsub := sub } := by
  simp [State.recordFault, h]

theorem State.recordFault_pending (s : State) (code : StatusCode) (sub : BitVec 2) (h : s.status.err = true) :
    s.recordFault code sub = s := by
  simp [State.recordFault, h]

/-- Taking a fault (R222): the record, the response, the return to `IDLE`; nothing else. -/
theorem State.raiseFault_eq (s : State) (code : StatusCode) (sub : BitVec 2) (h : code ≠ .ok) :
    s.raiseFault code sub =
      { s with
        status := (s.recordFault code sub).status
        responses := s.responses ++ [code.bits ++ (s.recordFault code sub).statusWord]
        phase := .idle } := by
  unfold State.raiseFault State.respond
  simp only [h, if_false, State.recordFault_responses, State.recordFault_cmdcnt]
  unfold State.recordFault
  split <;> rfl

/-! ## The sub-block loop -/

/-- Where the head of the loop with `n` sub-blocks left ends: at `FINISH` when all of them are empty, else at the
first that is not, whose placement loop starts at 0. -/
theorem State.enterFrom_cases (sh : Shape) (n : Nat) (s : State) (hn : n ≤ sh.nsub) :
    ((State.enterFrom sh n s).phase = .finish ∧
        (∀ k, sh.nsub - n ≤ k → k < sh.nsub → isEmptySub sh s.work.wsubpat k = true)) ∨
      ((State.enterFrom sh n s).phase = .pull ∧
        ∃ k, sh.nsub - n ≤ k ∧ k < sh.nsub ∧ isEmptySub sh s.work.wsubpat k = false ∧
          (∀ j, sh.nsub - n ≤ j → j < k → isEmptySub sh s.work.wsubpat j = true) ∧
          (State.enterFrom sh n s).work =
            { s.work with k := BitVec.ofNat 2 k, empty := false, cur := 0, cnt := 0 }) := by
  induction n generalizing s with
  | zero => exact .inl ⟨rfl, fun k h1 h2 => by omega⟩
  | succ n ih =>
    simp only [State.enterFrom]
    by_cases he : isEmptySub sh s.work.wsubpat (sh.nsub - (n + 1))
    · rw [if_pos he]
      rcases ih (s.setSub (sh.nsub - (n + 1)) true) (by omega) with h | h
      · refine .inl ⟨h.1, fun k h1 h2 => ?_⟩
        by_cases hk : k = sh.nsub - (n + 1)
        · rw [hk, he]
        · exact h.2 k (by omega) h2
      · obtain ⟨hp, k, h1, h2, h3, h4, h5⟩ := h
        refine .inr ⟨hp, k, by omega, h2, h3, fun j hj1 hj2 => ?_, h5⟩
        by_cases hk : j = sh.nsub - (n + 1)
        · rw [hk]
          exact he
        · exact h4 j (by omega) hj2
    · rw [if_neg he]
      simp only [Bool.not_eq_true] at he
      exact .inr ⟨rfl, _, le_refl _, by omega, he, fun j h1 h2 => by omega, rfl⟩

theorem State.enterFrom_wsubpat (sh : Shape) (n : Nat) (s : State) :
    (State.enterFrom sh n s).work.wsubpat = s.work.wsubpat := by
  induction n generalizing s with
  | zero => rfl
  | succ n ih => simp only [State.enterFrom]; split <;> simp [ih]

theorem State.enterFrom_wshape (sh : Shape) (n : Nat) (s : State) :
    (State.enterFrom sh n s).work.wshape = s.work.wshape := by
  induction n generalizing s with
  | zero => rfl
  | succ n ih => simp only [State.enterFrom]; split <;> simp [ih]

theorem State.enterFrom_raw (sh : Shape) (n : Nat) (s : State) :
    (State.enterFrom sh n s).work.raw = s.work.raw := by
  induction n generalizing s with
  | zero => rfl
  | succ n ih => simp only [State.enterFrom]; split <;> simp [ih]

theorem State.enterFrom_quant (sh : Shape) (n : Nat) (s : State) :
    (State.enterFrom sh n s).work.quant = s.work.quant := by
  induction n generalizing s with
  | zero => rfl
  | succ n ih => simp only [State.enterFrom]; split <;> simp [ih]

theorem State.enterFrom_scale (sh : Shape) (n : Nat) (s : State) :
    (State.enterFrom sh n s).work.scale = s.work.scale := by
  induction n generalizing s with
  | zero => rfl
  | succ n ih => simp only [State.enterFrom]; split <;> simp [ih]

/-! ## The steps of a `DECBLK` -/

/-- What a step that goes on can have done, phase by phase. -/
inductive Ticked (c : Cfg) (s : State) : State → Prop
  /-- the checks, the clear and the derivation (R112 to R114) -/
  | check (h : s.phase = .check) : Ticked c s s.checkBlock
  /-- `RAW` from the command (R128) -/
  | rawGiven (h : s.phase = .select) (hr : s.cont.rawDone = false) (hn : s.cont.ops.noshape = false) :
      Ticked c s (s.setRaw s.cont.ops.ttcode)
  /-- `RAW` from the stream (R128) -/
  | rawRead (h : s.phase = .select) (hr : s.cont.rawDone = false) (hn : s.cont.ops.noshape = true)
      (code : Code) (rest : List Code) (hs : s.stream = code :: rest) (ha : s.agentsAnswer = true) :
      Ticked c s
        ((s.gotCode (.symRead .ttblk s.ctx.regime) rest).setRaw (code.sym.setWidth 3))
  /-- a sub-pattern without a read (R129, R133) -/
  | patGiven (h : s.phase = .select) (hr : s.cont.rawDone = true)
      (hp : patternRead (rawShapeOf s.work.raw) s.cont.ops.noshape s.cont.ops.first s.ctx.patf s.ctx.resred = none) :
      Ticked c s (s.selected (orientedSubpat c.orient (rawShapeOf s.work.raw)))
  /-- a sub-pattern read from the stream (R130, R132) -/
  | patRead (h : s.phase = .select) (hr : s.cont.rawDone = true) (cls : SymClass)
      (hp : patternRead (rawShapeOf s.work.raw) s.cont.ops.noshape s.cont.ops.first s.ctx.patf s.ctx.resred
        = some cls)
      (code : Code) (rest : List Code) (hs : s.stream = code :: rest) (ha : s.agentsAnswer = true) :
      Ticked c s
        ((s.gotCode (.symRead cls s.ctx.regime) rest).selected (subpatOfSym cls code.sym))
  /-- one coefficient request (R159) -/
  | pull (h : s.phase = .pull) (code : Code) (rest : List Code) (hs : s.stream = code :: rest)
      (ha : s.agentsAnswer = true) :
      Ticked c s
        ((s.gotCode (.coefNext s.ctx.codingset) rest).takeTriple c code.coef)
  /-- the transform request (R175) -/
  | transform (h : s.phase = .recon) (hr : s.cont.res = none) (ha : s.agentsAnswer = true) :
      Ticked c s
        ((s.answered (.itxCall (shapeCode s.shape) (s.itxKind c) s.coeffs)).setRes
          (itxSamples c s.shape (s.itxKind c) s.coeffs))
  /-- the read of a pixel (R175) -/
  | pixelRead (h : s.phase = .recon) (res : List Sample) (hr : s.cont.res = some res) (ho : s.cont.old = none)
      (hm : s.areaAt (s.pixelAddr s.cont.pix) = none) (ha : s.agentsAnswer = true) :
      Ticked c s
        ((s.answered (.memRead (s.pixelAddr s.cont.pix))).setOld (s.byteAt (s.pixelAddr s.cont.pix)))
  /-- the write of a pixel (R175, R182) -/
  | pixelWrite (h : s.phase = .recon) (res : List Sample) (hr : s.cont.res = some res) (old : Byte)
      (ho : s.cont.old = some old) (hm : s.areaAt (s.pixelAddr s.cont.pix) = none) (ha : s.agentsAnswer = true) :
      Ticked c s
        (((s.answered (.memWrite (s.pixelAddr s.cont.pix) (accumulate old (sampleAt res s.cont.pix)))).setByte
          (s.pixelAddr s.cont.pix) (accumulate old (sampleAt res s.cont.pix))).pixelDone)
  /-- the results (R110) -/
  | finish (h : s.phase = .finish) : Ticked c s s.finishBlock

/-- A step goes on exactly as one of the cases of `Ticked`. -/
theorem tick_answer_iff (c : Cfg) (s t : State) : tick c s = .answer () t ↔ Ticked c s t := by
  constructor
  · intro h
    cases hp : s.phase with
    | idle => simp [tick, hp] at h
    | exec => simp [tick, hp] at h
    | check =>
      simp only [tick, hp, Reply.answer.injEq, true_and] at h
      exact h ▸ .check hp
    | finish =>
      simp only [tick, hp, Reply.answer.injEq, true_and] at h
      exact h ▸ .finish hp
    | select =>
      simp only [tick, hp, tickSelect] at h
      cases hr : s.cont.rawDone with
      | true =>
        simp only [hr, if_true] at h
        split at h
        · next hq =>
          simp only [Reply.answer.injEq, true_and] at h
          exact h ▸ .patGiven hp hr hq
        · next cls hq =>
          cases hs : s.symRead cls with
          | answer sym u =>
            rw [hs] at h
            obtain ⟨code, rest, h1, h2, rfl, rfl⟩ := (s.symRead_answer_iff u cls sym).1 hs
            simp only [Reply.answer.injEq, true_and] at h
            exact h ▸ .patRead hp hr cls hq code rest h1 h2
          | waits u => simp [hs] at h
          | refused f => simp [hs] at h
      | false =>
        simp only [hr, Bool.false_eq_true, if_false] at h
        cases hn : s.cont.ops.noshape with
        | true =>
          simp only [hn, if_true] at h
          cases hs : s.symRead .ttblk with
          | answer sym u =>
            rw [hs] at h
            obtain ⟨code, rest, h1, h2, rfl, rfl⟩ := (s.symRead_answer_iff u _ sym).1 hs
            simp only [Reply.answer.injEq, true_and] at h
            exact h ▸ .rawRead hp hr hn code rest h1 h2
          | waits u => simp [hs] at h
          | refused f => simp [hs] at h
        | false =>
          simp only [hn, Bool.false_eq_true, if_false, Reply.answer.injEq, true_and] at h
          exact h ▸ .rawGiven hp hr hn
    | pull =>
      simp only [tick, hp, tickPull] at h
      cases hs : s.coefNext with
      | answer a u =>
        rw [hs] at h
        obtain ⟨code, rest, h1, h2, rfl, rfl⟩ := (s.coefNext_answer_iff u a).1 hs
        simp only [Reply.answer.injEq, true_and] at h
        exact h ▸ .pull hp code rest h1 h2
      | waits u => simp [hs] at h
      | refused f => simp [hs] at h
    | recon =>
      simp only [tick, hp, tickRecon] at h
      cases hr : s.cont.res with
      | none =>
        simp only [hr] at h
        cases hs : s.itxCall c with
        | answer a u =>
          rw [hs] at h
          obtain ⟨h1, rfl, rfl⟩ := (s.askPure_answer_iff u _ _ a).1 hs
          simp only [Reply.answer.injEq, true_and] at h
          exact h ▸ .transform hp hr h1
        | waits u => simp [hs] at h
        | refused f => simp [hs] at h
      | some res =>
        simp only [hr] at h
        cases ho : s.cont.old with
        | none =>
          simp only [ho] at h
          cases hs : s.memRead (s.pixelAddr s.cont.pix) with
          | answer b u =>
            rw [hs] at h
            obtain ⟨h1, h2, rfl, rfl⟩ := (s.memRead_answer_iff u _ b).1 hs
            simp only [Reply.answer.injEq, true_and] at h
            exact h ▸ .pixelRead hp res hr ho h1 h2
          | waits u => simp [hs] at h
          | refused f => simp [hs] at h
        | some old =>
          simp only [ho] at h
          cases hs : s.memWrite (s.pixelAddr s.cont.pix) (accumulate old (sampleAt res s.cont.pix)) with
          | answer b u =>
            rw [hs] at h
            obtain ⟨h1, h2, rfl⟩ := (s.memWrite_answer_iff u _ _ b).1 hs
            simp only [Reply.answer.injEq, true_and] at h
            exact h ▸ .pixelWrite hp res hr old ho h1 h2
          | waits u => simp [hs] at h
          | refused f => simp [hs] at h
  · intro h
    cases h with
    | check h => simp [tick, h]
    | finish h => simp [tick, h]
    | rawGiven h hr hn => simp [tick, h, tickSelect, hr, hn]
    | rawRead h hr hn code rest hs ha =>
      simp only [tick, h, tickSelect, hr, hn, if_true, Bool.false_eq_true, if_false]
      rw [(s.symRead_answer_iff _ _ _).2 ⟨code, rest, hs, ha, rfl, rfl⟩]
    | patGiven h hr hp => simp [tick, h, tickSelect, hr, hp]
    | patRead h hr cls hp code rest hs ha =>
      simp only [tick, h, tickSelect, hr, hp, if_true]
      rw [(s.symRead_answer_iff _ _ _).2 ⟨code, rest, hs, ha, rfl, rfl⟩]
    | pull h code rest hs ha =>
      simp only [tick, h, tickPull]
      rw [(s.coefNext_answer_iff _ _).2 ⟨code, rest, hs, ha, rfl, rfl⟩]
    | transform h hr ha =>
      simp only [tick, h, tickRecon, hr]
      unfold State.itxCall
      rw [(s.askPure_answer_iff _ _ _ _).2 ⟨ha, rfl, rfl⟩]
    | pixelRead h res hr ho hm ha =>
      simp only [tick, h, tickRecon, hr, ho]
      rw [(s.memRead_answer_iff _ _ _).2 ⟨hm, ha, rfl, rfl⟩]
    | pixelWrite h res hr old ho hm ha =>
      simp only [tick, h, tickRecon, hr, ho]
      rw [(s.memWrite_answer_iff _ _ _ ()).2 ⟨hm, ha, rfl⟩]

/-- A step that waits leaves a request outstanding, or has nothing to do; it changes nothing else. -/
theorem tick_waits (c : Cfg) (s t : State) (h : tick c s = .waits t) :
    (∃ r, t = s.await r) ∨ (s.phase = .idle ∨ s.phase = .exec) ∧ t = s := by
  cases hp : s.phase with
  | idle => simp only [tick, hp, Reply.waits.injEq] at h; exact .inr ⟨.inl rfl, h.symm⟩
  | exec => simp only [tick, hp, Reply.waits.injEq] at h; exact .inr ⟨.inr rfl, h.symm⟩
  | check => simp [tick, hp] at h
  | finish => simp [tick, hp] at h
  | select =>
    refine .inl ?_
    simp only [tick, hp, tickSelect] at h
    split at h
    · split at h
      · simp at h
      · next cls hq =>
        cases hs : s.symRead cls with
        | answer sym u => simp [hs] at h
        | waits u =>
          simp only [hs, Reply.waits.injEq] at h
          exact ⟨_, h ▸ ((s.symRead_waits_iff u cls).1 hs).2⟩
        | refused f => simp [hs] at h
    · split at h
      · cases hs : s.symRead .ttblk with
        | answer sym u => simp [hs] at h
        | waits u =>
          simp only [hs, Reply.waits.injEq] at h
          exact ⟨_, h ▸ ((s.symRead_waits_iff u _).1 hs).2⟩
        | refused f => simp [hs] at h
      · simp at h
  | pull =>
    refine .inl ?_
    simp only [tick, hp, tickPull] at h
    cases hs : s.coefNext with
    | answer a u => simp [hs] at h
    | waits u =>
      simp only [hs, Reply.waits.injEq] at h
      exact ⟨_, h ▸ ((s.coefNext_waits_iff u).1 hs).2⟩
    | refused f => simp [hs] at h
  | recon =>
    refine .inl ?_
    simp only [tick, hp, tickRecon] at h
    cases hr : s.cont.res with
    | none =>
      simp only [hr] at h
      cases hs : s.itxCall c with
      | answer a u => simp [hs] at h
      | waits u =>
        simp only [hs, Reply.waits.injEq] at h
        exact ⟨_, h ▸ ((s.askPure_waits_iff u _ _).1 hs).2⟩
      | refused f => simp [hs] at h
    | some res =>
      simp only [hr] at h
      cases ho : s.cont.old with
      | none =>
        simp only [ho] at h
        cases hs : s.memRead (s.pixelAddr s.cont.pix) with
        | answer b u => simp [hs] at h
        | waits u =>
          simp only [hs, Reply.waits.injEq] at h
          exact ⟨_, h ▸ ((s.memRead_waits_iff u _).1 hs).2⟩
        | refused f => simp [hs] at h
      | some old =>
        simp only [ho] at h
        cases hs : s.memWrite (s.pixelAddr s.cont.pix) (accumulate old (sampleAt res s.cont.pix)) with
        | answer b u => simp [hs] at h
        | waits u =>
          simp only [hs, Reply.waits.injEq] at h
          exact ⟨_, h ▸ ((s.memWrite_waits_iff u _ _).1 hs).2⟩
        | refused f => simp [hs] at h

/-! ## Runs -/

/-- Unfolding one step of a run. -/
theorem run_succ (c : Cfg) (n : Nat) (s : State) (h : s.phase ≠ .idle) :
    run c (n + 1) s =
      match tick c s with
      | .answer _ t => run c n t
      | .waits t => .next t
      | .refused r => .refused r := by
  cases ht : tick c s <;> simp [run, h, ht]

theorem run_idle (c : Cfg) (n : Nat) (s : State) (h : s.phase = .idle) : run c n s = .next s := by
  cases n <;> simp [run, h]

theorem run_not_fault (c : Cfg) (n : Nat) (s : State) (f : Fault) : run c n s ≠ .fault f := nomatch f

/-- The induction along a run, packaged once: what every step and every wait keeps holds of the state the run
ends in. -/
theorem run_induct {P : State → Prop} (c : Cfg)
    (hstep : ∀ s t, P s → s.phase ≠ .idle → Ticked c s t → P t)
    (hwait : ∀ s r, P s → s.phase ≠ .idle → P (s.await r)) :
    ∀ n s t, P s → run c n s = .next t → P t := by
  intro n
  induction n with
  | zero =>
    intro s t hs h
    simp only [run, Host.Outcome.next.injEq] at h
    exact h ▸ hs
  | succ n ih =>
    intro s t hs h
    by_cases hi : s.phase = .idle
    · rw [run_idle c _ s hi, Host.Outcome.next.injEq] at h
      exact h ▸ hs
    · rw [run_succ c n s hi] at h
      cases ht : tick c s with
      | answer u v =>
        rw [ht] at h
        exact ih v t (hstep s v hs hi ((tick_answer_iff c s v).1 ht)) h
      | waits v =>
        rw [ht, Host.Outcome.next.injEq] at h
        subst h
        rcases tick_waits c s v ht with ⟨r, rfl⟩ | ⟨-, rfl⟩
        · exact hwait s r hs hi
        · exact hs
      | refused r => simp [ht] at h

/-- The cases of a step of the machine. -/
theorem step_cases (s : State) :
    (s.resetPin = true ∧ step s = .next s.applyReset) ∨
      (s.resetPin = false ∧ s.phase = .idle ∧ s.cmds = [] ∧ step s = .next s) ∨
      (∃ w rest, s.resetPin = false ∧ s.phase = .idle ∧ s.cmds = w :: rest ∧
        step s = execWord w (s.accept rest)) ∨
      (s.resetPin = false ∧ s.phase ≠ .idle ∧ step s = run Config.vrd decblkFuel s) := by
  unfold step resume
  cases s.resetPin with
  | true => simp
  | false =>
    by_cases hp : s.phase = .idle
    · cases hc : s.cmds with
      | nil => simp [hp]
      | cons w rest => simp [hp]
    · simp [hp]

/-- What the decoder and the command port make of a word. -/
theorem execWord_cases (w : Command) (s : State) :
    (∃ i, decode w = .command i ∧ execWord w s = exec i s) ∨
      (∃ e, decode w = .illegal e ∧ execWord w s = .next (s.illegalCommand w.op)) := by
  unfold execWord
  cases h : decode w with
  | command i => exact .inl ⟨i, rfl, rfl⟩
  | illegal e => exact .inr ⟨e, rfl, rfl⟩

end Sys2Proof.Machine
end

