-- ==== Sys2Proof/Laws/Frame.lean ====
section
/-! SUPPORT. What no step of a `DECBLK` changes: the configuration registers (`spec/20_memory.md` rule R53,
`spec/70_reset_and_hazards.md` rule R257), the parts of the environment that are not behind a requester port, and the
operands of the command. -/

namespace Sys2Proof.Machine

open Sys2Proof

/-- `t` has the configuration, the command operands and the passive environment of `s`. -/
structure SameSetting (s t : State) : Prop where
  qctx : t.qctx = s.qctx
  ctx : t.ctx = s.ctx
  dstbase : t.dstbase = s.dstbase
  dststride : t.dststride = s.dststride
  cfgv : t.cfgv = s.cfgv
  draws : t.draws = s.draws
  cmds : t.cmds = s.cmds
  resetPin : t.resetPin = s.resetPin
  platform : t.platform = s.platform
  ops : t.cont.ops = s.cont.ops

theorem SameSetting.refl (s : State) : SameSetting s s := ⟨rfl, rfl, rfl, rfl, rfl, rfl, rfl, rfl, rfl, rfl⟩

theorem SameSetting.trans {s t u : State} (h : SameSetting s t) (g : SameSetting t u) : SameSetting s u :=
  ⟨g.qctx.trans h.qctx, g.ctx.trans h.ctx, g.dstbase.trans h.dstbase, g.dststride.trans h.dststride,
    g.cfgv.trans h.cfgv, g.draws.trans h.draws, g.cmds.trans h.cmds, g.resetPin.trans h.resetPin,
    g.platform.trans h.platform, g.ops.trans h.ops⟩

theorem State.raiseFault_setting (s : State) (code : StatusCode) (sub : BitVec 2) :
    SameSetting s (s.raiseFault code sub) := by
  unfold State.raiseFault State.respond State.recordFault
  cases s.status.err <;> exact ⟨rfl, rfl, rfl, rfl, rfl, rfl, rfl, rfl, rfl, rfl⟩

theorem State.enterFrom_setting (sh : Shape) (n : Nat) (s : State) : SameSetting s (State.enterFrom sh n s) := by
  constructor <;> simp

theorem State.nextSub_setting (s : State) : SameSetting s s.nextSub := State.enterFrom_setting _ _ s

theorem State.endPull_setting (s : State) : SameSetting s s.endPull := by
  have h : SameSetting s (s.setPlaced s.work.k.toNat s.work.cnt) :=
    ⟨rfl, rfl, rfl, rfl, rfl, rfl, rfl, rfl, rfl, rfl⟩
  unfold State.endPull
  split
  · exact h.trans (State.nextSub_setting _)
  · exact h.trans ⟨rfl, rfl, rfl, rfl, rfl, rfl, rfl, rfl, rfl, rfl⟩

theorem State.takeTriple_setting (c : Cfg) (s : State) (a : CoefAnswer) : SameSetting s (s.takeTriple c a) := by
  unfold State.takeTriple
  split
  · exact SameSetting.trans (t := s.setPlaced s.work.k.toNat s.work.cnt)
      ⟨rfl, rfl, rfl, rfl, rfl, rfl, rfl, rfl, rfl, rfl⟩ (State.raiseFault_setting _ _ _)
  · have h : SameSetting s (s.advance a) := ⟨rfl, rfl, rfl, rfl, rfl, rfl, rfl, rfl, rfl, rfl⟩
    have g : SameSetting s ((s.advance a).place c a.value) :=
      ⟨rfl, rfl, rfl, rfl, rfl, rfl, rfl, rfl, rfl, rfl⟩
    split
    · exact h.trans (State.endPull_setting _)
    · split
      · exact g.trans (State.endPull_setting _)
      · exact g

theorem State.selected_setting (s : State) (w : BitVec 4) : SameSetting s (s.selected w) :=
  SameSetting.trans (t := s.setShape (shapeCode (canonical (rawShapeOf s.work.raw))) w)
    ⟨rfl, rfl, rfl, rfl, rfl, rfl, rfl, rfl, rfl, rfl⟩ (State.enterFrom_setting _ _ _)

/-- A step that goes on changes no configuration register, no operand of the command and nothing of the passive
environment. -/
theorem Ticked.setting {c : Cfg} {s t : State} (h : Ticked c s t) : SameSetting s t := by
  cases h with
  | check =>
    unfold State.checkBlock
    split
    · exact s.raiseFault_setting _ _
    · split
      · exact s.raiseFault_setting _ _
      · exact ⟨rfl, rfl, rfl, rfl, rfl, rfl, rfl, rfl, rfl, rfl⟩
  | rawGiven => exact ⟨rfl, rfl, rfl, rfl, rfl, rfl, rfl, rfl, rfl, rfl⟩
  | rawRead => exact ⟨rfl, rfl, rfl, rfl, rfl, rfl, rfl, rfl, rfl, rfl⟩
  | patGiven => exact s.selected_setting _
  | patRead _ _ cls _ code rest =>
    exact SameSetting.trans (t := s.gotCode (.symRead cls s.ctx.regime) rest)
      ⟨rfl, rfl, rfl, rfl, rfl, rfl, rfl, rfl, rfl, rfl⟩ (State.selected_setting _ _)
  | pull _ code rest =>
    exact SameSetting.trans (t := s.gotCode (.coefNext s.ctx.codingset) rest)
      ⟨rfl, rfl, rfl, rfl, rfl, rfl, rfl, rfl, rfl, rfl⟩ (State.takeTriple_setting c _ _)
  | transform => exact ⟨rfl, rfl, rfl, rfl, rfl, rfl, rfl, rfl, rfl, rfl⟩
  | pixelRead => exact ⟨rfl, rfl, rfl, rfl, rfl, rfl, rfl, rfl, rfl, rfl⟩
  | pixelWrite _ res _ old =>
    unfold State.pixelDone
    split
    · exact ⟨rfl, rfl, rfl, rfl, rfl, rfl, rfl, rfl, rfl, rfl⟩
    · exact SameSetting.trans (t := ((s.answered (.memWrite (s.pixelAddr s.cont.pix)
        (accumulate old (sampleAt res s.cont.pix)))).setByte (s.pixelAddr s.cont.pix)
          (accumulate old (sampleAt res s.cont.pix))).nextPixel)
        ⟨rfl, rfl, rfl, rfl, rfl, rfl, rfl, rfl, rfl, rfl⟩ (State.nextSub_setting _)
  | finish =>
    unfold State.finishBlock State.updateTtacc
    split <;> exact ⟨rfl, rfl, rfl, rfl, rfl, rfl, rfl, rfl, rfl, rfl⟩

theorem Shape.nsub_le (sh : Shape) : sh.nsub ≤ 4 := by cases sh <;> decide

/-- Where the head of the loop stands, in the terms of the statements. -/
theorem State.enterFrom_enters (sh : Shape) (n : Nat) (s : State) (hn : n ≤ sh.nsub) :
    EntersLoop sh s.work.wsubpat (sh.nsub - n) (State.enterFrom sh n s) := by
  rcases State.enterFrom_cases sh n s hn with h | ⟨hp, k, h1, h2, h3, h4, h5⟩
  · exact .inl h
  · have hk : (State.enterFrom sh n s).work.k.toNat = k := by
      rw [h5]
      exact Nat.mod_eq_of_lt (lt_of_lt_of_le h2 (Shape.nsub_le sh))
    exact .inr ⟨hp, by rw [h5], by rw [h5], by rw [h5], hk ▸ h1, hk ▸ h2, hk ▸ h3, by rw [hk]; exact h4⟩

end Sys2Proof.Machine
end

