-- ==== Sys2Proof/Laws/PerInstr.lean ====
section
/-! SUPPORT. The family of lemmas about the syntax of each command: where the encoder puts the opcode and the
operands, and that it sets no reserved bit (`spec/30_encoding.md` rules R70, R75, R78). -/

namespace Sys2Proof

theorem Command.op_append (o : BitVec 4) (d : Word) : Command.op (o ++ d) = o := by
  apply BitVec.eq_of_getLsbD_eq
  intro j hj
  unfold Command.op
  rw [BitVec.getLsbD_extractLsb', BitVec.getLsbD_append, if_neg (by omega), Nat.add_sub_cancel_left,
    decide_eq_true hj, Bool.true_and]

theorem Command.data_append (o : BitVec 4) (d : Word) : Command.data (o ++ d) = d := by
  apply BitVec.eq_of_getLsbD_eq
  intro j hj
  unfold Command.data
  rw [BitVec.getLsbD_extractLsb', BitVec.getLsbD_append, if_pos (by omega), Nat.zero_add, decide_eq_true hj,
    Bool.true_and]

@[simp] theorem encode_op (i : Instr) : (encode i).op = i.opcode := Command.op_append _ _

@[simp] theorem encode_data (i : Instr) : (encode i).data = i.operands := Command.data_append _ _

namespace Laws.Layout

/-- The word of a command carries the command's opcode and operand word, the opcode is one of the ten, and no bit
that the opcode's format reserves is 1. -/
def Statement (i : Instr) : Prop :=
  (encode i).op = i.opcode ∧ (encode i).data = i.operands ∧ i.opcode.toNat < 10 ∧
    i.operands &&& rsvMask i.opcode = 0

/-- The statement from its last two clauses. -/
theorem of_operands {i : Instr} (ho : i.opcode.toNat < 10) (hm : i.operands &&& rsvMask i.opcode = 0) :
    Statement i :=
  ⟨encode_op i, encode_data i, ho, hm⟩

theorem nop : Statement .nop := of_operands (by decide) (by decide)

theorem setq (m : BitVec 8) (h p : Bool) : Statement (.setq m h p) := by
  refine of_operands (show (1 : Nat) < 10 by decide) ?_
  show Instr.operands (.setq m h p) &&& 0xFFFFFC00 = 0
  cases h <;> cases p <;> revert m <;> decide

theorem setctx (r : Bool) (c : BitVec 3) (f d : Bool) : Statement (.setctx r c f d) := by
  refine of_operands (show (2 : Nat) < 10 by decide) ?_
  show Instr.operands (.setctx r c f d) &&& 0xFFFFFFC0 = 0
  revert r c f d
  decide

theorem setbase (a : Addr) : Statement (.setbase a) :=
  of_operands (show (3 : Nat) < 10 by decide) (BitVec.and_zero (x := a))

theorem setstride (d : Word) : Statement (.setstride d) :=
  of_operands (show (4 : Nat) < 10 by decide) (BitVec.and_zero (x := d))

theorem decblk (t : BitVec 3) (n f k o : Bool) (b : BitVec 3) : Statement (.decblk t n f k o b) := by
  refine of_operands (show (5 : Nat) < 10 by decide) ?_
  show Instr.operands (.decblk t n f k o b) &&& 0xFFFFF880 = 0
  cases n <;> cases f <;> cases k <;> cases o <;> revert t b <;> decide

theorem clracc : Statement .clracc := of_operands (by decide) (by decide)

theorem rdreg (r : BitVec 4) : Statement (.rdreg r) := by
  refine of_operands (show (7 : Nat) < 10 by decide) ?_
  show Instr.operands (.rdreg r) &&& 0xFFFFFFF0 = 0
  revert r
  decide

theorem rdblk (x : BitVec 6) : Statement (.rdblk x) := by
  refine of_operands (show (8 : Nat) < 10 by decide) ?_
  show Instr.operands (.rdblk x) &&& 0xFFFFFFC0 = 0
  revert x
  decide

theorem clrerr : Statement .clrerr := of_operands (by decide) (by decide)

end Laws.Layout

end Sys2Proof
end

