-- ==== Sys2Proof/Tests/Slice0.lean ====
section
/-! SUPPORT. The tests of the model: well-formedness, decoding, one step of each command, and for every statement
that has hypotheses a witness that meets them. Expected values are those of `spec/95_test_vectors.md` and of the
worked examples of the rules named, or are computed by hand from the rules. -/

namespace Sys2Proof.Tests

open Sys2Proof Sys2Proof.Machine

/-! ## Helpers -/

/-- The outcome is a next state of which `p` holds. -/
def ends (o : Host.Outcome State Fault Refusal) (p : State → Bool) : Bool :=
  match o with
  | .next t => p t
  | .fault _ => false
  | .refused _ => false

theorem ends_exists {o : Host.Outcome State Fault Refusal} {p : State → Bool} (h : ends o p = true) :
    ∃ t, o = .next t ∧ p t = true := by
  cases o with
  | next t => exact ⟨t, rfl, h⟩
  | fault f => cases h
  | refused r => cases h

/-- The outcome is the refusal of a device address. -/
def endsAtDevice (o : Host.Outcome State Fault Refusal) (a : Addr) : Bool :=
  match o with
  | .next _ => false
  | .fault _ => false
  | .refused r => r == .nonOrdinaryMemory a

/-- A code that answers a symbol read. -/
def symCode (x : BitVec 4) : Code := { sym := x, coef := { err := true, last := true, skip := 0, value := 0 } }

/-- A code that answers a coefficient request with `(last, skip, value)`. -/
def coefCode (last : Bool) (skip : BitVec 32) (value : BitVec 32) : Code :=
  { sym := 0, coef := { err := false, last := last, skip := skip, value := value } }

/-- A code that answers a coefficient request with `err = 1`. -/
def errCode : Code := { sym := 0, coef := { err := true, last := false, skip := 5, value := 5 } }

/-- A VRD configured with `setq 4,0,0`, `setctx prog,0,0,0`, `setbase 0x2000`, `setstride 8`, before a stream. -/
def ready (stream : List Code) : State :=
  { State.reset with
    qctx := { mquant := 4, halfqp := false, pquantizer := false }
    dstbase := 0x2000
    dststride := 8
    cfgv := 0b1111
    stream := stream }

/-- The test configuration `TCFG` of `spec/95_test_vectors.md` section 1, progressive order in both regimes. -/
def tcfg : Cfg where
  scan _ _ := Equiv.refl _
  scan_dc := rfl
  itxFull _ coeffs _ := BitVec.ofInt 16 ((coeffs.map BitVec.toInt).sum / 8)
  itxDc _ coeffs _ := BitVec.ofInt 16 ((coeffs.map BitVec.toInt).sum / 8)
  itx_contract _ _ _ := rfl
  dcSelect := .countEq1
  orient := { top := 2, bottom := 1, left := 2, right := 1 }

/-! ## Well-formedness: an ill-formed term for each check (R77 (c), (d)) -/

theorem test_wf_rdreg_reserved : ¬ WellFormed (.rdreg 10) := by decide

theorem test_wf_rdreg_last : WellFormed (.rdreg 9) := by decide

theorem test_wf_decblk_shape_conflict : ¬ WellFormed (.decblk 1 true false false false 0) := by decide

theorem test_wf_decblk_noshape : WellFormed (.decblk 0 true false false false 0) := by decide

/-! ## Decoding: words written out field by field from the tables of R75 -/

theorem test_decode_nop : decode (0b0000#4 ++ 0#32) = .command .nop := by decide

/-- `setq -5, 1, 0` -/
theorem test_decode_setq :
    decode (0b0001#4 ++ (0#22 ++ 0b0#1 ++ 0b1#1 ++ 0b11111011#8)) = .command (.setq 0xFB true false) := by
  decide

/-- `setctx intl, 5, 0, 1` -/
theorem test_decode_setctx :
    decode (0b0010#4 ++ (0#26 ++ 0b1#1 ++ 0b0#1 ++ 0b101#3 ++ 0b1#1)) =
      .command (.setctx true 5 false true) := by
  decide

/-- `setbase 0xFFFFFFF0` -/
theorem test_decode_setbase :
    decode (0b0011#4 ++ 0b11111111111111111111111111110000#32) = .command (.setbase 0xFFFFFFF0) := by decide

/-- `setstride -8` -/
theorem test_decode_setstride :
    decode (0b0100#4 ++ 0b11111111111111111111111111111000#32) = .command (.setstride (-8)) := by decide

/-- `decblk 8x4, 5, skip` -/
theorem test_decode_decblk :
    decode (0b0101#4 ++ (0#21 ++ 0b101#3 ++ 0b0#1 ++ 0b0#1 ++ 0b1#1 ++ 0b0#1 ++ 0b0#1 ++ 0b011#3)) =
      .command (.decblk 3 false false true false 5) := by
  decide

/-- `decblk none, 1, ttout` -/
theorem test_decode_decblk_noshape :
    decode (0b0101#4 ++ (0#21 ++ 0b001#3 ++ 0b0#1 ++ 0b1#1 ++ 0b0#1 ++ 0b0#1 ++ 0b1#1 ++ 0b000#3)) =
      .command (.decblk 0 true false false true 1) := by
  decide

theorem test_decode_clracc : decode (0b0110#4 ++ 0#32) = .command .clracc := by decide

/-- `rdreg status` -/
theorem test_decode_rdreg : decode (0b0111#4 ++ (0#28 ++ 0b0111#4)) = .command (.rdreg 7) := by decide

/-- `rdblk 63` -/
theorem test_decode_rdblk : decode (0b1000#4 ++ (0#26 ++ 0b111111#6)) = .command (.rdblk 63) := by decide

theorem test_decode_clrerr : decode (0b1001#4 ++ 0#32) = .command .clrerr := by decide

/-- The illegal words of `spec/95_test_vectors.md` section 3.1, by kind. -/
theorem test_decode_illegal_opcode :
    decode 0xA00000000 = .illegal .reservedOpcode ∧ decode 0xFFFFFFFFF = .illegal .reservedOpcode := by
  decide

theorem test_decode_illegal_bit :
    decode 0x000000001 = .illegal .reservedBit ∧ decode 0x680000000 = .illegal .reservedBit ∧
      decode 0x900000100 = .illegal .reservedBit ∧ decode 0x100000400 = .illegal .reservedBit ∧
      decode 0x200000040 = .illegal .reservedBit ∧ decode 0x500000080 = .illegal .reservedBit ∧
      decode 0x500000800 = .illegal .reservedBit ∧ decode 0x700000010 = .illegal .reservedBit ∧
      decode 0x800000040 = .illegal .reservedBit := by
  decide

theorem test_decode_illegal_field :
    decode 0x70000000A = .illegal .reservedRegister ∧ decode 0x500000009 = .illegal .shapeConflict := by
  decide

theorem test_encode_decblk : encode (.decblk 5 false true true true 7) = 0x500000775 := by decide

theorem test_decode_table_word : decodeTableWord 40 0x1000001FB = some (.setq 0xFB true false) := by decide

/-! ## One step of each command -/

/-- R90 -/
theorem test_nop : ends (step (State.reset.withFetchWord 36 0x000000000)) (fun t =>
    t.responses == [0x000000000] && t.cmdcnt == 1) = true := by
  decide

/-- R91 -/
theorem test_setq : ends (step (State.reset.withFetchWord 36 0x1000001FB)) (fun t =>
    t.regVal 0 == 0x1FB && t.regVal 7 == 0x1000) = true := by
  decide

/-- R92 -/
theorem test_setctx : ends (step (State.reset.withFetchWord 36 0x200000015)) (fun t =>
    t.regVal 1 == 0x15 && t.regVal 7 == 0x2000) = true := by
  decide

/-- R93 -/
theorem test_setbase : ends (step (State.reset.withFetchWord 36 0x300001000)) (fun t =>
    t.regVal 2 == 0x1000 && t.regVal 7 == 0x4000) = true := by
  decide

/-- R94 -/
theorem test_setstride : ends (step (State.reset.withFetchWord 36 0x4FFFFFFF0)) (fun t =>
    t.dststride.toInt == -16 && t.regVal 7 == 0x8000) = true := by
  decide

/-- R95 -/
theorem test_clracc : ends (exec .clracc { State.reset with ttacc := 0x730 }) (fun t =>
    t.regVal 4 == 0 && t.responses == [0]) = true := by
  decide

/-- R96: `CMDCNT` is returned as it stands before the command's own count. -/
theorem test_rdreg_cmdcnt : ends (exec (.rdreg 8) { State.reset with cmdcnt := 11 }) (fun t =>
    t.responses == [0x00000000B] && t.cmdcnt == 12) = true := by
  decide

/-- R239 example 9: `rdreg 12` while a fault is pending. -/
theorem test_rdreg_reserved_while_faulted :
    ends (step ({ State.reset with
        cfgv := 0b1111, status := { err := true, errcode := 4, errsub := 2 } }.withFetchWord 36 0x70000000C))
      (fun t => t.responses == [0x10000F241] && t.regVal 7 == 0xF241 && t.cmdcnt == 0) = true := by
  decide

/-- R97: a cell of -44 reads `0xFFFFFFD4`. -/
theorem test_rdblk : ends (exec (.rdblk 63) { State.reset with
      blk := Vector.replicate 64 (-44), blkDefined := true }) (fun t =>
    t.responses == [0x0FFFFFFD4]) = true := by
  decide

/-- R98 -/
theorem test_clrerr : ends (exec .clrerr { State.reset with
      cfgv := 0b1111, status := { err := true, errcode := 4, errsub := 1 } }) (fun t =>
    t.regVal 7 == 0xF000 && !t.irq && t.responses == [0]) = true := by
  decide

/-- R239 example 1 -/
theorem test_decblk_unconfigured : ends (step (State.reset.withFetchWord 36 0x500000000)) (fun t =>
    t.responses == [0x200000021] && t.irq) = true := by
  decide

/-- R193: the worked example, sub-block 1 of `PAIR8x4` through the DC path, with the plane bytes 0 but for
`0x2020` = 250 and `0x203F` = 3. -/
theorem test_decblk_pair : ends
    (runBlock tcfg { ttcode := 3, noshape := false, first := false, skipblk := false, ttout := true, n := 2 }
      { ready [symCode 1, coefCode true 0 10] with mem := [(0x2020, 250), (0x203F, 3)] }) (fun t =>
    t.responses == [0x000009303] && t.regVal 4 == 0x300 && t.regVal 6 == 0x100 && t.cellAt 32 == 84 &&
      t.byteAt 0x2020 == 255 && t.byteAt 0x203F == 13 && t.byteAt 0x201F == 0) = true := by
  decide +kernel

/-- R239 example 8, from sub-block 2 on: an error after two sub-blocks have been placed, with `skip`. -/
theorem test_decblk_stream_error : ends
    (exec (.decblk 7 false false true false 1)
      (ready [symCode 0xF, coefCode true 0 1, coefCode true 16 1, errCode])) (fun t =>
    t.responses == [0x40000F241] && t.regVal 5 == 0 && t.regVal 6 == 1 && t.stream == [] &&
      t.phase == .idle) = true := by
  decide +kernel

/-! ## Waiting, resuming, reset, the environment -/

/-- A `DECBLK` whose agent does not answer waits in its phase with its request outstanding; the step after the
answer is there ends it (R213, R266). -/
theorem test_decblk_waits : ends (exec (.decblk 7 false false false true 1) (ready [])) (fun t =>
    t.phase == .select && t.outstanding == some (.symRead .subblkpat false) && t.responses == [] &&
      ends (step { t with stream := [symCode 0] }) (fun u =>
        u.phase == .idle && u.responses == [0x0000FF00] && u.ttacc == 0x70)) = true := by
  decide +kernel

/-- Reset ends the wait without a response (R252). -/
theorem test_reset_ends_wait : ends (exec (.decblk 7 false false false true 1) (ready [])) (fun t =>
    ends (step { t with resetPin := true }) (fun u =>
      u.phase == .idle && u.responses == [] && u.cfgv == 0 && u.outstanding == none)) = true := by
  decide +kernel

/-- At an unbacked address the VRD waits, at a device the run is outside the model (R52, R60). -/
theorem test_unbacked_waits : ends
    (runBlock tcfg { ttcode := 0, noshape := false, first := false, skipblk := false, ttout := false, n := 0 }
      { ready [coefCode true 0 5] with platform := [{ base := 0x2000, size := 1, kind := .unbacked }] }) (fun t =>
    t.phase == .recon && t.outstanding == some (.memRead 0x2000)) = true := by
  decide +kernel

theorem test_device_refused : endsAtDevice
    (runBlock tcfg { ttcode := 0, noshape := false, first := false, skipblk := false, ttout := false, n := 0 }
      { ready [coefCode true 0 5] with platform := [{ base := 0x2001, size := 1, kind := .device }] })
    0x2001 = true := by
  decide +kernel

/-- The spelling of R82 and the expansion of R83. -/
theorem test_assembler : assemblerLine (.decblk 5 false true true true 7) = "decblk 4x8l, 7, first, skip, ttout" ∧
    expandPseudo (.setdst 0x1000 16) = [.setbase 0x1000, .setstride 16] := by
  decide

/-! ## Witnesses: for each statement with hypotheses, a state and operands that meet all of them -/

/-- `ready`, in a phase of an 8x8 block, at sub-block 0, with nothing placed. -/
def inBlock (p : Phase) (stream : List Code) (skip : Bool := false) : State :=
  { ready stream with
    phase := p
    blkDefined := true
    cont := { State.reset.cont with ops := { State.reset.cont.ops with skipblk := skip } }
    work := { State.reset.work with quant := 4, scale := 8 } }

theorem inBlock_placedAt (p : Phase) (stream : List Code) (k : Nat) : (inBlock p stream).placedAt k = 0 := by
  simp only [State.placedAt, inBlock, ready, State.reset, Vector.getElem?_replicate]
  split <;> rfl

theorem inBlock_cellAt (p : Phase) (stream : List Code) (c : Nat) : (inBlock p stream).cellAt c = 0 := by
  simp only [State.cellAt, inBlock, ready, State.reset, Vector.getElem?_replicate]
  split <;> rfl

theorem inBlock_inv (p : Phase) (stream : List Code) (skip : Bool := false) : (inBlock p stream skip).Inv where
  memWf := rfl
  resultShape := rfl
  resultPat := by intro h; cases h
  resultClear := fun _ => ⟨rfl, rfl, rfl⟩
  noFault := fun _ => ⟨rfl, rfl⟩
  faultCode := by intro h; cases h
  faultSub := fun _ => rfl
  placedRange := fun k => by
    have h : (inBlock p stream skip).placedAt k = 0 := inBlock_placedAt p stream k
    rw [h]
    decide
  ttaccNibbles := fun n _ => .inl (by simp [ttaccNibble, inBlock, ready, State.reset])
  quantRange := by show (4 : Nat) ≤ 128 ∧ (8 : Nat) ≤ 257; decide
  wshapeCode := rfl
  wsubpatRange := by show (0 : Nat) < 2 ^ 0; decide
  runsUnfaulted := fun _ => rfl
  checked := fun _ => ⟨rfl, by show (4 : BitVec 8) ≠ 0; decide, rfl, by show (4 : BitVec 8) = quantOf 4; decide,
    by show (8 : BitVec 9) = scaleOf 4 false; decide⟩
  resultCleared := fun _ => rfl
  loopSub := fun _ => ⟨by show (0 : Nat) < 1; decide, rfl⟩
  cursor := fun _ => ⟨by show (0 : Nat) ≤ 64; decide, by show (0 : Nat) ≤ 0; decide⟩
  countCap := fun _ => by show (0 : Nat) ≤ 64; decide
  pixel := fun _ => by show (0 : Nat) < 64; decide

theorem inBlock_blockInv (p : Phase) (stream : List Code) : (inBlock p stream).BlockInv where
  cleared := fun _ => ⟨inBlock_cellAt p stream, inBlock_placedAt p stream⟩
  loopCells := fun _ _ _ _ _ _ => inBlock_cellAt p stream _
  loopPlaced := fun _ k _ => inBlock_placedAt p stream k
  pullPlaced := fun _ => inBlock_placedAt p stream _
  filled := fun _ => by
    have h : (inBlock p stream).coeffs.countP (fun v => v != 0) = 0 := by
      rw [List.countP_eq_zero]
      intro v hv
      simp only [State.coeffs, State.coeffsOf, List.mem_map] at hv
      obtain ⟨i, -, rfl⟩ := hv
      rw [inBlock_cellAt]
      decide
    rw [h]
    exact Nat.zero_le _
  loopDone := fun _ k _ => ⟨inBlock_placedAt p stream k, fun _ _ _ => inBlock_cellAt p stream _⟩
  resultDone := by intro _ h; cases h

theorem ready_environmentAnswers (stream : List Code) : (ready stream).environmentAnswers := ⟨rfl, fun _ => rfl⟩

theorem ready_hostReady (stream : List Code) : (ready stream).hostReady :=
  ⟨rfl, rfl, by show (4 : BitVec 8) ≠ 0; decide⟩

theorem pixels_distinct_check : ∀ i < 64, ∀ j < 64,
    pixAddr 0x2000 8 .full8x8 0 (i / 8) (i % 8) = pixAddr 0x2000 8 .full8x8 0 (j / 8) (j % 8) → i = j := by
  decide +kernel

/-- `DecodeEncodeRoundTrip`, `CommandHasOneWord` -/
theorem test_witness_wellformed :
    WellFormed (.rdreg 9) ∧ WellFormed (.decblk 0 true true true true 7) ∧
      decode 0x500000778 = .command (.decblk 0 true true true true 7) := by
  decide

/-- `IllegalCommandFaults`: one word of each kind with no fault pending, one while a fault is pending, and a legal
word. -/
theorem test_witness_illegal :
    isIllegalWord 0xA00000000 ∧ isIllegalWord 0x500000080 ∧ isIllegalWord 0x70000000A ∧
      isIllegalWord 0x500000009 ∧ isIllegalWord 0x900000100 ∧ ¬ isIllegalWord 0x700000009 := by
  refine ⟨.inl (by decide), .inr (.inl (.inl (by decide))), .inr (.inr (.inl (by decide))),
    .inr (.inr (.inr (by decide))), .inr (.inl (by show Command.data 0x900000100 ≠ 0; decide)), ?_⟩
  rintro (h | h | h | h)
  · revert h; decide
  · exact absurd h (by show ¬ (Command.data 0x700000009).extractLsb' 4 28 ≠ 0; decide)
  · revert h; decide
  · revert h; decide

theorem test_witness_illegal_state :
    (State.reset.withFetchWord 36 0xA00000000).resetPin = false ∧
      (State.reset.withFetchWord 36 0xA00000000).phase = .idle ∧
      (State.reset.withFetchWord 36 0xA00000000).cmds = 0xA00000000 :: [] ∧
      (State.reset.withFetchWord 36 0xA00000000).status.err = false := by
  decide

/-- `StepRunsDecodedCommand` -/
theorem test_witness_step :
    (State.reset.withFetchWord 36 0x70000000A).resetPin = false ∧
      (State.reset.withFetchWord 36 0x700000009).phase = .idle ∧
      (State.reset.withFetchWord 36 0x700000009).cmds = 0x700000009 :: [] ∧
      decode 0x700000009 = .command (.rdreg 9) := by
  decide

/-- `IdleDoesNothing`, `SetqWritesQctx`, `SetctxWritesCtx`, `SetbaseWritesDstbase`, `SetstrideWritesDststride`,
`ClraccClearsTtacc`, `RdblkBeforeDecblk`: the state after reset. -/
theorem test_witness_reset : State.reset.resetPin = false ∧ State.reset.phase = .idle ∧ State.reset.cmds = [] ∧
    State.reset.status.err = false ∧ State.reset.blkDefined = false := by
  decide

/-- `SetbaseWritesDstbase`, `SetstrideWritesDststride`: their second clause -/
theorem test_witness_set_refused :
    { State.reset with status := { err := true, errcode := 1, errsub := 0 } }.status.err = true := rfl

/-- `ResetAtAnyTime`, during a placement loop -/
theorem test_witness_reset_pin : { inBlock .pull [] with resetPin := true }.resetPin = true := rfl

/-- `RdregReturnsRegister` at its last register, `RdblkReturnsCell`, `FaultKeepsFirstRecord` -/
theorem test_witness_readback : (9 : BitVec 4).toNat < 10 ∧ (inBlock .idle []).blkDefined = true ∧
    StatusCode.eStream ≠ .ok := by
  decide

/-- A VRD with a fault pending and `clracc` offered. -/
def faulted : State :=
  { State.reset with status := { err := true, errcode := 1, errsub := 0 }, cmds := [0x600000000] }

/-- `FaultedMachineRefuses`, and `IllegalCommandFaults` while a fault is pending -/
theorem test_witness_faulted : faulted.resetPin = false ∧ faulted.phase = .idle ∧
    faulted.cmds = (0x600000000 : Command) :: [] ∧ faulted.status.err = true ∧
    Command.op 0x600000000 ≠ 0 ∧ Command.op 0x600000000 ≠ 7 ∧ Command.op 0x600000000 ≠ 8 ∧
    Command.op 0x600000000 ≠ 9 ∧ Command.op 0x900000100 = 9 := by
  decide

/-- `OneResponsePerCommand`: a command that ends and one that waits -/
theorem test_witness_one_response :
    (∃ t, exec .nop State.reset = .next t ∧ (t.phase == .idle) = true) ∧
      (∃ t, exec (.decblk 7 false false false false 0) (ready []) = .next t ∧ t.phase.inBlock = true) :=
  ⟨ends_exists (by decide), ends_exists (p := fun t => t.phase.inBlock) (by decide +kernel)⟩

/-- `CommandsTurnedAway`, its three clauses -/
theorem test_witness_turned_away : State.reset.status.err = false ∧ (1 : BitVec 3) ≠ 0 ∧
    10 ≤ (10 : BitVec 4).toNat ∧ faulted.status.err = true ∧ Instr.clracc ≠ .nop ∧
    (∀ r, Instr.clracc ≠ .rdreg r) ∧ (∀ x, Instr.clracc ≠ .rdblk x) ∧ Instr.clracc ≠ .clrerr := by
  refine ⟨rfl, by decide, by decide, rfl, by decide, ?_, ?_, by decide⟩
  · intro r h; cases h
  · intro x h; cases h

/-- `DecblkChecks`: unconfigured by one bit, and configured with a quantizer of 0 -/
theorem test_witness_checks :
    { ready [] with cfgv := 0b0111 }.status.err = false ∧ { ready [] with cfgv := 0b0111 }.cfgv ≠ 0b1111 ∧
      { ready [] with qctx := State.reset.qctx }.cfgv = 0b1111 ∧
      { ready [] with qctx := State.reset.qctx }.qctx.mquant = 0 ∧
      { ready [] with qctx := State.reset.qctx }.status.err = false := by
  decide

/-- `PairCodeSubpatterns`: each clause has its value -/
theorem test_witness_pair_code : (0b0100 : BitVec 4).extractLsb' 0 2 = 0 ∧ (1 : BitVec 4).extractLsb' 0 2 = 1 ∧
    (2 : BitVec 4).extractLsb' 0 2 = 2 ∧ (15 : BitVec 4).extractLsb' 0 2 = 3 := by
  decide

/-- `PatternBitmap`: the last quadrant of each shape -/
theorem test_witness_bitmap :
    (2 : BitVec 4).toNat < 2 ^ pbits .pair4x8 ∧ 1 < Shape.pair4x8.nsub ∧
      (∃ p, p < Shape.pair4x8.cap ∧ cellIndex .pair4x8 1 p = 8 * (4 * (3 / 2)) + 4 * (3 % 2)) ∧
      (∃ p, p < Shape.full8x8.cap ∧ cellIndex .full8x8 0 p = 8 * (4 * (3 / 2)) + 4 * (3 % 2)) ∧
      (∃ p, p < Shape.pair8x4.cap ∧ cellIndex .pair8x4 1 p = 8 * (4 * (3 / 2)) + 4 * (3 % 2)) ∧
      (∃ p, p < Shape.quad4x4.cap ∧ cellIndex .quad4x4 3 p = 8 * (4 * (3 / 2)) + 4 * (3 % 2)) :=
  ⟨by decide, by decide, ⟨16, by decide⟩, ⟨36, by decide⟩, ⟨4, by decide⟩, ⟨0, by decide⟩⟩

/-- `QuantizerDerivation`: the two ends of the range, and a `DECBLK` at its checks -/
theorem test_witness_quantizer_phase : (inBlock .check []).phase = .check ∧ (inBlock .check []).hostReady :=
  ⟨rfl, rfl, rfl, by show (4 : BitVec 8) ≠ 0; decide⟩

/-- `QuantizerDerivation`: the values at both ends, from R145 -/
theorem test_witness_quantizer : (0x80 : BitVec 8) ≠ 0 ∧ (0x7F : BitVec 8) ≠ 0 ∧ quantOf 0x80 = 128 ∧
    scaleOf 0x7F true = 255 := by
  decide

/-- `DequantizeExact`, `DequantizeAntisymmetry`: at the bound, with a non-zero value and with 0 -/
theorem test_witness_dequantize :
    |(4091 : BitVec 32).toInt| * ((8 : BitVec 9).toNat : Int) + ((39 : BitVec 8).toNat : Int) ≤ 32767 ∧
      |(0 : BitVec 32).toInt| * ((257 : BitVec 9).toNat : Int) + ((128 : BitVec 8).toNat : Int) ≤ 32767 ∧
      0 < (8 : BitVec 9).toNat ∧ (4091 : BitVec 32) ≠ 0 := by
  decide

/-- `CellsPartitionBlock`, `ScannedCellsDistinct`, `PixelAddressesDistinct`: the last cell and the last pixel -/
theorem test_witness_geometry : 3 < Shape.quad4x4.nsub ∧ 15 < Shape.quad4x4.cap ∧ 3 < Shape.quad4x4.height ∧
    3 < Shape.quad4x4.width ∧ cellIndex .quad4x4 3 15 = 63 ∧ 8 ≤ |(-8 : BitVec 32).toInt| := by
  decide

/-- `PlacementStep`: an error, an overrun (at the boundary), the last cell with and without `last`, and for the ends of
the loop both values of `SKIPBLK` -/
theorem test_witness_placement :
    (inBlock .pull [errCode]).phase = .pull ∧ (inBlock .pull [errCode]).Inv ∧
      (inBlock .pull [errCode]).stream = errCode :: [] ∧ (inBlock .pull [errCode]).grants = none ∧
      errCode.coef.err = true ∧ (coefCode false 64 1).coef.err = false ∧
      (inBlock .pull [coefCode false 64 1]).shape.cap ≤
        (inBlock .pull [coefCode false 64 1]).work.cur.toNat + (coefCode false 64 1).coef.skip.toNat ∧
      (inBlock .pull [coefCode true 63 1]).work.cur.toNat + (coefCode true 63 1).coef.skip.toNat <
        (inBlock .pull [coefCode true 63 1]).shape.cap ∧
      (coefCode true 63 1).coef.last = true ∧ (coefCode false 63 1).coef.last = false ∧
      (inBlock .pull [coefCode true 63 1]).cont.ops.skipblk = false ∧
      (inBlock .pull [coefCode true 63 1] true).cont.ops.skipblk = true ∧
      (inBlock .pull [coefCode true 63 1] true).phase = .pull ∧
      (inBlock .pull [coefCode true 63 1] true).Inv :=
  ⟨rfl, inBlock_inv _ _, rfl, rfl, rfl, rfl, by show (64 : Nat) ≤ 0 + 64; decide,
    by show (0 : Nat) + 63 < 64; decide, rfl, rfl, rfl, rfl, rfl, inBlock_inv _ _ true⟩

/-- R116, R118, R176: an overrun in sub-block 0 of `4x4` with sub-blocks 1 and 2 empty: with `SKIPBLK` the loop goes on
at sub-block 3, without it sub-block 0 is reconstructed. -/
theorem test_overrun_goes_on :
    ends (exec (.decblk 7 false false true false 0) (ready [symCode 9, coefCode false 16 1])) (fun t =>
      t.phase == .pull && t.work.k == 3 && t.work.cur == 0) = true ∧
    ends (exec (.decblk 7 false false false false 0)
        { ready [symCode 9, coefCode false 16 1] with grants := some 3 }) (fun t =>
      t.phase == .recon && t.work.k == 0 && t.outstanding == some (.memRead 0x2000) && t.work.cnt == 0) = true := by
  decide +kernel

/-- `SelectorEntersLoop`: a shape that reads its pattern and one that does not -/
theorem test_witness_selector :
    { inBlock .select [symCode 9] with
        work := { (inBlock .select []).work with raw := 7 }
        cont := { State.reset.cont with rawDone := true } }.phase = .select ∧
      { inBlock .select [] with cont := { State.reset.cont with rawDone := true } }.cont.rawDone = true ∧
      (inBlock .select []).grants = none ∧ patternRead (rawShapeOf 7) false false false false = some .subblkpat ∧
      patternRead (rawShapeOf 2) true true false true = none ∧
      patternRead (rawShapeOf 2) true false false false = some .pat2 ∧
      (inBlock .select [symCode 9]).stream ≠ [] := by
  refine ⟨rfl, rfl, rfl, rfl, rfl, rfl, ?_⟩
  intro h
  cases h

/-- `StreamRequestTakesOneCode`: a step that reads the stream and one that does not -/
theorem test_witness_stream_request :
    (∃ t, tick Config.vrd (inBlock .pull [errCode]) = .answer () t) ∧
      (∃ t, tick Config.vrd (inBlock .finish []) = .answer () t) :=
  ⟨⟨_, rfl⟩, ⟨_, rfl⟩⟩

/-- `ReconstructionAddsClamped` -/
theorem test_witness_reconstruction :
    (inBlock .recon []).phase = .recon ∧ (inBlock .recon []).cont.res = none ∧ (inBlock .recon []).cont.pix = 0 ∧
      (inBlock .recon []).cont.old = none ∧ (inBlock .recon []).environmentAnswers ∧
      Memory.wf (inBlock .recon []).mem = true ∧
      (inBlock .recon []).pixelsDistinct (inBlock .recon []).shape (inBlock .recon []).work.k.toNat :=
  ⟨rfl, rfl, rfl, rfl, ⟨rfl, fun _ => rfl⟩, rfl, fun i j hi hj h => pixels_distinct_check i hi j hj h⟩

/-- `inBlock` at the reconstruction of sub-block 0 with one coefficient, 44, placed at cell 0. -/
def oneCoefficient : State :=
  { inBlock .recon [] with
    blk := (Vector.replicate 64 0).setIfInBounds 0 44
    work := { (inBlock .recon []).work with cur := 1, cnt := 1 } }

theorem oneCoefficient_inv : oneCoefficient.Inv :=
  { inBlock_inv .recon [] with
    cursor := by intro h; cases h
    countCap := fun _ => by show (1 : Nat) ≤ 64; decide }

theorem oneCoefficient_blockInv : oneCoefficient.BlockInv where
  cleared := by intro h; cases h
  loopCells := fun _ k hk h => by
    have hk1 : k < 1 := hk
    rcases h with h | h
    · have h0 : 0 < k := h
      omega
    · cases h
  loopPlaced := fun _ k _ => inBlock_placedAt .recon [] k
  pullPlaced := by intro h; cases h
  filled := fun _ => by decide +kernel
  loopDone := by intro h; cases h
  resultDone := by intro _ h; cases h

/-- `DcPathEqualsFullPath`, where the kind is the DC-only transform; `DecblkSameThroughFullPath` -/
theorem test_witness_dc_path : Config.vrd.dcSelect = .countEq1 ∧ oneCoefficient.Inv ∧
    oneCoefficient.BlockInv ∧ oneCoefficient.phase = .recon ∧ oneCoefficient.itxKind Config.vrd = .dc :=
  ⟨rfl, oneCoefficient_inv, oneCoefficient_blockInv, rfl, rfl⟩

/-- `DecblkCompletes`, `DecblkReconstructsPresentSubblocks`, `DecblkRequestOrder` -/
theorem test_witness_completes :
    (ready (List.replicate 70 (coefCode true 0 1))).hostReady ∧
      (ready (List.replicate 70 (coefCode true 0 1))).environmentAnswers ∧
      (ready (List.replicate 70 (coefCode true 0 1))).streamSound 70 := by
  refine ⟨ready_hostReady _, ready_environmentAnswers _, by show 70 ≤ (List.replicate 70 _).length; simp, ?_⟩
  intro code h
  have h2 : code ∈ List.replicate 70 (coefCode true 0 1) := List.mem_of_mem_take h
  rw [List.eq_of_mem_replicate h2]
  rfl

/-- `DecblkSingleCoefficient`, at the last cursor -/
theorem test_witness_single :
    (ready [coefCode true 63 5]).hostReady ∧ (ready [coefCode true 63 5]).environmentAnswers ∧
      Memory.wf (ready [coefCode true 63 5]).mem = true ∧ (ready [coefCode true 63 5]).pixelsDistinct .full8x8 0 ∧
      (ready [coefCode true 63 5]).stream = coefCode true 63 5 :: [] ∧ (coefCode true 63 5).coef.err = false ∧
      (coefCode true 63 5).coef.last = true ∧ (coefCode true 63 5).coef.skip.toNat < 64 :=
  ⟨ready_hostReady _, ready_environmentAnswers _, rfl,
    fun i j hi hj h => pixels_distinct_check i hi j hj h, rfl, rfl, rfl, by decide⟩

/-- `DecblkFirstRequestFails` -/
theorem test_witness_first_fails : (ready [errCode]).hostReady ∧ (ready [errCode]).grants = none ∧
    (ready [errCode]).stream = errCode :: [] ∧ errCode.coef.err = true :=
  ⟨ready_hostReady _, rfl, rfl, rfl⟩

/-- `DecblkStreamErrorState`: an error in sub-block 2 after one was placed, one was empty and one overran -/
theorem test_witness_stream_error :
    (ready [symCode 0xB, coefCode true 0 1, errCode]).status.err = false ∧
      ∃ t, exec (.decblk 7 false false true true 1) (ready [symCode 0xB, coefCode true 0 1, errCode]) = .next t ∧
        (t.phase == .idle && t.status.err && t.status.errcode == 4 && t.status.errsub == 2 &&
          isEmptySub t.shape t.work.wsubpat 1) = true :=
  ⟨rfl, ends_exists (p := fun t => t.phase == .idle && t.status.err && t.status.errcode == 4 &&
    t.status.errsub == 2 && isEmptySub t.shape t.work.wsubpat 1) (by decide +kernel)⟩

/-- `DecblkWritesOnlyItsFootprint`, `DecblkFrame`, `RequestBudget`, `StepKeepsInv`, `StepKeepsBlockInv`,
`SkipChangesOnlyReconstruction`: a `DECBLK` of one 4x4 sub-block that ends, without and with `SKIPBLK` -/
theorem test_witness_block_ends :
    (∃ t, exec (.decblk 7 false false false true 1) (ready [symCode 8, coefCode true 15 1]) = .next t ∧
      (t.phase == .idle) = true) ∧
    (∃ t, exec (.decblk 7 false false true true 1) (ready [symCode 8, coefCode true 15 1]) = .next t ∧
      (t.phase == .idle) = true) ∧
    (ready [symCode 8, coefCode true 15 1]).grants = none :=
  ⟨ends_exists (p := fun t => t.phase == .idle) (by decide +kernel),
    ends_exists (p := fun t => t.phase == .idle) (by decide +kernel), rfl⟩

/-- `DecblkFrame`: refused while a fault is pending, and waiting -/
theorem test_witness_frame_clauses :
    (∃ t, exec (.decblk 0 false false false true 1) faulted = .next t ∧ (t.status.err) = true) ∧
    (∃ t, exec (.decblk 0 false false false true 1) (ready []) = .next t ∧ (t.phase != .idle) = true) :=
  ⟨ends_exists (p := fun t => t.status.err) (by decide +kernel),
    ends_exists (p := fun t => t.phase != .idle) (by decide +kernel)⟩

/-- `SilentAgentStalls`, in both phases -/
theorem test_witness_silent :
    { inBlock .pull [] with grants := some 0 }.grants = some 0 ∧
      { inBlock .pull [] with grants := some 0 }.resetPin = false ∧
      (∀ a, { inBlock .pull [] with grants := some 0 }.areaAt a ≠ some .device) ∧
      { inBlock .pull [] with grants := some 0 }.phase = .pull ∧
      { inBlock .recon [] with grants := some 0 }.phase = .recon := by
  refine ⟨rfl, rfl, ?_, rfl, rfl⟩
  intro a h
  cases h

/-- `StalledDecblkResumes`: the agents fall silent in the middle of a reconstruction -/
theorem test_witness_stalled : (ready [symCode 8, coefCode true 15 1]).resetPin = false ∧
    ∃ t, exec (.decblk 7 false false false true 1)
        { ready [symCode 8, coefCode true 15 1] with grants := some 6 } = .next t ∧ (t.phase == .recon) = true :=
  ⟨rfl, ends_exists (p := fun t => t.phase == .recon) (by decide +kernel)⟩

/-- `StepKeepsInv`, `StepKeepsBlockInv`: a state of a `DECBLK` in progress whose next step ends it -/
theorem test_witness_step_keeps : (inBlock .pull [errCode]).Inv ∧ (inBlock .pull [errCode]).BlockInv ∧
    ∃ t, step (inBlock .pull [errCode]) = .next t ∧ (t.phase == .idle) = true :=
  ⟨inBlock_inv _ _, inBlock_blockInv _ _, ends_exists (p := fun t => t.phase == .idle) (by decide +kernel)⟩

/-- `OnlyClrerrOrResetEndsFault` -/
theorem test_witness_fault_ends : { faulted with cmds := [0x900000000] }.status.err = true ∧
    ∃ t, step { faulted with cmds := [0x900000000] } = .next t ∧ (!t.status.err) = true :=
  ⟨rfl, ends_exists (p := fun t => !t.status.err) (by decide)⟩

/-- `ConfigurationWrittenOnlyBySetCommands`: each register changes in some step, and a bit of `CFGV` that is set -/
theorem test_witness_configuration :
    (∃ t, step (State.reset.withFetchWord 36 0x1000001FB) = .next t ∧
      (t.qctx != State.reset.qctx && t.cfgv.getLsbD 0) = true) ∧
    (∃ t, step (State.reset.withFetchWord 36 0x20000003F) = .next t ∧
      (t.ctx != State.reset.ctx && t.cfgv.getLsbD 1) = true) ∧
    (∃ t, step (State.reset.withFetchWord 36 0x3FFFFFFF0) = .next t ∧
      (t.dstbase != State.reset.dstbase && t.cfgv.getLsbD 2) = true) ∧
    (∃ t, step (State.reset.withFetchWord 36 0x4FFFFFFF8) = .next t ∧
      (t.dststride != State.reset.dststride && t.cfgv.getLsbD 3) = true) ∧
    (State.reset.withFetchWord 36 0x1000001FB).resetPin = false :=
  ⟨ends_exists (p := fun t => t.qctx != State.reset.qctx && t.cfgv.getLsbD 0) (by decide),
    ends_exists (p := fun t => t.ctx != State.reset.ctx && t.cfgv.getLsbD 1) (by decide),
    ends_exists (p := fun t => t.dstbase != State.reset.dstbase && t.cfgv.getLsbD 2) (by decide),
    ends_exists (p := fun t => t.dststride != State.reset.dststride && t.cfgv.getLsbD 3) (by decide), rfl⟩

/-- `ReachableMeetsInvariants`: a state other than that after reset -/
theorem test_witness_reachable : Reachable { State.reset with cmds := [0], grants := some 3 } :=
  .env .reset ⟨[0], false, [], some 3, [], [], rfl, rfl⟩

end Sys2Proof.Tests
end

section
/-! PROOFS. The state after reset (R46). -/

namespace Sys2Proof.Machine

open Sys2Proof

/-- Where the four counts of `PLACED` are 0, as reset (R46) and the clear of R113 leave them, every number reads as 0,
the numbers past the last count included. -/
theorem State.placedAt_eq_zero_of_placed {s : State} (h : s.placed = Vector.replicate 4 0) (k : Nat) :
    s.placedAt k = 0 := by
  rw [State.placedAt, h, Vector.getElem?_replicate]
  by_cases hk : k < 4
  · rw [if_pos hk, Option.getD_some]
  · rw [if_neg hk, Option.getD_none]

@[simp] theorem State.reset_placedAt (k : Nat) : State.reset.placedAt k = 0 :=
  State.placedAt_eq_zero_of_placed rfl k

/-- Settles O8. The clause on `PLACED` is about every number and goes through the reading rule of `placedAt`; each of
the others is a field of `State.reset`. -/
theorem resetStateValues : Obligations.ResetStateValues :=
  ⟨rfl, rfl, rfl, rfl, rfl, rfl, rfl, State.reset_placedAt, rfl, rfl, rfl, rfl, rfl, rfl⟩

end Sys2Proof.Machine
end

section
/-! PROOFS. The words the command port turns away: the illegal words of R77, and any word that a pending fault
refuses (`spec/30_encoding.md` rules R75 to R77, R84). -/

namespace Sys2Proof.Machine

open Sys2Proof

/-! ## Reserved bits -/

/-- A mask of all bits from `k` up keeps exactly the field that begins at bit `k`. -/
theorem and_shiftedOnes_eq_zero_iff (d : Word) (k : Nat) :
    d &&& (BitVec.allOnes 32 <<< k) = 0 ↔ d.extractLsb' k (32 - k) = 0 := by
  simp only [BitVec.eq_of_getLsbD_eq_iff, BitVec.getLsbD_and, BitVec.getLsbD_shiftLeft, BitVec.getLsbD_allOnes,
    BitVec.getLsbD_extractLsb', BitVec.ofNat_eq_ofNat, BitVec.getLsbD_zero]
  constructor
  · intro h i hi
    have bit := h (k + i) (by omega)
    grind
  · intro h j hj
    have bit := h (j - k)
    grind

/-- The reserved bits of `DECBLK` (R75, format D): bit 7, and the bits from 11 up. -/
theorem and_decblkMask_eq_zero_iff (d : Word) :
    d &&& 0xFFFFF880 = 0 ↔ d.getLsbD 7 = false ∧ d.extractLsb' 11 21 = 0 := by
  have mask : (0xFFFFF880 : Word) = BitVec.twoPow 32 7 ||| BitVec.allOnes 32 <<< 11 := by decide
  have bit7 : d &&& BitVec.twoPow 32 7 = 0 ↔ d.getLsbD 7 = false := by
    rw [BitVec.and_twoPow]
    cases d.getLsbD 7 <;> decide
  rw [mask, BitVec.and_or_distrib_left]
  exact BitVec.or_eq_zero_iff.trans (and_congr bit7 (and_shiftedOnes_eq_zero_iff d 11))

/-- The decoder's mask test is R77 (b): `RSVMASK` covers the bits that R75 shows as 0, and no other. -/
theorem hasReservedBit_iff (w : Command) : hasReservedBit w ↔ w.data &&& rsvMask w.op ≠ 0 := by
  have whole : w.data ≠ 0 ↔ w.data &&& 0xFFFFFFFF ≠ 0 := by
    rw [show (0xFFFFFFFF : Word) = BitVec.allOnes 32 from rfl, BitVec.and_allOnes]
  unfold hasReservedBit rsvMask
  match w.op.toNat with
  | 0 | 6 | 9 => exact whole
  | 1 => exact (and_shiftedOnes_eq_zero_iff w.data 10).not.symm
  | 2 | 8 => exact (and_shiftedOnes_eq_zero_iff w.data 6).not.symm
  | 7 => exact (and_shiftedOnes_eq_zero_iff w.data 4).not.symm
  | 5 =>
    calc w.data.getLsbD 7 = true ∨ w.data.extractLsb' 11 21 ≠ 0
        ↔ ¬ (w.data.getLsbD 7 = false ∧ w.data.extractLsb' 11 21 = 0) := by rw [not_and_or, Bool.not_eq_false]
      _ ↔ w.data &&& 0xFFFFF880 ≠ 0 := (and_decblkMask_eq_zero_iff w.data).not.symm
  | 3 | 4 | n + 10 => simp

/-! ## The decoder -/

theorem fieldsOf_eq_none_iff (op : BitVec 4) (d : Word) : fieldsOf op d = none ↔ 10 ≤ op.toNat := by
  unfold fieldsOf
  match op.toNat with
  | 0 | 1 | 2 | 3 | 4 | 5 | 6 | 7 | 8 | 9 | n + 10 => simp

theorem fieldsOf_opcode {op : BitVec 4} {d : Word} {i : Instr} (h : fieldsOf op d = some i) : i.opcode = op := by
  apply BitVec.eq_of_toNat_eq
  unfold fieldsOf at h
  split at h <;> cases h <;> simp [Instr.opcode, *]

/-- The fields of a word make an ill-formed command in the two cases R77 (c) and (d). -/
theorem fieldsOf_ill_formed_iff {op : BitVec 4} {d : Word} {i : Instr} (h : fieldsOf op d = some i) :
    ¬ WellFormed i ↔ (op = 7 ∧ 10 ≤ (d.extractLsb' 0 4).toNat) ∨
      (op = 5 ∧ d.getLsbD 3 = true ∧ d.extractLsb' 0 3 ≠ 0) := by
  rw [← fieldsOf_opcode h]
  unfold fieldsOf at h
  split at h <;> cases h <;> simp [Instr.opcode, Instr.wf]

/-- A word decodes to the command of its fields when no reserved bit is 1 and that command is well-formed (R84). -/
theorem decode_eq_command_iff (w : Command) (i : Instr) :
    decode w = .command i ↔ fieldsOf w.op w.data = some i ∧ ¬ hasReservedBit w ∧ WellFormed i := by
  rw [hasReservedBit_iff]
  unfold decode
  cases fieldsOf w.op w.data with
  | none => simp
  | some j =>
    dsimp only
    split
    next hm => exact iff_of_false nofun fun h => h.2.1 hm
    next hm =>
      split
      next hw =>
        have wf_of_eq (e : j = i) : WellFormed i := e ▸ hw
        simpa [not_not.1 hm] using wf_of_eq
      next hw =>
        have not_wf (e : j = i) : ¬ WellFormed i := e ▸ hw
        split <;> simpa using fun e _ => not_wf e

/-- R77 is the decoder's verdict: the words of its four cases are those that are no command. -/
theorem isIllegalWord_iff (w : Command) : isIllegalWord w ↔ ∀ i, decode w ≠ .command i := by
  unfold isIllegalWord
  rw [← fieldsOf_eq_none_iff w.op w.data]
  cases hf : fieldsOf w.op w.data with
  | none => simp [decode_eq_command_iff, hf]
  | some j =>
    rw [← fieldsOf_ill_formed_iff hf]
    simpa [decode_eq_command_iff, hf] using or_iff_not_imp_left

/-! ## The command port -/

/-- In `IDLE`, with reset low, the step takes the oldest word offered (R215). -/
theorem step_takes_word {s : State} {w : Command} {rest : List Command} (hr : s.resetPin = false)
    (hp : s.phase = .idle) (hc : s.cmds = w :: rest) : step s = execWord w (s.accept rest) := by
  simp [step, hr, hp, hc]

/-- The admission test (R76). -/
theorem State.admits_iff (s : State) (op : BitVec 4) :
    s.admits op = true ↔ s.status.err = false ∨ op = 0 ∨ op = 7 ∨ op = 8 ∨ op = 9 := by
  simp [State.admits, admittedWhileFaulted, or_assoc]

/-- A command that a pending fault does not admit is refused (R76). -/
theorem exec_of_not_admits {i : Instr} {s : State} (h : s.admits i.opcode = false) : exec i s = .next s.refuse := by
  obtain ⟨herr, hop⟩ : s.status.err = true ∧ admittedWhileFaulted i.opcode = false := by
    simpa [State.admits] using h
  cases i with
  | nop | rdreg | rdblk | clrerr => cases hop
  | setq | setctx | setbase | setstride | decblk | clracc => exact if_pos herr

/-- The admission test comes before any decoding: a word that fails it is refused, legal or not (R76). -/
theorem execWord_of_not_admits {w : Command} {s : State} (h : s.admits w.op = false) :
    execWord w s = .next s.refuse := by
  rcases execWord_cases w s with ⟨i, hd, he⟩ | ⟨e, _, he⟩
  · have hop : i.opcode = w.op := fieldsOf_opcode ((decode_eq_command_iff w i).1 hd).1
    rw [he, exec_of_not_admits (hop ▸ h)]
  · rw [he, State.illegalCommand, if_neg (by simp [h])]

/-- An admitted word that is no command faults (R77). -/
theorem execWord_of_illegal {w : Command} {s : State} (h : s.admits w.op = true) (hw : isIllegalWord w) :
    execWord w s = .next (s.raiseFault .eIllcmd 0) := by
  rcases execWord_cases w s with ⟨i, hd, _⟩ | ⟨e, _, he⟩
  · exact absurd hd ((isIllegalWord_iff w).1 hw i)
  · rw [he, State.illegalCommand, if_pos h]

/-- Refusing the word just taken leaves only the word taken and the response. -/
theorem State.accept_refuse {s : State} (hp : s.phase = .idle) (rest : List Command) :
    (s.accept rest).refuse =
      { s with cmds := rest, responses := s.responses ++ [5#4 ++ s.statusWord] } := by
  rw [hp]
  rfl

/-- The fault record after a fault: the first fault is kept (R222). -/
theorem State.recordFault_status (s : State) (code : StatusCode) (sub : BitVec 2) :
    (s.recordFault code sub).status =
      if s.status.err then s.status else { err := true, errcode := code.bits, errsub := sub } := by
  unfold State.recordFault
  split <;> rfl

theorem State.raiseFault_statusWord (s : State) (code : StatusCode) (sub : BitVec 2) :
    (s.raiseFault code sub).statusWord = (s.recordFault code sub).statusWord := rfl

/-- A fault on the word just taken leaves only the word taken, the fault record and the response, which carries
`STATUS` as it is after the fault (R73). -/
theorem State.accept_raiseFault {s : State} (hp : s.phase = .idle) (rest : List Command) {code : StatusCode}
    (sub : BitVec 2) (hcode : code ≠ .ok) :
    (s.accept rest).raiseFault code sub =
      { s with
        cmds := rest
        status := if s.status.err then s.status else { err := true, errcode := code.bits, errsub := sub }
        responses := s.responses ++ [code.bits ++ ((s.accept rest).raiseFault code sub).statusWord] } := by
  refine (State.raiseFault_eq _ code sub hcode).trans ?_
  rw [← State.raiseFault_statusWord, State.recordFault_status, hp]
  rfl

/-! ## The statements -/

/-- Settles O21: the admission test fails, so the word is refused before it is decoded. -/
theorem faultedMachineRefuses : Obligations.FaultedMachineRefuses := by
  intro s w rest hr hp hc herr h0 h7 h8 h9
  have hadm : (s.accept rest).admits w.op = false := by
    rw [Bool.eq_false_iff, Ne, State.admits_iff, State.accept_status, herr]
    simpa only [reduceCtorEq, false_or, not_or] using ⟨h0, h7, h8, h9⟩
  rw [step_takes_word hr hp hc, execWord_of_not_admits hadm, State.accept_refuse hp]

/-- Settles O3: the four cases of R77 are the decoder's illegal words, and the command port raises the fault on an
admitted one. -/
theorem illegalCommandFaults : Obligations.IllegalCommandFaults := by
  constructor
  · intro s w rest hr hp hc hop hw
    have hadm : (s.accept rest).admits w.op = true := (State.admits_iff _ _).2 hop
    exact ⟨(s.accept rest).raiseFault .eIllcmd 0,
      (step_takes_word hr hp hc).trans (execWord_of_illegal hadm hw), State.accept_raiseFault hp rest 0 (by decide)⟩
  · intro w hw
    by_contra hno
    exact hw ((isIllegalWord_iff w).2 fun i hd => hno ⟨i, hd⟩)

end Sys2Proof.Machine
end

section
/-! PROOFS. The configuration commands `SETBASE` and `SETSTRIDE`: what they write, and that they are refused while a
fault is pending (`spec/40_commands_config.md` rules R93, R94). -/

namespace Sys2Proof.Machine

open Sys2Proof

/-! ## Responses -/

/-- A command that ends OK leaves the response, the count and `IDLE` (R73). -/
theorem State.respond_ok_eq (s : State) (d : Word) :
    s.respond .ok d =
      { s with responses := s.responses ++ [0#4 ++ d], cmdcnt := s.cmdcnt + 1, phase := .idle } := rfl

/-- A refused command leaves the response, which carries `STATUS`, and `IDLE` (R76). -/
theorem State.refuse_eq (s : State) :
    s.refuse = { s with responses := s.responses ++ [5#4 ++ s.statusWord], phase := .idle } := rfl

/-- While a fault is pending, a command outside the four admitted ones is refused (R76). -/
theorem exec_of_pending {i : Instr} {s : State} (herr : s.status.err = true)
    (hi : admittedWhileFaulted i.opcode = false) :
    exec i s = .next { s with responses := s.responses ++ [5#4 ++ s.statusWord], phase := .idle } := by
  have hadm : s.admits i.opcode = false := by rw [State.admits, herr, hi]; rfl
  rw [exec_of_not_admits hadm, State.refuse_eq]

/-! ## The commands with no fault pending -/

/-- `SETBASE` writes its register, then its bit of `CFGV`, then responds (R93). -/
theorem exec_setbase_of_no_fault {s : State} (herr : s.status.err = false) (a : Addr) :
    exec (.setbase a) s = .next (({ s with dstbase := a }.setCfgv 2).respond .ok 0) :=
  if_neg (Bool.eq_false_iff.1 herr)

/-- `SETSTRIDE` writes its register, then its bit of `CFGV`, then responds (R94). -/
theorem exec_setstride_of_no_fault {s : State} (herr : s.status.err = false) (d : Word) :
    exec (.setstride d) s = .next (({ s with dststride := d }.setCfgv 3).respond .ok 0) :=
  if_neg (Bool.eq_false_iff.1 herr)

/-! ## The statements -/

/-- Settles O12: the write when no fault is pending, and the refusal of every command not admitted when one is. -/
theorem setbaseWritesDstbase : Obligations.SetbaseWritesDstbase := by
  intro s a
  constructor
  · intro herr
    rw [exec_setbase_of_no_fault herr, State.respond_ok_eq]
    rfl
  · intro herr
    exact exec_of_pending herr rfl

/-- Settles O13: the same two cases as for `SETBASE`; the write takes every pattern of the stride. -/
theorem setstrideWritesDststride : Obligations.SetstrideWritesDststride := by
  intro s d
  constructor
  · intro herr
    rw [exec_setstride_of_no_fault herr, State.respond_ok_eq]
    rfl
  · intro herr
    exact exec_of_pending herr rfl

end Sys2Proof.Machine
end

section
/-! PROOFS. The beginning of `DECBLK`: the command that is run, and the two checks of its `CHECK` phase
(`spec/41_decblk.md` rules R110, R112). -/

namespace Sys2Proof.Machine

open Sys2Proof

/-! ## From the command to the end of `CHECK` -/

/-- A well-formed `DECBLK` with no fault pending is run (R110). -/
theorem exec_decblk_of_no_fault {s : State} (herr : s.status.err = false) {tt : BitVec 3} {ns : Bool}
    (hwf : ns = true → tt = 0) (f k o : Bool) (n : BitVec 3) :
    exec (.decblk tt ns f k o n) s =
      runBlock Config.vrd { ttcode := tt, noshape := ns, first := f, skipblk := k, ttout := o, n := n } s := by
  have wellFormed : ¬ (ns && tt != 0) = true := by simpa using hwf
  exact (if_neg (Bool.eq_false_iff.1 herr)).trans (if_neg wellFormed)

/-- The first step of the run is `CHECK`, which makes no request (R110, R112). -/
theorem runBlock_eq (c : Cfg) (ops : DecOps) (s : State) :
    runBlock c ops s = run c 255 (s.startBlock ops).checkBlock :=
  run_succ c 255 (s.startBlock ops) nofun

/-! ## The checks -/

/-- The first check: all four configuration commands have been taken (R112). -/
theorem State.checkBlock_of_unconfigured {s : State} (h : s.cfgv ≠ 0b1111) :
    s.checkBlock = s.raiseFault .eUncfg 0 :=
  if_pos (by simpa [State.configured] using h)

/-- The second check, made when the first has passed: the quantizer is not 0 (R112). -/
theorem State.checkBlock_of_mquant_zero {s : State} (h : s.cfgv = 0b1111) (hq : s.qctx.mquant = 0) :
    s.checkBlock = s.raiseFault .eQzero 0 :=
  (if_neg (by simp [State.configured, h])).trans (if_pos hq)

/-- With no fault pending, a fault leaves its own record, the response, which carries `STATUS` as it is after the
fault, and `IDLE` (R222, R73). -/
theorem State.raiseFault_first {s : State} (herr : s.status.err = false) {code : StatusCode} (sub : BitVec 2)
    (hcode : code ≠ .ok) :
    s.raiseFault code sub =
      { s with
        status := { err := true, errcode := code.bits, errsub := sub }
        responses := s.responses ++ [code.bits ++ (s.raiseFault code sub).statusWord]
        phase := .idle } := by
  refine (State.raiseFault_eq s code sub hcode).trans ?_
  rw [State.raiseFault_statusWord, State.recordFault_first s code sub herr]

/-- A run whose `CHECK` raises a fault ends there: nothing of the start state has changed but the record, the
response, `PHASE` and the latched operands. -/
theorem runBlock_of_failed_check (c : Cfg) {ops : DecOps} {s : State} (herr : s.status.err = false)
    {code : StatusCode} (hcode : code ≠ .ok)
    (hcheck : (s.startBlock ops).checkBlock = (s.startBlock ops).raiseFault code 0) :
    ∃ t, runBlock c ops s = .next t ∧ t = { s with
      status := { err := true, errcode := code.bits, errsub := 0 }
      responses := s.responses ++ [code.bits ++ t.statusWord]
      phase := .idle
      cont := { s.cont with ops := ops } } := by
  refine ⟨(s.startBlock ops).raiseFault code 0, ?_, State.raiseFault_first (s := s.startBlock ops) herr 0 hcode⟩
  rw [runBlock_eq, hcheck]
  exact run_idle c 255 _ rfl

/-! ## The statement -/

/-- Settles O24: the run of a well-formed command ends in `CHECK`, at the first check that fails; latching the
operands changes neither `CFGV` nor `QCTX`. -/
theorem decblkChecks : Obligations.DecblkChecks := by
  intro s tt ns f k o n herr hwf
  rw [exec_decblk_of_no_fault herr hwf]
  constructor
  · intro hcfg
    exact runBlock_of_failed_check _ herr (code := .eUncfg) nofun (State.checkBlock_of_unconfigured hcfg)
  · intro hcfg hq
    exact runBlock_of_failed_check _ herr (code := .eQzero) nofun (State.checkBlock_of_mquant_zero hcfg hq)

end Sys2Proof.Machine
end

section
/-! PROOFS. The partition selector: what an oriented shape code stands for when no pattern is read
(`spec/42_partition_selector.md` rules R133, R135). -/

namespace Sys2Proof.Machine

open Sys2Proof

/-! ## Oriented codes -/

/-- The parameter `ORIENT_SUBPAT` of this hardware is `2 - orientationBit`, the bit being 0 for Top and Left (R133). -/
theorem vrd_orient : Config.vrd.orient = { top := 2 - 0, bottom := 2 - 1, left := 2 - 0, right := 2 - 1 } := rfl

section
variable (o : OrientSubpat)

@[simp] theorem orientedSubpat_pair8x4Top : orientedSubpat o .pair8x4Top = o.top.setWidth 4 := rfl

@[simp] theorem orientedSubpat_pair8x4Bottom : orientedSubpat o .pair8x4Bottom = o.bottom.setWidth 4 := rfl

@[simp] theorem orientedSubpat_pair4x8Left : orientedSubpat o .pair4x8Left = o.left.setWidth 4 := rfl

@[simp] theorem orientedSubpat_pair4x8Right : orientedSubpat o .pair4x8Right = o.right.setWidth 4 := rfl

end

/-! ## The statement -/

/-- Settles O29: each oriented code selects its own field of `ORIENT_SUBPAT`, whose values in this hardware are those
of R133; the collapse to the pair shape is the table of `canonical` (R135). -/
theorem orientedSubpatterns : Obligations.OrientedSubpatterns := by
  unfold Obligations.OrientedSubpatterns
  rw [vrd_orient]
  refine ⟨?top, ?bottom, ?left, ?right, rfl, rfl, rfl, rfl⟩
  case top => simp
  case bottom => simp
  case left => simp
  case right => simp

end Sys2Proof.Machine
end

section
/-! PROOFS. The dequantizer: the quantizer derived in the `CHECK` phase, and the width of product and sum
(`spec/43_dequantizer.md` rules R145 to R148). -/

namespace Sys2Proof.Machine

open Sys2Proof

/-! ## The derivation of `QUANT` and `SCALE` -/

/-- The magnitude of a quantizer that is not 0 (R145); the upper end is that of `MQUANT = -128`. -/
theorem natAbs_mquant_bounds {m : BitVec 8} (hm : m ≠ 0) : 1 ≤ m.toInt.natAbs ∧ m.toInt.natAbs ≤ 128 := by
  have nonzero : m.toInt ≠ 0 := BitVec.toInt_ne.2 hm
  have lower : -2 ^ 7 ≤ m.toInt := m.le_toInt
  have upper : m.toInt < 2 ^ 7 := BitVec.toInt_lt
  omega

/-- The magnitude of every quantizer fits `QUANT` (R145). -/
theorem toNat_quantOf (m : BitVec 8) : (quantOf m).toNat = m.toInt.natAbs := by
  have lower : -2 ^ 7 ≤ m.toInt := m.le_toInt
  have upper : m.toInt < 2 ^ 7 := BitVec.toInt_lt
  exact Nat.mod_eq_of_lt (by omega)

/-- Twice `QUANT` and the half step fit `SCALE`, and the half step counts only for a positive quantizer (R145). -/
theorem toNat_scaleOf (m : BitVec 8) (h : Bool) :
    (scaleOf m h).toNat = 2 * (quantOf m).toNat + (if 0 < m.toInt ∧ h = true then 1 else 0) := by
  have halfStep : (if 0 < m.toInt then h.toNat else 0) = if 0 < m.toInt ∧ h = true then 1 else 0 := by
    cases h <;> simp
  have bound : (quantOf m).toNat < 2 ^ 8 := (quantOf m).isLt
  rw [scaleOf, halfStep, ← toNat_quantOf]
  exact Nat.mod_eq_of_lt (by split <;> omega)

/-- Past both checks, `CHECK` clears the Block, derives the quantizer and goes on to `SELECT` (R112 to R114). -/
theorem State.checkBlock_of_hostReady {s : State} (h : s.hostReady) :
    s.checkBlock = s.clearBlock.deriveQuant.startSelect := by
  obtain ⟨-, hcfg, hq⟩ := h
  exact (if_neg (by simp [State.configured, hcfg])).trans (if_neg hq)

theorem tick_of_check (c : Cfg) {s : State} (h : s.phase = .check) : tick c s = .answer () s.checkBlock := by
  simp [tick, h]

/-! ## The width of product and sum -/

/-- The bias of R147: the magnitude `QUANT` with the sign of the number it is added to. -/
def biasFor (quant : BitVec 8) (t : Int) : Int := if t < 0 then -(quant.toNat : Int) else (quant.toNat : Int)

theorem abs_biasFor (quant : BitVec 8) (t : Int) : |biasFor quant t| = (quant.toNat : Int) := by
  unfold biasFor
  split <;> simp

/-- A positive scale leaves the sign of the value, and so the bias, as it is (R147). -/
theorem biasFor_mul_of_pos (quant : BitVec 8) (v : Int) {n : Int} (hn : 0 < n) :
    biasFor quant (v * n) = biasFor quant v := by
  have sign : v * n < 0 ↔ v < 0 := by simp [mul_neg_iff, hn, hn.not_gt]
  simp only [biasFor, sign]

/-- With the alternate quantizer the result is the narrowed product (R146). -/
theorem dequant_unbiased (q : BitVec 8) (sc : BitVec 9) (v : BitVec 32) :
    dequant q sc true v = BitVec.ofInt 16 (v.toInt * (sc.toNat : Int)) := rfl

/-- Otherwise it is the narrowed sum of that result and its bias (R146, R147). -/
theorem dequant_biased (q : BitVec 8) (sc : BitVec 9) (v : BitVec 32) :
    dequant q sc false v =
      BitVec.ofInt 16 ((dequant q sc true v).toInt + biasFor q (dequant q sc true v).toInt) := rfl

/-- `wrap_s16` keeps a number modulo 65536 (R148). -/
theorem toInt_ofInt_sample_sub_emod (x : Int) : ((BitVec.ofInt 16 x).toInt - x) % 65536 = 0 := by
  rw [BitVec.toInt_ofInt]
  exact Int.emod_eq_zero_of_dvd Int.dvd_bmod_sub_self

/-- `wrap_s16` is exact on the numbers R148 restricts claims to. -/
theorem toInt_ofInt_sample_of_abs_le {x : Int} (hx : |x| ≤ 32767) : (BitVec.ofInt 16 x).toInt = x := by
  obtain ⟨lower, upper⟩ := abs_le.1 hx
  exact BitVec.toInt_ofInt_eq_self (by decide) (by omega) (by omega)

section
variable {q : BitVec 8} {sc : BitVec 9} {v : BitVec 32}

/-- The bound of R148 as a bound on the exact product. -/
theorem abs_product_add_quant_le (hfit : |v.toInt| * (sc.toNat : Int) + (q.toNat : Int) ≤ 32767) :
    |v.toInt * (sc.toNat : Int)| + (q.toNat : Int) ≤ 32767 := by
  rwa [abs_mul, Nat.abs_cast]

/-- Where product and bias fit, the result without bias is the product (R148). -/
theorem toInt_dequant_unbiased_of_fits (hfit : |v.toInt| * (sc.toNat : Int) + (q.toNat : Int) ≤ 32767) :
    (dequant q sc true v).toInt = v.toInt * (sc.toNat : Int) := by
  have bound := abs_product_add_quant_le hfit
  rw [dequant_unbiased]
  exact toInt_ofInt_sample_of_abs_le (by omega)

/-- Where product and bias fit, the result with bias is the product and the bias with the sign of the value (R148). -/
theorem toInt_dequant_biased_of_fits (hfit : |v.toInt| * (sc.toNat : Int) + (q.toNat : Int) ≤ 32767)
    (hsc : 0 < sc.toNat) :
    (dequant q sc false v).toInt = v.toInt * (sc.toNat : Int) + biasFor q v.toInt := by
  have fits : |v.toInt * (sc.toNat : Int) + biasFor q v.toInt| ≤ 32767 :=
    calc |v.toInt * (sc.toNat : Int) + biasFor q v.toInt|
        ≤ |v.toInt * (sc.toNat : Int)| + |biasFor q v.toInt| := abs_add_le _ _
      _ = |v.toInt * (sc.toNat : Int)| + (q.toNat : Int) := by rw [abs_biasFor]
      _ ≤ 32767 := abs_product_add_quant_le hfit
  rw [dequant_biased, toInt_dequant_unbiased_of_fits hfit, biasFor_mul_of_pos q _ (Int.natCast_pos.2 hsc)]
  exact toInt_ofInt_sample_of_abs_le fits

end

/-! ## The statements -/

/-- Settles O31: the ranges follow from the magnitude of a quantizer that is not 0, and the two registers are written
by the derivation at the end of `CHECK`. -/
theorem quantizerDerivation : Obligations.QuantizerDerivation := by
  constructor
  · intro m h hm
    obtain ⟨lower, upper⟩ := natAbs_mquant_bounds hm
    have hscale := toNat_scaleOf m h
    rw [toNat_quantOf] at hscale ⊢
    refine ⟨Int.natCast_natAbs _, hscale, lower, upper, ?_, ?_⟩
    · omega
    · split at hscale <;> omega
  · intro c s hphase hready
    refine ⟨s.clearBlock.deriveQuant.startSelect, ?_, rfl, rfl, rfl⟩
    rw [tick_of_check c hphase, State.checkBlock_of_hostReady hready]

/-- Settles O32: each narrowing is `wrap_s16`, which keeps its operand modulo 65536 and is exact where it fits. -/
theorem dequantizeExact : Obligations.DequantizeExact := by
  intro q sc v
  refine ⟨toInt_ofInt_sample_sub_emod _, ?_, fun hfit hsc =>
    ⟨toInt_dequant_unbiased_of_fits hfit, toInt_dequant_biased_of_fits hfit hsc⟩⟩
  rw [dequant_biased, sub_sub]
  exact toInt_ofInt_sample_sub_emod _

end Sys2Proof.Machine
end

section
/-! PROOFS. The run-length coefficient sequencer: what one answer of the coefficient decoder does in a placement loop,
and where the sequencer goes when the loop ends (`spec/44_scan_and_sequencer.md` rules R159 to R166,
`spec/41_decblk.md` rules R116 to R118). -/

namespace Sys2Proof.Machine

open Sys2Proof

/-! ## The end of a placement loop -/

/-- The head of the sub-block loop moves the sequencer and the working registers alone (R116). -/
theorem State.enterFrom_eq (sh : Shape) (n : Nat) (s : State) :
    State.enterFrom sh n s =
      { s with work := (State.enterFrom sh n s).work, phase := (State.enterFrom sh n s).phase } := by
  induction n generalizing s with
  | zero => rfl
  | succ n ih =>
    rw [State.enterFrom]
    split
    case isTrue => exact ih _
    case isFalse => rfl

theorem State.enterFrom_last (sh : Shape) (n : Nat) (s : State) :
    (State.enterFrom sh n s).work.last = s.work.last := by
  induction n generalizing s with
  | zero => rfl
  | succ n ih =>
    rw [State.enterFrom]
    split
    case isTrue => exact ih _
    case isFalse => rfl

/-- After sub-block `K` the loop goes on with the sub-blocks above `K` (R116). -/
theorem State.nextSub_enters {s : State} (hk : s.work.k.toNat < s.shape.nsub) :
    EntersLoop s.shape s.work.wsubpat (s.work.k.toNat + 1) s.nextSub := by
  have first : s.shape.nsub - (s.shape.nsub - (s.work.k.toNat + 1)) = s.work.k.toNat + 1 := by omega
  have enters := State.enterFrom_enters s.shape (s.shape.nsub - (s.work.k.toNat + 1)) s (Nat.sub_le _ _)
  rwa [first] at enters

theorem State.endPull_of_skipblk {s : State} (h : s.cont.ops.skipblk = true) :
    s.endPull = (s.setPlaced s.work.k.toNat s.work.cnt).nextSub :=
  if_pos h

theorem State.endPull_of_not_skipblk {s : State} (h : s.cont.ops.skipblk = false) :
    s.endPull = (s.setPlaced s.work.k.toNat s.work.cnt).startRecon :=
  if_neg (Bool.eq_false_iff.1 h)

/-- The end of a placement loop writes `PLACED[K]` (R110); for the rest it moves only the sequencer, its
continuation and the working registers. -/
theorem State.endPull_eq (s : State) :
    s.endPull =
      { s with
        placed := s.placed.setIfInBounds s.work.k.toNat s.work.cnt
        work := s.endPull.work
        phase := s.endPull.phase
        cont := s.endPull.cont } := by
  cases hskip : s.cont.ops.skipblk with
  | false => rw [State.endPull_of_not_skipblk hskip]; rfl
  | true =>
    rw [State.endPull_of_skipblk hskip]
    refine (State.enterFrom_eq _ _ _).trans ?_
    simp [State.nextSub, State.setPlaced]

@[simp] theorem State.endPull_blk (s : State) : s.endPull.blk = s.blk := by rw [State.endPull_eq]

@[simp] theorem State.endPull_placed (s : State) :
    s.endPull.placed = s.placed.setIfInBounds s.work.k.toNat s.work.cnt := by rw [State.endPull_eq]

@[simp] theorem State.endPull_last (s : State) : s.endPull.work.last = s.work.last := by
  cases hskip : s.cont.ops.skipblk with
  | false => rw [State.endPull_of_not_skipblk hskip]; rfl
  | true => rw [State.endPull_of_skipblk hskip]; exact State.enterFrom_last _ _ _

/-- A placement loop that was in progress in `s` and has come to `u` in the same sub-block ends as R116 (c) to (e) say,
for both values of `SKIPBLK`. -/
theorem State.endPull_ends {s u : State} (hwshape : u.work.wshape = s.work.wshape)
    (hwsubpat : u.work.wsubpat = s.work.wsubpat) (hsub : u.work.k = s.work.k) (hops : u.cont.ops = s.cont.ops)
    (hk : s.work.k.toNat < s.shape.nsub) : PullEnds s u.endPull u.work.cur.toNat u.work.cnt := by
  have hshape : u.shape = s.shape := congrArg shapeOf hwshape
  have enters := State.nextSub_enters (s := u.setPlaced u.work.k.toNat u.work.cnt) (by rwa [← hsub, ← hshape] at hk)
  unfold PullEnds
  rw [← hwshape, ← hwsubpat, ← hsub, ← hops, ← hshape]
  cases hskip : u.cont.ops.skipblk with
  | false =>
    rw [State.endPull_of_not_skipblk hskip]
    exact ⟨rfl, rfl, fun _ => ⟨rfl, rfl, rfl, rfl, rfl, rfl, rfl⟩, nofun⟩
  | true =>
    rw [State.endPull_of_skipblk hskip]
    exact ⟨State.enterFrom_wshape _ _ _, State.enterFrom_wsubpat _ _ _, nofun, fun _ => enters⟩

/-! ## The cursor -/

theorem Shape.cap_le (sh : Shape) : sh.cap ≤ 64 := by cases sh <;> decide

/-- The 33 bits of `CUR` hold a cursor of a placement loop and any skip (R162). -/
theorem State.toNat_advance_cur {s : State} (hcur : s.work.cur.toNat ≤ s.shape.cap) (a : CoefAnswer) :
    (s.advance a).work.cur.toNat = s.work.cur.toNat + a.skip.toNat := by
  have cap := Shape.cap_le s.shape
  have skip := a.skip.isLt
  simp only [State.advance_work, BitVec.toNat_add, BitVec.toNat_setWidth]
  omega

theorem State.toNat_place_cur (c : Cfg) {s : State} (hcur : s.work.cur.toNat < s.shape.cap) (v : BitVec 32) :
    (s.place c v).work.cur.toNat = s.work.cur.toNat + 1 := by
  have cap := Shape.cap_le s.shape
  simp only [State.place, State.countOne_work, State.setCell_work, BitVec.toNat_add, BitVec.ofNat_eq_ofNat,
    BitVec.toNat_ofNat]
  omega

/-! ## One placement -/

@[simp] theorem State.place_blk (c : Cfg) (s : State) (v : BitVec 32) :
    (s.place c v).blk = s.blk.setIfInBounds (s.targetCell c) (s.deq v) := rfl

@[simp] theorem State.place_placed (c : Cfg) (s : State) (v : BitVec 32) : (s.place c v).placed = s.placed := rfl

@[simp] theorem State.place_k (c : Cfg) (s : State) (v : BitVec 32) : (s.place c v).work.k = s.work.k := rfl

@[simp] theorem State.place_cnt (c : Cfg) (s : State) (v : BitVec 32) :
    (s.place c v).work.cnt = s.work.cnt + 1 := rfl

/-- The cell of a triple is the one the scan table names at the cursor its skip leads to (R156, R158). -/
theorem State.advance_targetCell (c : Cfg) (s : State) (a : CoefAnswer) :
    (s.advance a).targetCell c =
      cellIndex s.shape s.work.k.toNat (scanAt c s.shape s.ctx.regime (s.advance a).work.cur.toNat) := rfl

/-- The skip of a triple does not count (R163). -/
theorem State.advance_cnt (s : State) (a : CoefAnswer) : (s.advance a).work.cnt = s.work.cnt := rfl

theorem State.advance_deq (s : State) (a : CoefAnswer) (v : BitVec 32) : (s.advance a).deq v = s.deq v := rfl

/-! ## What the sequencer moves -/

/-- `t` differs from `s` in the Block, the counts, the working registers and the sequencer alone. -/
def SequencedFrom (s t : State) : Prop :=
  t = { s with blk := t.blk, placed := t.placed, work := t.work, phase := t.phase, cont := t.cont }

theorem SequencedFrom.trans {s t u : State} (h : SequencedFrom s t) (g : SequencedFrom t u) : SequencedFrom s u := by
  unfold SequencedFrom at h g ⊢
  exact g.trans (by rw [h])

theorem State.advance_sequenced (s : State) (a : CoefAnswer) : SequencedFrom s (s.advance a) := rfl

theorem State.place_sequenced (c : Cfg) (s : State) (v : BitVec 32) : SequencedFrom s (s.place c v) := rfl

theorem State.endPull_sequenced (s : State) : SequencedFrom s s.endPull := by
  rw [SequencedFrom, State.endPull_blk, State.endPull_placed]
  exact State.endPull_eq s

/-! ## The branches of R159 -/

/-- An error (R165): the count so far, the fault with sub-block `K`, and nothing else. -/
theorem State.takeTriple_of_err (c : Cfg) {s : State} {a : CoefAnswer} (hfault : s.status.err = false)
    (h : a.err = true) :
    s.takeTriple c a =
      { s with
        placed := s.placed.setIfInBounds s.work.k.toNat s.work.cnt
        status := { err := true, errcode := 4, errsub := s.work.k }
        responses := s.responses ++ [4#4 ++ (s.takeTriple c a).statusWord]
        phase := .idle } := by
  have raises : s.takeTriple c a = (s.setPlaced s.work.k.toNat s.work.cnt).raiseFault .eStream s.work.k := if_pos h
  rw [raises]
  exact State.raiseFault_first (s := s.setPlaced s.work.k.toNat s.work.cnt) hfault s.work.k nofun

section
variable (c : Cfg) {s : State} {a : CoefAnswer}

/-- An overrun (R162): the triple is discarded, whatever its `last`. -/
theorem State.takeTriple_of_overrun (h : a.err = false) (hcap : s.shape.cap ≤ (s.advance a).work.cur.toNat) :
    s.takeTriple c a = (s.advance a).endPull :=
  (if_neg (Bool.eq_false_iff.1 h)).trans (if_pos (decide_eq_true hcap))

/-- A triple in range is placed (R163), and then the loop ends if it is the last (R164). -/
theorem State.takeTriple_of_fits (h : a.err = false) (hcap : (s.advance a).work.cur.toNat < s.shape.cap) :
    s.takeTriple c a =
      if a.last then ((s.advance a).place c a.value).endPull else (s.advance a).place c a.value :=
  (if_neg (Bool.eq_false_iff.1 h)).trans (if_neg (by simpa [overruns] using hcap))

/-- A triple that is no error is discarded with the end of the loop, or placed with or without it (R159). -/
theorem State.takeTriple_cases (h : a.err = false) :
    s.takeTriple c a = (s.advance a).endPull ∨ s.takeTriple c a = ((s.advance a).place c a.value).endPull ∨
      s.takeTriple c a = (s.advance a).place c a.value := by
  rcases Nat.lt_or_ge (s.advance a).work.cur.toNat s.shape.cap with hcap | hcap
  · rw [State.takeTriple_of_fits c h hcap]
    cases a.last with
    | true => exact .inr (.inl rfl)
    | false => exact .inr (.inr rfl)
  · exact .inl (State.takeTriple_of_overrun c h hcap)

/-- A triple that is no error changes the Block, the counts and the sequencer alone: no fault, no response. -/
theorem State.takeTriple_sequenced (h : a.err = false) : SequencedFrom s (s.takeTriple c a) := by
  have advanced := s.advance_sequenced a
  have placed := advanced.trans (State.place_sequenced c _ a.value)
  rcases State.takeTriple_cases c (s := s) h with ht | ht | ht
  · rw [ht]; exact advanced.trans (State.endPull_sequenced _)
  · rw [ht]; exact placed.trans (State.endPull_sequenced _)
  · rw [ht]; exact placed

theorem State.takeTriple_last (h : a.err = false) : (s.takeTriple c a).work.last = a.last := by
  rcases State.takeTriple_cases c (s := s) h with ht | ht | ht
  · rw [ht, State.endPull_last]; rfl
  · rw [ht, State.endPull_last]; rfl
  · rw [ht]; rfl

/-- No branch makes a further request, and none touches the plane, `TTACC`, `RESULT` or `CMDCNT`. -/
theorem State.takeTriple_frame (hfault : s.status.err = false) :
    (s.takeTriple c a).requests = s.requests ∧ (s.takeTriple c a).mem = s.mem ∧
      (s.takeTriple c a).ttacc = s.ttacc ∧ (s.takeTriple c a).result = s.result ∧
      (s.takeTriple c a).cmdcnt = s.cmdcnt := by
  cases h : a.err with
  | true => rw [State.takeTriple_of_err c hfault h]; exact ⟨rfl, rfl, rfl, rfl, rfl⟩
  | false => rw [State.takeTriple_sequenced c h]; exact ⟨rfl, rfl, rfl, rfl, rfl⟩

end

/-! ## The clauses of the statement -/

section
variable (c : Cfg) {s : State} {a : CoefAnswer} (hcur : s.work.cur.toNat ≤ s.shape.cap)

/-- An error leaves the record, the response and the count so far, and the Block as it is. -/
theorem State.takeTriple_faults (hfault : s.status.err = false) (h : a.err = true) :
    (s.takeTriple c a).phase = .idle ∧
      (s.takeTriple c a).status = { err := true, errcode := 4, errsub := s.work.k } ∧
      (s.takeTriple c a).blk = s.blk ∧
      (s.takeTriple c a).placed = s.placed.setIfInBounds s.work.k.toNat s.work.cnt ∧
      (s.takeTriple c a).responses = s.responses ++ [4#4 ++ (s.takeTriple c a).statusWord] := by
  have faulted := State.takeTriple_of_err c hfault h
  exact ⟨by rw [faulted], by rw [faulted], by rw [faulted], by rw [faulted], congrArg State.responses faulted⟩

/-- Any other triple raises no fault and sends no response. -/
theorem State.takeTriple_silent (h : a.err = false) :
    (s.takeTriple c a).status = s.status ∧ (s.takeTriple c a).responses = s.responses ∧
      (s.takeTriple c a).work.last = a.last := by
  have unfaulted := State.takeTriple_sequenced c (s := s) h
  exact ⟨by rw [unfaulted], by rw [unfaulted], State.takeTriple_last c h⟩

include hcur

/-- An overrun leaves the Block and ends the loop with the count as it was. -/
theorem State.takeTriple_discards (hk : s.work.k.toNat < s.shape.nsub) (h : a.err = false)
    (hcap : s.shape.cap ≤ s.work.cur.toNat + a.skip.toNat) :
    (s.takeTriple c a).blk = s.blk ∧
      (s.takeTriple c a).placed = s.placed.setIfInBounds s.work.k.toNat s.work.cnt ∧
      PullEnds s (s.takeTriple c a) (s.work.cur.toNat + a.skip.toNat) s.work.cnt := by
  have cursor := State.toNat_advance_cur hcur a
  rw [State.takeTriple_of_overrun c h (cursor ▸ hcap)]
  exact ⟨State.endPull_blk (s.advance a), State.endPull_placed (s.advance a),
    cursor ▸ State.endPull_ends (u := s.advance a) rfl rfl rfl rfl hk⟩

/-- A triple in range fills the cell its cursor names. -/
theorem State.takeTriple_fills (h : a.err = false)
    (hcap : s.work.cur.toNat + a.skip.toNat < s.shape.cap) :
    (s.takeTriple c a).blk = s.blk.setIfInBounds
      (cellIndex s.shape s.work.k.toNat (scanAt c s.shape s.ctx.regime (s.work.cur.toNat + a.skip.toNat)))
      (s.deq a.value) := by
  have cursor := State.toNat_advance_cur hcur a
  rw [State.takeTriple_of_fits c h (cursor ▸ hcap), ← cursor, ← State.advance_targetCell, ← State.advance_deq s a]
  cases a.last with
  | true => exact State.endPull_blk _
  | false => rfl

/-- A last triple in range is counted and ends the loop. -/
theorem State.takeTriple_ends (hk : s.work.k.toNat < s.shape.nsub) (h : a.err = false) (hlast : a.last = true)
    (hcap : s.work.cur.toNat + a.skip.toNat < s.shape.cap) :
    (s.takeTriple c a).placed = s.placed.setIfInBounds s.work.k.toNat (s.work.cnt + 1) ∧
      PullEnds s (s.takeTriple c a) (s.work.cur.toNat + a.skip.toNat + 1) (s.work.cnt + 1) := by
  have advanced := State.toNat_advance_cur hcur a
  have cursor := State.toNat_place_cur c (s := s.advance a) (advanced ▸ hcap) a.value
  rw [State.takeTriple_of_fits c h (advanced ▸ hcap), if_pos hlast, ← advanced, ← cursor, ← s.advance_cnt a,
    ← State.place_cnt c (s.advance a) a.value]
  exact ⟨State.endPull_placed ((s.advance a).place c a.value),
    State.endPull_ends (u := (s.advance a).place c a.value) rfl rfl rfl rfl hk⟩

/-- Any other triple in range is counted, and the loop goes on at the next cursor. -/
theorem State.takeTriple_goes_on (hphase : s.phase = .pull) (h : a.err = false) (hlast : a.last = false)
    (hcap : s.work.cur.toNat + a.skip.toNat < s.shape.cap) :
    (s.takeTriple c a).phase = .pull ∧ (s.takeTriple c a).placed = s.placed ∧
      (s.takeTriple c a).work.k = s.work.k ∧
      (s.takeTriple c a).work.cur.toNat = s.work.cur.toNat + a.skip.toNat + 1 ∧
      (s.takeTriple c a).work.cnt = s.work.cnt + 1 := by
  have advanced := State.toNat_advance_cur hcur a
  have cursor := State.toNat_place_cur c (s := s.advance a) (advanced ▸ hcap) a.value
  rw [State.takeTriple_of_fits c h (advanced ▸ hcap), if_neg (Bool.eq_false_iff.1 hlast), ← advanced, ← s.advance_cnt a]
  exact ⟨hphase, State.place_placed _ _ _, State.place_k _ _ _, cursor, State.place_cnt _ _ _⟩

end

/-! ## The statement -/

/-- Settles O38: the step is one answered coefficient request followed by the branch of R159 that the answer takes. The
invariant gives that no fault is pending, that the cursor is within the sub-block, so that the sum of R162 does not
wrap, and that `K` is a sub-block of the shape. -/
theorem placementStep : Obligations.PlacementStep := by
  intro c s code rest hphase hinv hstream hgrants
  have hfault : s.status.err = false := hinv.runsUnfaulted (.inr (by rw [hphase]; rfl))
  obtain ⟨hcur, -⟩ := hinv.cursor hphase
  obtain ⟨hk, -⟩ := hinv.loopSub (by rw [hphase]; rfl)
  have answers : s.agentsAnswer = true := by simp [State.agentsAnswer, hgrants]
  obtain ⟨requests, mem, ttacc, result, cmdcnt⟩ :=
    State.takeTriple_frame c (s := s.gotCode (.coefNext s.ctx.codingset) rest) (a := code.coef) hfault
  refine ⟨_, (tick_answer_iff c s _).2 (.pull hphase code rest hstream answers),
    requests, mem, ttacc, result, cmdcnt, ?error, ?noError, ?overrun, ?placed⟩
  case error => exact State.takeTriple_faults c hfault
  case noError => exact State.takeTriple_silent c
  case overrun => exact fun herr hcap => State.takeTriple_discards c hcur hk herr hcap
  case placed =>
    exact fun herr hcap => ⟨State.takeTriple_fills c hcur herr hcap,
      fun hlast => State.takeTriple_ends c hcur hk herr hlast hcap,
      fun hlast => State.takeTriple_goes_on c hcur hphase herr hlast hcap⟩

end Sys2Proof.Machine
end

section
/-! PROOFS. The pattern bitmap: which sub-block holds a quadrant, and the bit of `PAT` for it
(`spec/45_reconstruct.md` rule R188, `spec/10_state.md` rule R34). -/

namespace Sys2Proof.Machine

open Sys2Proof

/-! ## The sub-block of a quadrant -/

/-- The sub-block that holds quadrant `q`: a quadrant is itself a sub-block of the four, lies in the upper or lower half
by its row, and in the left or right half by its column (R34). -/
def subOfQuadrant (sh : Shape) (q : Nat) : Nat :=
  match sh with
  | .full8x8 => 0
  | .quad4x4 => q
  | .pair8x4 => q / 2
  | .pair4x8 => q % 2

/-- A sub-block with the first cell of quadrant `q` among its cells is `subOfQuadrant`. -/
theorem eq_subOfQuadrant_of_cell {sh : Shape} {q k p : Nat} (hk : k < sh.nsub) (hp : p < sh.cap)
    (hcell : cellIndex sh k p = 8 * (4 * (q / 2)) + 4 * (q % 2)) : k = subOfQuadrant sh q := by
  cases sh with
  | full8x8 =>
    simp only [Shape.nsub] at hk
    exact Nat.lt_one_iff.1 hk
  | quad4x4 | pair8x4 | pair4x8 =>
    simp only [Shape.nsub, Shape.cap, Shape.width, Shape.height, cellIndex, x0, y0, subOfQuadrant] at *
    omega

/-! ## The bits of the bitmap -/

/-- A shape without a sub-pattern has no empty sub-block (R116 (a)). -/
theorem isEmptySub_full8x8 (w : BitVec 4) (k : Nat) : isEmptySub .full8x8 w k = false := rfl

/-- Sub-block `k` of the four is marked by bit `3-k` (R137). -/
theorem isEmptySub_quad4x4 (w : BitVec 4) (k : Nat) : isEmptySub .quad4x4 w k = w.getLsbD (3 - k) := rfl

/-- Sub-block `k` of the two is marked by bit `1-k` (R137). -/
theorem isEmptySub_pair8x4 (w : BitVec 4) (k : Nat) : isEmptySub .pair8x4 w k = w.getLsbD (1 - k) := rfl

/-- Sub-block `k` of the two is marked by bit `1-k` (R137). -/
theorem isEmptySub_pair4x8 (w : BitVec 4) (k : Nat) : isEmptySub .pair4x8 w k = w.getLsbD (1 - k) := rfl

/-- The low half of `PAT` is the bitmap of the quadrants. -/
theorem patOf_getLsbD (sh : Shape) (w : BitVec 4) {i : Nat} (hi : i < 4) :
    (patOf sh w).getLsbD i = (quadrants sh w).getLsbD i := by
  simp [patOf, show i < 8 by omega]

/-- Its high half is 0 (R188). -/
theorem patOf_high (sh : Shape) (w : BitVec 4) : (patOf sh w).extractLsb' 4 4 = 0 := by
  ext i hi
  simp [patOf]

/-- The bit of a quadrant says that its sub-block is not marked empty (R188). -/
theorem quadrants_getLsbD {sh : Shape} {w : BitVec 4} {q : Nat} (hw : w.toNat < 2 ^ pbits sh) (hq : q < 4) :
    (quadrants sh w).getLsbD (3 - q) = !isEmptySub sh w (subOfQuadrant sh q) := by
  cases sh with
  | full8x8 =>
    rw [isEmptySub_full8x8]
    have all : ∀ q < 4, (0xF : BitVec 4).getLsbD (3 - q) = true := by decide
    exact all q hq
  | quad4x4 =>
    rw [isEmptySub_quad4x4, quadrants, BitVec.getLsbD_not, decide_eq_true (by omega), Bool.true_and, subOfQuadrant]
  | pair8x4 =>
    rw [isEmptySub_pair8x4]
    have all : ∀ w : BitVec 4, w.toNat < 4 → ∀ q < 4,
        (quadrants .pair8x4 w).getLsbD (3 - q) = !w.getLsbD (1 - q / 2) := by decide
    exact all w hw q hq
  | pair4x8 =>
    rw [isEmptySub_pair4x8]
    have all : ∀ w : BitVec 4, w.toNat < 4 → ∀ q < 4,
        (quadrants .pair4x8 w).getLsbD (3 - q) = !w.getLsbD (1 - q % 2) := by decide
    exact all w hw q hq

/-! ## The statement -/

/-- Settles O30: the cell that a quadrant and a sub-block share says which sub-block it is, and the bit of the quadrant
is that sub-block's. -/
theorem patternBitmap : Obligations.PatternBitmap := by
  refine ⟨⟨rfl, rfl, rfl, rfl, rfl, rfl, rfl⟩, fun _ => rfl, ?quadrant, patOf_high⟩
  case quadrant =>
    rintro sh w q k hw hq hk ⟨p, hp, hcell⟩
    rw [patOf_getLsbD sh w (by omega), quadrants_getLsbD hw hq, eq_subOfQuadrant_of_cell hk hp hcell]

end Sys2Proof.Machine
end

section
/-! PROOFS. The reconstruction of a sub-block: the transform request, the pixels accumulated one after the other, and
where the sub-block loop goes on (`spec/45_reconstruct.md` rules R175 to R182, `spec/20_memory.md` rules R53 to R56). -/

namespace Sys2Proof.Machine

open Sys2Proof

/-! ## The plane while the pixels are accumulated -/

section
variable (s : State) (res : List Sample)

theorem State.accumulated_wf (hwf : Memory.wf s.mem = true) (n : Nat) :
    Memory.wf (s.accumulated res n).1 = true := by
  induction n with
  | zero => exact hwf
  | succ n ih => exact Memory.wf_write _ _ _ ih

/-- A byte that is none of the first `n` pixels is as it was. -/
theorem State.read_accumulated_other {n : Nat} {a : Addr} (ha : ∀ i, i < n → a ≠ s.pixelAddr i) :
    Memory.read (s.accumulated res n).1 a.toNat = s.byteAt a := by
  induction n with
  | zero => rfl
  | succ n ih =>
    have differs : (s.pixelAddr n).toNat ≠ a.toNat := fun e => ha n (by omega) (BitVec.eq_of_toNat_eq e).symm
    exact (Memory.read_write_other _ _ _ _ differs).trans (ih fun i hi => ha i (by omega))

/-- Where the addresses are distinct, each of the first `n` pixels is the clamped sum of its own byte and sample: its
own write sees the byte as it was, and no later write reaches it (R182). -/
theorem State.read_accumulated_pixel (hwf : Memory.wf s.mem = true)
    (hdistinct : s.pixelsDistinct s.shape s.work.k.toNat) {n i : Nat} (hn : n ≤ s.shape.cap) (hi : i < n) :
    Memory.read (s.accumulated res n).1 (s.pixelAddr i).toNat =
      accumulate (s.byteAt (s.pixelAddr i)) (sampleAt res i) := by
  have addr_ne {j : Nat} (hj : j < s.shape.cap) (hij : i ≠ j) : s.pixelAddr i ≠ s.pixelAddr j :=
    fun e => hij (hdistinct i j (by omega) hj e)
  induction n with
  | zero => omega
  | succ n ih =>
    rcases Nat.lt_succ_iff_lt_or_eq.1 hi with hlt | rfl
    · have differs : (s.pixelAddr n).toNat ≠ (s.pixelAddr i).toNat :=
        fun e => addr_ne (by omega) (by omega) (BitVec.eq_of_toNat_eq e).symm
      exact (Memory.read_write_other _ _ _ _ differs).trans (ih (by omega) hlt)
    · have unread : Memory.read (s.accumulated res i).1 (s.pixelAddr i).toNat = s.byteAt (s.pixelAddr i) :=
        s.read_accumulated_other res fun j hj => addr_ne (j := j) (by omega) (by omega)
      rw [← unread]
      exact Memory.read_write_same _ _ _ (s.accumulated_wf res hwf i)

end

/-! ## The steps of a reconstruction -/

theorem ticks_succ_of_ticked {c : Cfg} {s t : State} (h : Ticked c s t) (n : Nat) :
    ticks c (n + 1) s = ticks c n t := by
  rw [ticks, (tick_answer_iff c s t).2 h]

/-- The pixel in progress read, and the byte `new` written to it. -/
def State.rewritePixel (s : State) (new : Byte) : State :=
  (((s.answered (.memRead (s.pixelAddr s.cont.pix))).setOld (s.byteAt (s.pixelAddr s.cont.pix))).answered
    (.memWrite (s.pixelAddr s.cont.pix) new)).setByte (s.pixelAddr s.cont.pix) new

/-- Two steps, a read and a write, accumulate the pixel in progress (R175, R182). -/
theorem ticks_of_pixel (c : Cfg) {s : State} (hphase : s.phase = .recon) (henv : s.environmentAnswers)
    {res : List Sample} (hres : s.cont.res = some res) (hold : s.cont.old = none) (m : Nat) :
    ticks c (m + 2) s =
      ticks c m (s.rewritePixel
        (accumulate (s.byteAt (s.pixelAddr s.cont.pix)) (sampleAt res s.cont.pix))).pixelDone := by
  obtain ⟨hgrants, hordinary⟩ := henv
  have answers : s.agentsAnswer = true := by simp [State.agentsAnswer, hgrants]
  have answers_next : (s.answered (.memRead (s.pixelAddr s.cont.pix))).agentsAnswer = true := by
    simp [State.agentsAnswer, hgrants]
  have written := Ticked.pixelWrite (c := c)
    (s := (s.answered (.memRead (s.pixelAddr s.cont.pix))).setOld (s.byteAt (s.pixelAddr s.cont.pix)))
    hphase res hres _ rfl (hordinary _) answers_next
  rw [ticks_succ_of_ticked (.pixelRead hphase res hres hold (hordinary _) answers)]
  exact ticks_succ_of_ticked written m

/-- Past a pixel the sub-block goes on, or is left after the last (R56, R116). -/
theorem State.pixelDone_of_nextPixel {s t : State} (h : s.nextPixel = t) :
    s.pixelDone = if t.cont.pix < t.shape.cap then t else t.nextSub := by
  rw [← h]
  rfl

/-- The state that `s`, at the start of a reconstruction, has come to when the samples have been answered to the request
`call` and the first `n` pixels have been accumulated. -/
def State.reconstructing (s : State) (call : Request) (res : List Sample) (n : Nat) : State :=
  { s with
    cont := { s.cont with res := some res, pix := n, old := none }
    outstanding := none
    mem := (s.accumulated res n).1
    requests := s.requests ++ call :: (s.accumulated res n).2 }

/-- With no limit of grants, a read and a write of pixel `n` make one more pixel accumulated. -/
theorem State.nextPixel_reconstructing {s : State} (hgrants : s.grants = none) (call : Request) (res : List Sample)
    (n : Nat) :
    ((s.reconstructing call res n).rewritePixel
      (accumulate (Memory.read (s.accumulated res n).1 (s.pixelAddr n).toNat) (sampleAt res n))).nextPixel =
        s.reconstructing call res (n + 1) := by
  have addr : (s.reconstructing call res n).pixelAddr (s.reconstructing call res n).cont.pix = s.pixelAddr n := rfl
  rw [State.rewritePixel, addr]
  simp [State.reconstructing, State.accumulated, State.answered, State.setOld, State.setByte, State.nextPixel,
    hgrants]

section
variable (c : Cfg) {s : State} (hphase : s.phase = .recon)

include hphase in
/-- The transform request leads to the first pixel (R175). -/
theorem State.ticked_reconstructing_zero (hres : s.cont.res = none) (hgrants : s.grants = none) :
    Ticked c s (s.reconstructing (.itxCall (shapeCode s.shape) (s.itxKind c) s.coeffs)
      (itxSamples c s.shape (s.itxKind c) s.coeffs) 0) := by
  have step := Ticked.transform (c := c) hphase hres (by simp [State.agentsAnswer, hgrants])
  simpa [State.answered, State.setRes, State.reconstructing, State.accumulated, hgrants] using step

variable (henv : s.environmentAnswers) (call : Request) (res : List Sample)

include hphase henv

/-- Two steps accumulate the next pixel; then the one after it begins, or the sub-block is left. -/
theorem State.ticks_pixel (m n : Nat) :
    ticks c (m + 2) (s.reconstructing call res n) =
      ticks c m (if n + 1 < s.shape.cap then s.reconstructing call res (n + 1)
        else (s.reconstructing call res (n + 1)).nextSub) := by
  have byte : (s.reconstructing call res n).byteAt
      ((s.reconstructing call res n).pixelAddr (s.reconstructing call res n).cont.pix) =
        Memory.read (s.accumulated res n).1 (s.pixelAddr n).toNat := rfl
  have pix : (s.reconstructing call res n).cont.pix = n := rfl
  rw [ticks_of_pixel c (s := s.reconstructing call res n) hphase henv rfl rfl, byte, pix,
    State.pixelDone_of_nextPixel (State.nextPixel_reconstructing henv.1 call res n)]
  rfl

/-- The pixels left, one after the other, and out of the sub-block after the last (R56, R116). -/
theorem State.ticks_pixels (m n : Nat) (hn : n + (m + 1) = s.shape.cap) :
    ticks c (2 * (m + 1)) (s.reconstructing call res n) =
      some (s.reconstructing call res s.shape.cap).nextSub := by
  induction m generalizing n with
  | zero =>
    refine (State.ticks_pixel c hphase henv call res 0 n).trans ?_
    rw [if_neg (by omega), ticks, show n + 1 = s.shape.cap from hn]
  | succ m ih =>
    refine (State.ticks_pixel c hphase henv call res (2 * (m + 1)) n).trans ?_
    rw [if_pos (by omega)]
    exact ih (n + 1) (by omega)

end

theorem Shape.cap_pos (sh : Shape) : 0 < sh.cap := by cases sh <;> decide

/-- The whole reconstruction of a sub-block (R175): one transform request and two requests for each pixel. -/
theorem State.ticks_reconstruction (c : Cfg) {s : State} (hphase : s.phase = .recon) (hres : s.cont.res = none)
    (henv : s.environmentAnswers) :
    ticks c (1 + 2 * s.shape.cap) s =
      some (s.reconstructing (.itxCall (shapeCode s.shape) (s.itxKind c) s.coeffs)
        (itxSamples c s.shape (s.itxKind c) s.coeffs) s.shape.cap).nextSub := by
  obtain ⟨m, hm⟩ : ∃ m, s.shape.cap = m + 1 := Nat.exists_eq_add_one.2 (Shape.cap_pos _)
  rw [Nat.add_comm, ticks_succ_of_ticked (State.ticked_reconstructing_zero c hphase hres henv.1), hm,
    State.ticks_pixels c hphase henv _ _ m 0 (by omega), hm]

/-- From any sub-block the loop goes on with those above it; past the last of the shape it ends (R116). -/
theorem State.nextSub_entersLoop (s : State) :
    EntersLoop s.shape s.work.wsubpat (s.work.k.toNat + 1) s.nextSub := by
  rcases Nat.lt_or_ge s.work.k.toNat s.shape.nsub with hk | hk
  · exact State.nextSub_enters hk
  · have none_left : s.nextSub = s.startFinish := by
      rw [State.nextSub, Nat.sub_eq_zero_of_le (by omega), State.enterFrom]
    rw [none_left]
    exact .inl ⟨rfl, fun j _ _ => by omega⟩

/-! ## The statement -/

/-- Settles O39: the steps come to the state of `reconstructing` with all pixels accumulated, left by the head of the
sub-block loop, which moves working registers and the sequencer alone. -/
theorem reconstructionAddsClamped : Obligations.ReconstructionAddsClamped := by
  intro c s hphase hres _ _ henv hwf
  refine ⟨_, _, State.ticks_reconstruction c hphase hres henv, rfl, State.enterFrom_mem _ _ _,
    State.enterFrom_requests _ _ _, fun hdistinct i hi => ?pixel, fun a ha => ?other, State.enterFrom_blk _ _ _,
    State.enterFrom_placed _ _ _, State.enterFrom_result _ _ _, State.enterFrom_ttacc _ _ _,
    State.enterFrom_status _ _ _, State.enterFrom_cmdcnt _ _ _, State.enterFrom_qctx _ _ _,
    State.enterFrom_ctx _ _ _, State.enterFrom_dstbase _ _ _, State.enterFrom_dststride _ _ _,
    State.enterFrom_cfgv _ _ _, State.enterFrom_quant _ _ _, State.enterFrom_scale _ _ _,
    State.enterFrom_stream _ _ _, State.enterFrom_responses _ _ _, State.nextSub_entersLoop _⟩
  case pixel =>
    rw [State.byteAt, State.nextSub, State.enterFrom_mem]
    exact s.read_accumulated_pixel _ hwf hdistinct le_rfl hi
  case other =>
    rw [State.byteAt, State.nextSub, State.enterFrom_mem]
    exact s.read_accumulated_other _ ha

end Sys2Proof.Machine
end

section
/-! PROOFS. `SKIPBLK`: a `DECBLK` with it set makes the steps of the same `DECBLK` with it clear, but for those of the
reconstructions (`spec/45_reconstruct.md` rule R185). -/

namespace Sys2Proof.Machine

open Sys2Proof

/-! ## What `SKIPBLK` leaves alone -/

/-- The state without what a reconstruction may change: the plane, the requests, the part of the continuation that
belongs to `RECON`; `SKIPBLK` is set and the agents answer. -/
def State.stripped (s : State) : State :=
  { s with
    mem := []
    requests := []
    outstanding := none
    grants := none
    cont := { s.cont with ops := { s.cont.ops with skipblk := true }, res := none, pix := 0, old := none } }

/-- The state past the reconstruction in progress, if there is one. -/
def State.pastRecon (s : State) : State := if s.phase = .recon then s.nextSub else s

/-- A state as it would be if no sub-block were reconstructed. -/
def State.skipView (s : State) : State := s.pastRecon.stripped

theorem State.skipView_of_ne_recon {s : State} (h : s.phase ≠ .recon) : s.skipView = s.stripped := by
  rw [State.skipView, State.pastRecon, if_neg h]

theorem State.skipView_of_idle {s : State} (h : s.phase = .idle) : s.skipView = s.stripped :=
  State.skipView_of_ne_recon (by rw [h]; nofun)

/-! ## The operations of a `DECBLK` on stripped states -/

theorem State.enterFrom_phase_ne_recon (sh : Shape) (n : Nat) (s : State) :
    (State.enterFrom sh n s).phase ≠ .recon := by
  induction n generalizing s with
  | zero => nofun
  | succ n ih =>
    rw [State.enterFrom]
    split
    case isTrue => exact ih _
    case isFalse => nofun

theorem State.enterFrom_stripped (sh : Shape) (n : Nat) (s : State) :
    (State.enterFrom sh n s).stripped = State.enterFrom sh n s.stripped := by
  induction n generalizing s with
  | zero => rfl
  | succ n ih =>
    simp only [State.enterFrom, apply_ite State.stripped]
    rw [ih]
    rfl

/-- The head of the sub-block loop sets the phase, whatever it was. -/
theorem State.enterFrom_ignores_phase (sh : Shape) (n : Nat) (s : State) (p : Phase) :
    State.enterFrom sh n { s with phase := p } = State.enterFrom sh n s := by
  induction n generalizing s with
  | zero => rfl
  | succ n ih =>
    simp only [State.enterFrom]
    rw [← ih (s.setSub _ true)]
    rfl

theorem State.nextSub_skipView (s : State) : s.nextSub.skipView = s.stripped.nextSub :=
  (State.skipView_of_ne_recon (State.enterFrom_phase_ne_recon _ _ s)).trans (State.enterFrom_stripped _ _ s)

theorem State.skipView_of_recon {s : State} (h : s.phase = .recon) : s.skipView = s.stripped.nextSub := by
  rw [State.skipView, State.pastRecon, if_pos h]
  exact State.enterFrom_stripped _ _ s

theorem State.raiseFault_stripped (s : State) (code : StatusCode) (sub : BitVec 2) :
    (s.raiseFault code sub).stripped = s.stripped.raiseFault code sub := by
  have same : (s.recordFault code sub).stripped = s.stripped.recordFault code sub := by
    simp only [State.recordFault, apply_ite State.stripped]
    rfl
  show (s.recordFault code sub).stripped.respond code (s.recordFault code sub).stripped.statusWord = _
  rw [same]
  rfl

theorem State.checkBlock_skipView (s : State) : s.checkBlock.skipView = s.stripped.checkBlock := by
  have configured : s.stripped.configured = s.configured := rfl
  have mquant : s.stripped.qctx.mquant = s.qctx.mquant := rfl
  rw [State.checkBlock, State.checkBlock, configured, mquant]
  by_cases hcfg : (!s.configured) = true
  · rw [if_pos hcfg, if_pos hcfg]
    exact (State.skipView_of_idle rfl).trans (State.raiseFault_stripped _ _ _)
  · rw [if_neg hcfg, if_neg hcfg]
    by_cases hq : s.qctx.mquant = 0
    · rw [if_pos hq, if_pos hq]
      exact (State.skipView_of_idle rfl).trans (State.raiseFault_stripped _ _ _)
    · rw [if_neg hq, if_neg hq]
      rfl

theorem State.setRaw_skipView {s : State} (hphase : s.phase ≠ .recon) (raw : BitVec 3) :
    (s.setRaw raw).skipView = s.stripped.setRaw raw := State.skipView_of_ne_recon hphase

theorem State.selected_phase_ne_recon (s : State) (w : BitVec 4) : (s.selected w).phase ≠ .recon :=
  State.enterFrom_phase_ne_recon _ _ _

theorem State.selected_skipView (s : State) (w : BitVec 4) : (s.selected w).skipView = s.stripped.selected w :=
  (State.skipView_of_ne_recon (s.selected_phase_ne_recon w)).trans (State.enterFrom_stripped _ _ _)

/-- The end of a placement loop: past the reconstruction that `SKIPBLK` = 0 starts, the loop goes on as it does at once
with `SKIPBLK` = 1 (R116 (d), R185). -/
theorem State.endPull_skipView (s : State) : s.endPull.skipView = s.stripped.endPull := by
  rw [State.endPull_of_skipblk (s := s.stripped) rfl]
  cases hskip : s.cont.ops.skipblk with
  | true =>
    rw [State.endPull_of_skipblk hskip]
    exact State.nextSub_skipView _
  | false =>
    rw [State.endPull_of_not_skipblk hskip]
    refine (State.skipView_of_recon rfl).trans ?_
    exact State.enterFrom_ignores_phase _ _ (s.setPlaced s.work.k.toNat s.work.cnt).stripped .recon

/-- A failing answer raises `E_STREAM` after the count so far is kept, whether or not a fault is pending (R165). -/
theorem State.takeTriple_raises (c : Cfg) (s : State) {a : CoefAnswer} (herr : a.err = true) :
    s.takeTriple c a = (s.setPlaced s.work.k.toNat s.work.cnt).raiseFault .eStream s.work.k := if_pos herr

theorem State.takeTriple_skipView (c : Cfg) {s : State} (hphase : s.phase ≠ .recon) (a : CoefAnswer) :
    (s.takeTriple c a).skipView = s.stripped.takeTriple c a := by
  cases herr : a.err with
  | true =>
    rw [State.takeTriple_raises c s herr, State.takeTriple_raises c s.stripped herr]
    exact (State.skipView_of_idle rfl).trans (State.raiseFault_stripped _ _ _)
  | false =>
    rcases Nat.lt_or_ge (s.advance a).work.cur.toNat s.shape.cap with hcap | hcap
    · rw [State.takeTriple_of_fits c herr hcap, State.takeTriple_of_fits c (s := s.stripped) herr hcap]
      cases a.last with
      | true => exact State.endPull_skipView _
      | false => exact State.skipView_of_ne_recon hphase
    · rw [State.takeTriple_of_overrun c herr hcap, State.takeTriple_of_overrun c (s := s.stripped) herr hcap]
      exact State.endPull_skipView _

theorem State.finishBlock_skipView (s : State) : s.finishBlock.skipView = s.stripped.finishBlock := by
  have same : s.updateTtacc.stripped = s.stripped.updateTtacc := by
    simp only [State.updateTtacc, apply_ite State.stripped]
    rfl
  refine (State.skipView_of_idle rfl).trans ?_
  show (s.updateTtacc.stripped.setResult s.finalResult).respond .ok (resultWord s.finalResult) = _
  rw [same]
  rfl

/-! ## The steps of a `DECBLK` on stripped states -/

theorem Ticked.unique {c : Cfg} {s t u : State} (ht : Ticked c s t) (hu : Ticked c s u) : t = u :=
  (Reply.answer.inj (((tick_answer_iff c s t).2 ht).symm.trans ((tick_answer_iff c s u).2 hu))).2

/-- The steps of a reconstruction do not show. -/
theorem Ticked.skipView_of_recon {c : Cfg} {s t : State} (h : Ticked c s t) (hphase : s.phase = .recon) :
    t.skipView = s.skipView := by
  rw [State.skipView_of_recon hphase]
  cases h with
  | transform | pixelRead => exact State.skipView_of_recon hphase
  | pixelWrite =>
    unfold State.pixelDone
    split
    case isTrue => exact State.skipView_of_recon hphase
    case isFalse => exact State.nextSub_skipView _
  | check h | rawGiven h | rawRead h | patGiven h | patRead h | pull h | finish h => cases hphase.symm.trans h

/-- Any other step is one of the stripped state too. -/
theorem Ticked.stripped {c : Cfg} {s t : State} (h : Ticked c s t) (hphase : s.phase ≠ .recon) :
    ∃ v, Ticked c s.stripped v ∧ v.skipView = t.skipView := by
  cases h with
  | check h =>
    exact ⟨_, .check h, (State.checkBlock_skipView s.stripped).trans (State.checkBlock_skipView s).symm⟩
  | rawGiven h hr hn =>
    exact ⟨_, .rawGiven h hr hn, (State.setRaw_skipView (s := s.stripped) hphase _).trans
      (State.setRaw_skipView hphase _).symm⟩
  | rawRead h hr hn code rest hs =>
    exact ⟨_, .rawRead (s := s.stripped) h hr hn code rest hs rfl,
      (State.setRaw_skipView (s := s.stripped.gotCode _ rest) hphase _).trans
        (State.setRaw_skipView (s := s.gotCode _ rest) hphase _).symm⟩
  | patGiven h hr hp =>
    exact ⟨_, .patGiven h hr hp, (State.selected_skipView s.stripped _).trans (State.selected_skipView s _).symm⟩
  | patRead h hr cls hp code rest hs =>
    exact ⟨_, .patRead (s := s.stripped) h hr cls hp code rest hs rfl,
      (State.selected_skipView (s.stripped.gotCode _ rest) _).trans
        (State.selected_skipView (s.gotCode _ rest) _).symm⟩
  | pull h code rest hs =>
    exact ⟨_, .pull (s := s.stripped) h code rest hs rfl,
      (State.takeTriple_skipView c (s := s.stripped.gotCode _ rest) hphase _).trans
        (State.takeTriple_skipView c (s := s.gotCode _ rest) hphase _).symm⟩
  | finish h =>
    exact ⟨_, .finish h, (State.finishBlock_skipView s.stripped).trans (State.finishBlock_skipView s).symm⟩
  | transform h | pixelRead h | pixelWrite h => exact absurd h hphase

/-! ## Whole runs -/

/-- A run that ends is a sequence of steps. -/
theorem ticked_star_of_run {c : Cfg} {n : Nat} {s t : State} (h : run c n s = .next t) (hidle : t.phase = .idle) :
    Relation.ReflTransGen (Ticked c) s t := by
  induction n generalizing s with
  | zero =>
    cases h
    exact .refl
  | succ n ih =>
    by_cases hi : s.phase = .idle
    · rw [run_idle c _ s hi] at h
      cases h
      exact .refl
    · rw [run_succ c n s hi] at h
      cases ht : tick c s with
      | answer _ u =>
        rw [ht] at h
        exact .head ((tick_answer_iff c s u).1 ht) (ih h)
      | waits u =>
        rw [ht] at h
        cases h
        rcases tick_waits c s _ ht with ⟨r, rfl⟩ | ⟨-, rfl⟩
        · exact absurd hidle hi
        · exact absurd hidle hi
      | refused r => simp [ht] at h

/-- One step of the `DECBLK` without reconstructions, on views. -/
def SkipTick (c : Cfg) (x y : State) : Prop := ∃ v, Ticked c x v ∧ v.skipView = y

theorem skipTick_rightUnique (c : Cfg) : Relator.RightUnique (SkipTick c) := by
  rintro x y z ⟨v, hv, rfl⟩ ⟨w, hw, rfl⟩
  rw [hv.unique hw]

theorem not_ticked_of_idle {c : Cfg} {s t : State} (h : s.phase = .idle) : ¬ Ticked c s t := by
  rw [← tick_answer_iff, tick, h]
  nofun

/-- Each step is one without reconstructions, or does not show. -/
theorem Ticked.skipTick {c : Cfg} {s t : State} (h : Ticked c s t) :
    Relation.ReflTransGen (SkipTick c) s.skipView t.skipView := by
  by_cases hphase : s.phase = .recon
  · rw [h.skipView_of_recon hphase]
  · rw [State.skipView_of_ne_recon hphase]
    exact .single (h.stripped hphase)

theorem skipTick_star_of_run {c : Cfg} {n : Nat} {s t : State} (h : run c n s = .next t) (hidle : t.phase = .idle) :
    Relation.ReflTransGen (SkipTick c) s.skipView t.skipView :=
  (ticked_star_of_run h hidle).lift' State.skipView fun _ _ => Ticked.skipTick

/-- Nothing follows the view of a state in `IDLE`. -/
theorem skipView_eq_of_star_of_idle {c : Cfg} {s x : State} (hidle : s.phase = .idle)
    (h : Relation.ReflTransGen (SkipTick c) s.skipView x) : s.skipView = x := by
  rw [State.skipView_of_idle hidle] at h ⊢
  rcases h.cases_head with e | ⟨_, ⟨_, step, _⟩, _⟩
  · exact e
  · exact absurd step (not_ticked_of_idle hidle)

/-- Two runs that begin with the same view and end, end with the same view: each is the one sequence of steps without
reconstructions from there. -/
theorem stripped_eq_of_runs {c : Cfg} {m n : Nat} {s t u v : State} (ht : run c m s = .next t)
    (hv : run c n u = .next v) (hstart : s.skipView = u.skipView) (htidle : t.phase = .idle)
    (hvidle : v.phase = .idle) : t.stripped = v.stripped := by
  have path_t := skipTick_star_of_run ht htidle
  have path_v := skipTick_star_of_run hv hvidle
  rw [← State.skipView_of_idle htidle, ← State.skipView_of_idle hvidle]
  rcases path_t.total_of_right_unique (skipTick_rightUnique c) (hstart ▸ path_v) with h | h
  · exact skipView_eq_of_star_of_idle htidle h
  · exact (skipView_eq_of_star_of_idle hvidle h).symm

/-! ## The requests of a `DECBLK` with `SKIPBLK` -/

/-- From `s` to `t` the plane has not changed, and only symbols and coefficients have been requested. -/
def OnlyDecoded (s t : State) : Prop :=
  t.mem = s.mem ∧ ∃ log, t.requests = s.requests ++ log ∧
    ∀ r ∈ log, (∃ cls reg, r = .symRead cls reg) ∨ r = .coefNext s.ctx.codingset

theorem OnlyDecoded.of_eq {s t : State} (hmem : t.mem = s.mem) (hrequests : t.requests = s.requests) :
    OnlyDecoded s t :=
  ⟨hmem, [], by rw [hrequests, List.append_nil], nofun⟩

theorem OnlyDecoded.trans {s t u : State} (h : OnlyDecoded s t) (hctx : t.ctx = s.ctx) (g : OnlyDecoded t u) :
    OnlyDecoded s u := by
  obtain ⟨hmem, log, hlog, hall⟩ := h
  obtain ⟨gmem, log', glog, gall⟩ := g
  refine ⟨gmem.trans hmem, log ++ log', by rw [glog, hlog, List.append_assoc], fun r hr => ?_⟩
  rcases List.mem_append.1 hr with hr | hr
  · exact hall r hr
  · exact hctx ▸ gall r hr

theorem State.gotCode_symRead_onlyDecoded (s : State) (cls : SymClass) (reg : Bool) (rest : List Code) :
    OnlyDecoded s (s.gotCode (.symRead cls reg) rest) :=
  ⟨rfl, _, rfl, fun _ hr => .inl ⟨cls, reg, List.mem_singleton.1 hr⟩⟩

theorem State.gotCode_coefNext_onlyDecoded (s : State) (rest : List Code) :
    OnlyDecoded s (s.gotCode (.coefNext s.ctx.codingset) rest) :=
  ⟨rfl, _, rfl, fun _ hr => .inr (List.mem_singleton.1 hr)⟩

theorem State.raiseFault_onlyDecoded (s : State) (code : StatusCode) (sub : BitVec 2) :
    OnlyDecoded s (s.raiseFault code sub) :=
  .of_eq (s.recordFault_mem code sub) (s.recordFault_requests code sub)

theorem State.checkBlock_onlyDecoded (s : State) : OnlyDecoded s s.checkBlock ∧ s.checkBlock.phase ≠ .recon := by
  unfold State.checkBlock
  split
  case isTrue => exact ⟨s.raiseFault_onlyDecoded _ _, nofun⟩
  case isFalse =>
    split
    case isTrue => exact ⟨s.raiseFault_onlyDecoded _ _, nofun⟩
    case isFalse => exact ⟨.of_eq rfl rfl, nofun⟩

theorem State.selected_onlyDecoded (s : State) (w : BitVec 4) : OnlyDecoded s (s.selected w) :=
  .of_eq (State.enterFrom_mem _ _ _) (State.enterFrom_requests _ _ _)

theorem State.takeTriple_onlyDecoded (c : Cfg) (s : State) (a : CoefAnswer) : OnlyDecoded s (s.takeTriple c a) := by
  cases herr : a.err with
  | true =>
    rw [State.takeTriple_raises c s herr]
    exact (s.setPlaced s.work.k.toNat s.work.cnt).raiseFault_onlyDecoded _ _
  | false =>
    have moved := State.takeTriple_sequenced c (s := s) herr
    exact .of_eq (by rw [moved]) (by rw [moved])

theorem State.endPull_phase_ne_recon {s : State} (hskip : s.cont.ops.skipblk = true) : s.endPull.phase ≠ .recon := by
  rw [State.endPull_of_skipblk hskip]
  exact State.enterFrom_phase_ne_recon _ _ _

theorem State.takeTriple_phase_ne_recon (c : Cfg) {s : State} (hskip : s.cont.ops.skipblk = true)
    (hphase : s.phase ≠ .recon) (a : CoefAnswer) : (s.takeTriple c a).phase ≠ .recon := by
  cases herr : a.err with
  | true =>
    rw [State.takeTriple_raises c s herr]
    nofun
  | false =>
    rcases State.takeTriple_cases c (s := s) herr with ht | ht | ht
    · rw [ht]; exact State.endPull_phase_ne_recon hskip
    · rw [ht]; exact State.endPull_phase_ne_recon hskip
    · rw [ht]; exact hphase

theorem State.finishBlock_onlyDecoded (s : State) : OnlyDecoded s s.finishBlock := by
  unfold State.finishBlock State.updateTtacc
  split
  case isTrue => exact .of_eq rfl rfl
  case isFalse => exact .of_eq rfl rfl

/-- Outside `RECON`, with `SKIPBLK` set, a step makes no request but for the stream and stays outside `RECON`. -/
theorem Ticked.onlyDecoded {c : Cfg} {s t : State} (h : Ticked c s t) (hskip : s.cont.ops.skipblk = true)
    (hphase : s.phase ≠ .recon) : OnlyDecoded s t ∧ t.phase ≠ .recon := by
  cases h with
  | check => exact s.checkBlock_onlyDecoded
  | rawGiven => exact ⟨.of_eq rfl rfl, hphase⟩
  | rawRead _ _ _ _ rest => exact ⟨s.gotCode_symRead_onlyDecoded .ttblk _ rest, hphase⟩
  | patGiven => exact ⟨s.selected_onlyDecoded _, s.selected_phase_ne_recon _⟩
  | patRead _ _ cls _ _ rest =>
    exact ⟨(s.gotCode_symRead_onlyDecoded cls _ rest).trans rfl (State.selected_onlyDecoded _ _),
      State.selected_phase_ne_recon _ _⟩
  | pull _ _ rest =>
    exact ⟨(s.gotCode_coefNext_onlyDecoded rest).trans rfl (State.takeTriple_onlyDecoded c _ _),
      State.takeTriple_phase_ne_recon c (s := s.gotCode _ rest) hskip hphase _⟩
  | finish => exact ⟨s.finishBlock_onlyDecoded, nofun⟩
  | transform h | pixelRead h | pixelWrite h => exact absurd h hphase

/-- A run with `SKIPBLK` set never comes to `RECON`, so it has only decoded. -/
theorem onlyDecoded_of_run {c : Cfg} {n : Nat} {s t : State} (h : run c n s = .next t)
    (hskip : s.cont.ops.skipblk = true) (hphase : s.phase ≠ .recon) : OnlyDecoded s t := by
  refine (run_induct (P := fun u => SameSetting s u ∧ u.phase ≠ .recon ∧ OnlyDecoded s u) c ?step ?wait n s t
    ⟨.refl s, hphase, .of_eq rfl rfl⟩ h).2.2
  case step =>
    rintro u v ⟨setting, outside, decoded⟩ _ ticked
    obtain ⟨decoded_step, outside_step⟩ := ticked.onlyDecoded (setting.ops ▸ hskip) outside
    exact ⟨setting.trans ticked.setting, outside_step, decoded.trans setting.ctx decoded_step⟩
  case wait =>
    rintro u r ⟨setting, outside, decoded⟩ _
    exact ⟨setting.trans ⟨rfl, rfl, rfl, rfl, rfl, rfl, rfl, rfl, rfl, rfl⟩, outside, decoded⟩

/-! ## The command -/

/-- A `DECBLK` that is turned away, because a fault is pending or it is ill-formed, ends without a look at `SKIPBLK`
and with no request; any other is run (R76, R77, R110). -/
theorem exec_decblk_cases (s : State) (tt : BitVec 3) (ns f o : Bool) (n : BitVec 3) :
    (∃ t, OnlyDecoded s t ∧ ∀ k, exec (.decblk tt ns f k o n) s = .next t) ∨
      ∀ k, exec (.decblk tt ns f k o n) s = run Config.vrd decblkFuel
        (s.startBlock { ttcode := tt, noshape := ns, first := f, skipblk := k, ttout := o, n := n }) := by
  cases herr : s.status.err with
  | true => exact .inl ⟨s.refuse, .of_eq rfl rfl, fun k => if_pos herr⟩
  | false =>
    by_cases hwf : ns = true → tt = 0
    · exact .inr fun k => exec_decblk_of_no_fault herr hwf f k o n
    · have ill_formed : (ns && tt != 0) = true := by simpa using hwf
      exact .inl ⟨s.raiseFault .eIllcmd 0, s.raiseFault_onlyDecoded _ _,
        fun k => (if_neg (Bool.eq_false_iff.1 herr)).trans (if_pos ill_formed)⟩

/-! ## The statement -/

/-- Settles O47: the two runs begin with the same view, so where both end they end with the same stripped state; and the
one with `SKIPBLK` has only decoded. -/
theorem skipChangesOnlyReconstruction : Obligations.SkipChangesOnlyReconstruction := by
  intro s t u tt ns f o n _ ht hu htidle huidle
  rcases exec_decblk_cases s tt ns f o n with ⟨v, ⟨mem, requests⟩, same⟩ | runs
  · obtain rfl : v = t := Host.Outcome.next.inj ((same true).symm.trans ht)
    obtain rfl : v = u := Host.Outcome.next.inj ((same false).symm.trans hu)
    exact ⟨rfl, rfl, rfl, rfl, rfl, rfl, rfl, rfl, mem, requests⟩
  · rw [runs] at ht hu
    obtain ⟨mem, requests⟩ := onlyDecoded_of_run ht rfl nofun
    have same : t.stripped = u.stripped := stripped_eq_of_runs ht hu rfl htidle huidle
    have field {α : Type} (g : State → α) : g t.stripped = g u.stripped := congrArg g same
    exact ⟨field State.blk, field State.placed, field State.result, field State.ttacc, field State.status,
      field State.cmdcnt, field State.responses, field State.stream, mem, requests⟩

end Sys2Proof.Machine
end

section
/-! PROOFS. The idle VRD and the taking of a fault (`spec/60_exceptions.md` rules R222, R230, R237). -/

namespace Sys2Proof.Machine

open Sys2Proof

/-! ## The interrupt line -/

/-- A fault raises `irq`, be it the first or a later one (R222, R230). -/
theorem State.raiseFault_irq (s : State) (code : StatusCode) (sub : BitVec 2) :
    (s.raiseFault code sub).irq = true := by
  change (s.recordFault code sub).status.err = true
  rw [State.recordFault_status]
  cases herr : s.status.err with
  | true => exact herr
  | false => rfl

/-! ## The statements -/

/-- Settles O6: of the four cases of a step, the three others need reset, an offered word or a phase other than
`IDLE`. -/
theorem idleDoesNothing : Obligations.IdleDoesNothing := by
  intro s hreset hidle hcmds
  rcases step_cases s with ⟨asserted, -⟩ | ⟨-, -, -, same⟩ | ⟨w, rest, -, -, offered, -⟩ | ⟨-, busy, -⟩
  · exact absurd asserted (Bool.eq_false_iff.1 hreset)
  · exact same
  · exact absurd (offered.symm.trans hcmds) (List.cons_ne_nil w rest)
  · exact absurd hidle busy

/-- Settles O20: taking a fault is the record, the response and the return to `IDLE`, and the record is the pending one
where there is one. -/
theorem faultKeepsFirstRecord : Obligations.FaultKeepsFirstRecord := by
  intro s code sub hcode
  refine ⟨s.raiseFault code sub, rfl, s.raiseFault_irq code sub, ?_⟩
  rw [← State.recordFault_status, State.raiseFault_statusWord]
  exact State.raiseFault_eq s code sub hcode

end Sys2Proof.Machine
end

section
/-! PROOFS. The reset input (`spec/70_reset_and_hazards.md` rules R250 to R252). -/

namespace Sys2Proof.Machine

open Sys2Proof

/-- An asserted reset comes before everything else, in every phase and whatever is offered (R250, R252): the three
other cases of a step need it low. -/
theorem step_of_resetPin {s : State} (hreset : s.resetPin = true) : step s = .next s.applyReset := by
  rcases step_cases s with ⟨-, resets⟩ | ⟨low, -⟩ | ⟨-, -, low, -⟩ | ⟨low, -⟩
  · exact resets
  all_goals exact absurd hreset (Bool.eq_false_iff.1 low)

/-- What a reset leaves of the environment (R251). -/
theorem State.applyReset_environment (s : State) :
    s.applyReset.cmds = s.cmds ∧ s.applyReset.stream = s.stream ∧ s.applyReset.mem = s.mem ∧
      s.applyReset.platform = s.platform ∧ s.applyReset.responses = s.responses ∧
      s.applyReset.requests = s.requests :=
  ⟨rfl, rfl, rfl, rfl, rfl, rfl⟩

/-- Settles O7: the registers of the state after a reset are those of `State.reset`, whose values are the statement
`ResetStateValues`; `irq` is the `ERR` of its cleared fault record. -/
theorem resetAtAnyTime : Obligations.ResetAtAnyTime := by
  intro s hreset
  obtain ⟨qctx, ctx, dstbase, dststride, cfgv, ttacc, result, placed, status, cmdcnt, quant, scale, phase,
    blkDefined⟩ := resetStateValues
  have irq : s.applyReset.irq = false := congrArg FaultRecord.err status
  have outstanding : s.applyReset.outstanding = none := rfl
  exact ⟨s.applyReset, step_of_resetPin hreset, qctx, ctx, dstbase, dststride, cfgv, ttacc, result, placed, status, irq,
    cmdcnt, quant, scale, phase, blkDefined, outstanding, s.applyReset_environment⟩

end Sys2Proof.Machine
end

section
/-! PROOFS. The encoding: reading back the fields of a command's word, and putting the fields of a word together again
(`spec/30_encoding.md` rules R70, R75, R78, R84). -/

namespace Sys2Proof.Machine

open Sys2Proof

/-- The layout facts of every command, from those of each. -/
theorem layout_statement (i : Instr) : Laws.Layout.Statement i := by
  cases i with
  | nop => exact Laws.Layout.nop
  | setq m h p => exact Laws.Layout.setq m h p
  | setctx r c f d => exact Laws.Layout.setctx r c f d
  | setbase a => exact Laws.Layout.setbase a
  | setstride d => exact Laws.Layout.setstride d
  | decblk t n f k o b => exact Laws.Layout.decblk t n f k o b
  | clracc => exact Laws.Layout.clracc
  | rdreg r => exact Laws.Layout.rdreg r
  | rdblk x => exact Laws.Layout.rdblk x
  | clrerr => exact Laws.Layout.clrerr

/-! ## Reading a field of an operand word -/

/-- The fields of format A (R75, R21). -/
theorem setq_fields (m : BitVec 8) (h p : Bool) :
    (Instr.setq m h p).operands.extractLsb' 0 8 = m ∧ (Instr.setq m h p).operands.getLsbD 8 = h ∧
      (Instr.setq m h p).operands.getLsbD 9 = p ∧ (Instr.setq m h p).operands.extractLsb' 10 22 = 0 := by
  unfold Instr.operands
  simp only [BitVec.getLsbD_append, BitVec.extractLsb'_append_eq_ite]
  simp

/-- The fields of format B (R75, R22). -/
theorem setctx_fields (r : Bool) (c : BitVec 3) (f d : Bool) :
    (Instr.setctx r c f d).operands.getLsbD 0 = r ∧ (Instr.setctx r c f d).operands.extractLsb' 1 3 = c ∧
      (Instr.setctx r c f d).operands.getLsbD 4 = f ∧ (Instr.setctx r c f d).operands.getLsbD 5 = d ∧
      (Instr.setctx r c f d).operands.extractLsb' 6 26 = 0 := by
  unfold Instr.operands
  simp only [BitVec.getLsbD_append, BitVec.extractLsb'_append_eq_ite]
  simp

/-- The fields of format D (R75). -/
theorem decblk_fields (t : BitVec 3) (n f k o : Bool) (b : BitVec 3) :
    (Instr.decblk t n f k o b).operands.extractLsb' 0 3 = t ∧ (Instr.decblk t n f k o b).operands.getLsbD 3 = n ∧
      (Instr.decblk t n f k o b).operands.getLsbD 4 = f ∧ (Instr.decblk t n f k o b).operands.getLsbD 5 = k ∧
      (Instr.decblk t n f k o b).operands.getLsbD 6 = o ∧
      (Instr.decblk t n f k o b).operands.extractLsb' 8 3 = b := by
  unfold Instr.operands
  simp only [BitVec.getLsbD_append, BitVec.extractLsb'_append_eq_ite]
  simp

theorem rdreg_field (r : BitVec 4) : (Instr.rdreg r).operands.extractLsb' 0 4 = r :=
  BitVec.extractLsb'_append_eq_right

theorem rdblk_field (x : BitVec 6) : (Instr.rdblk x).operands.extractLsb' 0 6 = x :=
  BitVec.extractLsb'_append_eq_right

/-- The decoder reads from an operand word the operands it was made of (R75). -/
theorem fieldsOf_operands (i : Instr) : fieldsOf i.opcode i.operands = some i := by
  cases i with
  | nop | setbase | setstride | clracc | clrerr => rfl
  | setq m h p =>
    obtain ⟨mquant, halfqp, pquantizer, -⟩ := setq_fields m h p
    exact congrArg some (by rw [mquant, halfqp, pquantizer])
  | setctx r c f d =>
    obtain ⟨regime, codingset, patf, resred, -⟩ := setctx_fields r c f d
    exact congrArg some (by rw [regime, codingset, patf, resred])
  | decblk t n f k o b =>
    obtain ⟨ttcode, noshape, first, skipblk, ttout, pos⟩ := decblk_fields t n f k o b
    exact congrArg some (by rw [ttcode, noshape, first, skipblk, ttout, pos])
  | rdreg r => exact congrArg some (by rw [rdreg_field])
  | rdblk x => exact congrArg some (by rw [rdblk_field])

/-! ## Putting the fields together -/

theorem flagBit_getLsbD (d : Word) (i : Nat) : flagBit (d.getLsbD i) = d.extractLsb' i 1 := by
  ext j hj
  obtain rfl : j = 0 := by omega
  simp [flagBit]

/-- Two neighbouring fields of a word are one field of it. -/
theorem append_fields (d : Word) {i j m n : Nat} (h : j = i + n) :
    d.extractLsb' j m ++ d.extractLsb' i n = d.extractLsb' i (m + n) :=
  BitVec.extractLsb'_append_extractLsb'_eq_extractLsb' h

/-- The operand word of the command that the decoder reads from a word without reserved bits is the word's own: its
fields lie side by side, and the zeros between and above them are the reserved bits (R78). -/
theorem operands_of_fieldsOf {w : Command} {i : Instr} (h : fieldsOf w.op w.data = some i)
    (hr : ¬ hasReservedBit w) : i.operands = w.data := by
  have whole : w.data.extractLsb' 0 32 = w.data := BitVec.extractLsb'_eq_self
  unfold fieldsOf at h
  unfold hasReservedBit at hr
  split at h <;> rename_i hop <;> cases h <;> rw [hop] at hr
  case h_4 | h_5 => rfl
  case h_1 | h_7 | h_10 => exact (not_not.1 hr).symm
  case h_2 =>
    rw [Instr.operands, ← not_not.1 hr, flagBit_getLsbD, flagBit_getLsbD]
    iterate 3 rw [append_fields _ (by rfl)]
    exact whole
  case h_3 =>
    rw [Instr.operands, ← not_not.1 hr, flagBit_getLsbD, flagBit_getLsbD, flagBit_getLsbD]
    iterate 4 rw [append_fields _ (by rfl)]
    exact whole
  case h_6 =>
    obtain ⟨low, high⟩ := not_or.1 hr
    have bit7 : w.data.extractLsb' 7 1 = 0 := by
      rw [← flagBit_getLsbD, Bool.eq_false_iff.2 low]
      rfl
    rw [Instr.operands, ← not_not.1 high, ← bit7]
    iterate 4 rw [flagBit_getLsbD]
    iterate 7 rw [append_fields _ (by rfl)]
    exact whole
  case h_8 | h_9 =>
    rw [Instr.operands, ← not_not.1 hr, append_fields _ (by rfl)]
    exact whole

theorem Command.op_append_data (w : Command) : w.op ++ w.data = w := BitVec.extractLsb'_append_extractLsb'

/-! ## The statements -/

/-- Settles O1: the decoder reads back the operands, finds no reserved bit in them and a well-formed command. -/
theorem decodeEncodeRoundTrip : Obligations.DecodeEncodeRoundTrip := by
  intro i hwf
  obtain ⟨hop, hdata, -, hmask⟩ := layout_statement i
  rw [decode_eq_command_iff, hasReservedBit_iff, hop, hdata]
  exact ⟨fieldsOf_operands i, not_not.2 hmask, hwf⟩

/-- Settles O2: the command has the word's opcode, and its operand word is the word's. -/
theorem commandHasOneWord : Obligations.CommandHasOneWord := by
  intro w i hd
  obtain ⟨hfields, hreserved, hwf⟩ := (decode_eq_command_iff w i).1 hd
  refine ⟨hwf, ?_⟩
  rw [encode, fieldsOf_opcode hfields, operands_of_fieldsOf hfields hreserved, Command.op_append_data]

/-- Settles O4: the decoder evaluated on the six words. -/
theorem sampleWordsDecode : Obligations.SampleWordsDecode := by
  refine ⟨?_, ?_, ?_, ?_, ?_, ?_⟩ <;> decide

end Sys2Proof.Machine
end

section
/-! PROOFS. The commands other than `DECBLK`, and the layouts of the registers (`spec/40_commands_config.md` rules R90
to R98, `spec/10_state.md` rules R21 to R31). -/

namespace Sys2Proof.Machine

open Sys2Proof

/-! ## Register layouts -/

/-- Register 5 (R27). -/
theorem resultWord_fields (r : ResultReg) :
    (resultWord r).extractLsb' 0 8 = r.pat ∧ (resultWord r).extractLsb' 8 3 = r.shape ∧
      (resultWord r).extractLsb' 11 4 = r.subpat ∧ (resultWord r).getLsbD 15 = r.valid ∧
      (resultWord r).extractLsb' 16 16 = 0 := by
  unfold resultWord
  simp only [BitVec.getLsbD_append, BitVec.extractLsb'_append_eq_ite]
  simp

/-- Register 6: a byte for each count, its top bit 0 (R28). -/
theorem State.placedWord_fields (s : State) {k : Nat} (hk : k < 4) :
    s.placedWord.extractLsb' (8 * k) 7 = s.placedAt k ∧ s.placedWord.getLsbD (8 * k + 7) = false := by
  unfold State.placedWord
  match k, hk with
  | 0, _ | 1, _ | 2, _ | 3, _ =>
    simp only [BitVec.getLsbD_append, BitVec.extractLsb'_append_eq_ite]
    simp

/-- Register 7 (R29). -/
theorem State.statusWord_fields (s : State) :
    s.statusWord.getLsbD 0 = s.status.err ∧ s.statusWord.extractLsb' 1 3 = 0 ∧
      s.statusWord.extractLsb' 4 4 = s.status.errcode ∧ s.statusWord.extractLsb' 8 2 = s.status.errsub ∧
      s.statusWord.extractLsb' 10 2 = 0 ∧ s.statusWord.extractLsb' 12 4 = s.cfgv ∧
      s.statusWord.extractLsb' 16 16 = 0 := by
  unfold State.statusWord
  simp only [BitVec.getLsbD_append, BitVec.extractLsb'_append_eq_ite]
  simp

/-- Register 9 (R31). -/
theorem workWord_fields (w : Work) :
    (workWord w).extractLsb' 0 9 = w.scale ∧ (workWord w).extractLsb' 9 7 = 0 ∧
      (workWord w).extractLsb' 16 8 = w.quant ∧ (workWord w).extractLsb' 24 8 = 0 := by
  unfold workWord
  simp only [BitVec.extractLsb'_append_eq_ite]
  simp

/-- Settles O17: the layout of each register by its own lemma. -/
theorem registerLayouts : Obligations.RegisterLayouts := by
  intro s
  exact ⟨setq_fields _ _ _, setctx_fields _ _ _ _, rfl, rfl, rfl, resultWord_fields _, fun k => s.placedWord_fields,
    s.statusWord_fields, rfl, workWord_fields _⟩

/-! ## Admitted commands -/

/-- Settles O5: the step takes the word, and the decoder answers the command. -/
theorem stepRunsDecodedCommand : Obligations.StepRunsDecodedCommand := by
  intro s w rest i hreset hphase hcmds hd
  rw [step_takes_word hreset hphase hcmds, execWord, hd]
  rfl

/-- Settles O9: `NOP` is its response. -/
theorem nopCompletes : Obligations.NopCompletes := fun s => congrArg Host.Outcome.next (s.respond_ok_eq 0)

/-- Settles O10: with no fault pending `SETQ` is not refused. -/
theorem setqWritesQctx : Obligations.SetqWritesQctx := fun _ _ _ _ herr => if_neg (Bool.eq_false_iff.1 herr)

/-- Settles O11: with no fault pending `SETCTX` is not refused. -/
theorem setctxWritesCtx : Obligations.SetctxWritesCtx := fun _ _ _ _ _ herr => if_neg (Bool.eq_false_iff.1 herr)

/-- Settles O14: with no fault pending `CLRACC` is not refused. -/
theorem clraccClearsTtacc : Obligations.ClraccClearsTtacc := fun _ herr => if_neg (Bool.eq_false_iff.1 herr)

/-- Settles O15: `CLRERR` clears the record and responds, and `irq` is the `ERR` of the cleared record. -/
theorem clrerrReturnsFromFault : Obligations.ClrerrReturnsFromFault := fun s =>
  ⟨s.clearFault.respond .ok 0, rfl, rfl, s.clearFault.respond_ok_eq 0⟩

/-- Settles O16: a register number that is not reserved is answered. -/
theorem rdregReturnsRegister : Obligations.RdregReturnsRegister := fun _ _ hr => if_pos hr

/-- Settles O18: the cell is specified, and extending its sign keeps its value. -/
theorem rdblkReturnsCell : Obligations.RdblkReturnsCell := fun s x hdef =>
  ⟨(s.cellAt x.toNat).signExtend 32, BitVec.toInt_signExtend_of_le (by decide), if_pos hdef⟩

/-- Settles O19: the value drawn is the next free one. -/
theorem rdblkBeforeDecblk : Obligations.RdblkBeforeDecblk := fun s _ hdef =>
  ⟨Config.freeCell s.draws, (Config.freeCell s.draws).signExtend 32, BitVec.toInt_signExtend_of_le (by decide),
    if_neg (Bool.eq_false_iff.1 hdef)⟩

/-! ## Commands turned away -/

/-- A `DECBLK` with a shape code beside `NOSHAPE` is illegal (R77 (d)). -/
theorem exec_decblk_of_shape_conflict {s : State} (herr : s.status.err = false) {tt : BitVec 3} (htt : tt ≠ 0)
    (f k o : Bool) (n : BitVec 3) : exec (.decblk tt true f k o n) s = .next (s.raiseFault .eIllcmd 0) :=
  (if_neg (Bool.eq_false_iff.1 herr)).trans (if_pos (by simpa using htt))

theorem exec_rdreg_of_reserved (s : State) {r : BitVec 4} (hr : 10 ≤ r.toNat) :
    exec (.rdreg r) s = .next (s.raiseFault .eIllcmd 0) := if_neg (by omega)

/-- Settles O23: the two ill-formed commands fault, and the commands outside the four admitted ones are refused. -/
theorem commandsTurnedAway : Obligations.CommandsTurnedAway := by
  refine ⟨fun s tt f k o n herr htt => exec_decblk_of_shape_conflict herr htt f k o n,
    fun s r hr => exec_rdreg_of_reserved s hr, fun s i herr hnop hrdreg hrdblk hclrerr => exec_of_pending herr ?_⟩
  cases i with
  | nop => exact absurd rfl hnop
  | rdreg r => exact absurd rfl (hrdreg r)
  | rdblk x => exact absurd rfl (hrdblk x)
  | clrerr => exact absurd rfl hclrerr
  | setq | setctx | setbase | setstride | decblk | clracc => rfl

end Sys2Proof.Machine
end

section
/-! PROOFS. The pattern reads of the partition selector (`spec/42_partition_selector.md` rules R130 to R132). -/

namespace Sys2Proof.Machine

open Sys2Proof

/-- The term of the resolution-reduction flag adds nothing (R131). -/
theorem read2_eq (r : RawShape) (noshape first patf resred : Bool) :
    read2 r noshape first patf resred = (isGeneric r || (noshape && (!first || patf))) := by
  cases first <;> simp [read2]

/-- The raw shapes of a pair make the 2-bit read exactly when `READ2` holds (R130, R131). -/
theorem patternRead_of_pair {r : RawShape} (h : canonical r = .pair8x4 ∨ canonical r = .pair4x8)
    (noshape first patf resred : Bool) :
    patternRead r noshape first patf resred =
      if read2 r noshape first patf resred then some .pat2 else none := by
  cases r with
  | full8x8 | quad4x4 => simp [canonical] at h
  | pair8x4Bottom | pair8x4Top | pair8x4 | pair4x8Right | pair4x8Left | pair4x8 => rfl

/-- The raw shapes are those of the pairs and the two without an orientation (R125). -/
theorem rawShape_cases (r : RawShape) :
    r = .full8x8 ∨ r = .quad4x4 ∨ (canonical r = .pair8x4 ∨ canonical r = .pair4x8) := by
  cases r <;> decide

/-- Settles O27: the three kinds of raw shape read nothing, the 4-bit code, or the 2-bit code under `READ2`. -/
theorem patternReadCondition : Obligations.PatternReadCondition := by
  refine ⟨read2_eq, fun r noshape first patf resred => ?_⟩
  rcases rawShape_cases r with rfl | rfl | hpair
  · simp [patternRead, canonical]
  · simp [patternRead, canonical]
  · have not_quad : r ≠ .quad4x4 := by
      rintro rfl
      simp [canonical] at hpair
    rw [patternRead_of_pair hpair]
    cases read2 r noshape first patf resred <;> simp [hpair, not_quad]

/-- Settles O28: the table over the 16 answers. -/
theorem pairCodeSubpatterns : Obligations.PairCodeSubpatterns := by
  unfold Obligations.PairCodeSubpatterns
  decide

end Sys2Proof.Machine
end

section
/-! PROOFS. The symmetry of the dequantizer (`spec/43_dequantizer.md` rules R149, R151). -/

namespace Sys2Proof.Machine

open Sys2Proof

/-- The bound of R148 with a positive scale leaves out the value that has no negative. -/
theorem toInt_neg_of_fits {q : BitVec 8} {sc : BitVec 9} {v : BitVec 32} (hsc : 0 < sc.toNat)
    (hfit : |v.toInt| * (sc.toNat : Int) + (q.toNat : Int) ≤ 32767) : (-v).toInt = -v.toInt := by
  have magnitude : |v.toInt| ≤ |v.toInt| * (sc.toNat : Int) := le_mul_of_one_le_right (abs_nonneg _) (by omega)
  have bounds := abs_le.1 (magnitude.trans (show _ ≤ (32767 : Int) by omega))
  rw [BitVec.toInt_neg]
  exact Int.bmod_eq_of_le (by omega) (by omega)

/-- The bias of a negated number that is not 0 is the negated bias (R147). -/
theorem biasFor_neg (q : BitVec 8) {t : Int} (ht : t ≠ 0) : biasFor q (-t) = -biasFor q t := by
  unfold biasFor
  split <;> split <;> omega

/-- Settles O33: where the bound holds both results are exact, of the value and of its negation; the bias of 0 is
`+QUANT` twice. -/
theorem dequantizeAntisymmetry : Obligations.DequantizeAntisymmetry := by
  intro q sc v hsc hfit
  have negated := toInt_neg_of_fits hsc hfit
  have hfit' : |(-v).toInt| * (sc.toNat : Int) + (q.toNat : Int) ≤ 32767 := by rwa [negated, abs_neg]
  rw [toInt_dequant_unbiased_of_fits hfit, toInt_dequant_unbiased_of_fits hfit',
    toInt_dequant_biased_of_fits hfit hsc, toInt_dequant_biased_of_fits hfit' hsc, negated]
  refine ⟨Int.neg_mul _ _, fun hv => ?_, fun hv => ?_⟩
  · rw [biasFor_neg q (BitVec.toInt_ne.2 hv), Int.neg_mul]
    omega
  · subst hv
    simp [biasFor]
    omega

end Sys2Proof.Machine
end

section
/-! PROOFS. The geometry of the Block and of the plane, the scan order, and the clamp (`spec/10_state.md` rule R34,
`spec/20_memory.md` rule R54, `spec/44_scan_and_sequencer.md` rules R157, R168, `spec/45_reconstruct.md` rule R182). -/

namespace Sys2Proof.Machine

open Sys2Proof

/-! ## The cells of a shape -/

/-- The sub-block that holds a cell (R34). -/
def subOfCell (sh : Shape) (c : Nat) : Nat :=
  match sh with
  | .full8x8 => 0
  | .quad4x4 => 2 * (c / 32) + c % 8 / 4
  | .pair8x4 => c / 32
  | .pair4x8 => c % 8 / 4

/-- The local index of a cell in its sub-block (R34). -/
def localOfCell (sh : Shape) (c : Nat) : Nat := sh.width * (c / 8 % sh.height) + c % sh.width

section
variable {sh : Shape} {k p : Nat} (hk : k < sh.nsub) (hp : p < sh.cap)
include hk hp

theorem cellIndex_lt : cellIndex sh k p < 64 := by
  cases sh <;> simp only [Shape.nsub, Shape.cap, Shape.width, Shape.height, cellIndex, x0, y0] at * <;> omega

theorem subOfCell_cellIndex : subOfCell sh (cellIndex sh k p) = k := by
  cases sh <;> simp only [Shape.nsub, Shape.cap, Shape.width, Shape.height, cellIndex, x0, y0, subOfCell] at * <;>
    omega

theorem localOfCell_cellIndex : localOfCell sh (cellIndex sh k p) = p := by
  cases sh <;> simp only [Shape.nsub, Shape.cap, Shape.width, Shape.height, cellIndex, x0, y0, localOfCell] at * <;>
    omega

end

/-- A cell of the Block is the cell of its sub-block and local index. -/
theorem cellIndex_of_cell (sh : Shape) {c : Nat} (hc : c < 64) :
    subOfCell sh c < sh.nsub ∧ localOfCell sh c < sh.cap ∧ cellIndex sh (subOfCell sh c) (localOfCell sh c) = c := by
  cases sh <;>
    simp only [Shape.nsub, Shape.cap, Shape.width, Shape.height, cellIndex, x0, y0, subOfCell, localOfCell] <;> omega

/-- The cells of a shape are distinct (R34). -/
theorem cellIndex_inj {sh : Shape} {k j p q : Nat} (hk : k < sh.nsub) (hj : j < sh.nsub) (hp : p < sh.cap)
    (hq : q < sh.cap) (h : cellIndex sh k p = cellIndex sh j q) : k = j ∧ p = q := by
  have sub := congrArg (subOfCell sh) h
  have idx := congrArg (localOfCell sh) h
  rw [subOfCell_cellIndex hk hp, subOfCell_cellIndex hj hq] at sub
  rw [localOfCell_cellIndex hk hp, localOfCell_cellIndex hj hq] at idx
  exact ⟨sub, idx⟩

/-- Settles O34: sub-block and local index are functions of the cell. -/
theorem cellsPartitionBlock : Obligations.CellsPartitionBlock := fun sh =>
  ⟨fun _ _ _ _ hk hj hp hq h => cellIndex_inj hk hj hp hq h,
    fun c hc => ⟨subOfCell sh c, localOfCell sh c, cellIndex_of_cell sh hc⟩,
    fun _ _ hk hp => cellIndex_lt hk hp⟩

/-! ## The scan tables -/

theorem scanAt_of_lt (c : Cfg) {sh : Shape} (r : Bool) {i : Nat} (hi : i < sh.cap) :
    scanAt c sh r i = (c.scan sh r ⟨i, hi⟩).val := dif_pos hi

theorem scanAt_lt (c : Cfg) {sh : Shape} (r : Bool) {i : Nat} (hi : i < sh.cap) : scanAt c sh r i < sh.cap := by
  rw [scanAt_of_lt c r hi]
  exact (c.scan sh r ⟨i, hi⟩).isLt

/-- A scan table is a permutation (R157 (a)). -/
theorem scanAt_inj (c : Cfg) {sh : Shape} {r : Bool} {a b : Nat} (ha : a < sh.cap) (hb : b < sh.cap)
    (h : scanAt c sh r a = scanAt c sh r b) : a = b := by
  rw [scanAt_of_lt c r ha, scanAt_of_lt c r hb] at h
  exact Fin.mk.inj ((c.scan sh r).injective (Fin.ext h))

theorem exists_scanAt_eq (c : Cfg) {sh : Shape} (r : Bool) {p : Nat} (hp : p < sh.cap) :
    ∃ a, a < sh.cap ∧ scanAt c sh r a = p := by
  obtain ⟨⟨a, ha⟩, h⟩ := (c.scan sh r).surjective ⟨p, hp⟩
  exact ⟨a, ha, by rw [scanAt_of_lt c r ha, h]⟩

/-- Settles O35: distinct cells and permutations; the last clause is R157 (b). -/
theorem scannedCellsDistinct : Obligations.ScannedCellsDistinct := by
  refine fun c sh r => ⟨fun k j a b hk hj ha hb h => ?_, fun p hp => exists_scanAt_eq c r hp, ?_⟩
  · obtain ⟨hkj, hab⟩ := cellIndex_inj hk hj (scanAt_lt c r ha) (scanAt_lt c r hb) h
    exact ⟨hkj, scanAt_inj c ha hb hab⟩
  · rw [scanAt_of_lt c false (by decide), c.scan_dc]

/-! ## The addresses of a block -/

/-- Two places of the 8x8 block with the same row and column are the same place of one sub-block (R34). -/
theorem place_inj {sh : Shape} {k j y z x u : Nat} (hk : k < sh.nsub) (hj : j < sh.nsub) (hy : y < sh.height)
    (hz : z < sh.height) (hx : x < sh.width) (hu : u < sh.width) (hrow : y0 sh k + y = y0 sh j + z)
    (hcol : x0 sh k + x = x0 sh j + u) : k = j ∧ y = z ∧ x = u := by
  cases sh <;> simp only [Shape.nsub, Shape.width, Shape.height, x0, y0] at * <;> omega

theorem column_lt {sh : Shape} {k x : Nat} (hk : k < sh.nsub) (hx : x < sh.width) : x0 sh k + x < 8 := by
  cases sh <;> simp only [Shape.nsub, Shape.width, x0] at * <;> omega

/-- With a stride of magnitude 8 or more a row difference outweighs every column difference. -/
theorem rows_eq_of_sums_eq {d r r' c c' : Int} (hd : 8 ≤ |d|) (hc : 0 ≤ c ∧ c < 8) (hc' : 0 ≤ c' ∧ c' < 8)
    (h : r * d + c = r' * d + c') : r = r' ∧ c = c' := by
  have product : (r - r') * d = c' - c := by linear_combination h
  have small : |(r - r') * d| < 8 := by
    rw [product, abs_lt]
    omega
  have same : r - r' = 0 := by
    by_contra hne
    have one_le : 1 ≤ |r - r'| := Int.one_le_abs hne
    rw [abs_mul] at small
    nlinarith
  rw [same] at product
  omega

/-- Settles O36: equal sums have equal rows and columns, and so are one place of one sub-block. -/
theorem pixelAddressesDistinct : Obligations.PixelAddressesDistinct := by
  intro base stride sh hstride k j y z x u hk hj hy hz hx hu h
  have col := column_lt hk hx
  have col' := column_lt hj hu
  obtain ⟨hrow, hcol⟩ := rows_eq_of_sums_eq hstride (r := (y0 sh k + y : Nat)) (r' := (y0 sh j + z : Nat))
    (c := (x0 sh k + x : Nat)) (c' := (x0 sh j + u : Nat)) (by omega) (by omega) (by unfold pixSum at h; omega)
  exact place_inj hk hj hy hz hx hu (by omega) (by omega)

/-! ## The clamp -/

/-- The clamped sum fits a byte, so nothing wraps (R182). -/
theorem toNat_accumulate (old : Byte) (r : Sample) :
    ((accumulate old r).toNat : Int) = max 0 (min 255 ((old.toNat : Int) + r.toInt)) := by
  rw [accumulate, BitVec.toNat_ofInt]
  omega

/-- Settles O37: the clamp by cases of the sum, and its values on the table of R183. -/
theorem pixelClamp : Obligations.PixelClamp := by
  refine ⟨fun old r => ?_, ?_⟩
  · rw [toNat_accumulate]
    split
    · omega
    · split <;> omega
  · decide

end Sys2Proof.Machine
end

section
/-! PROOFS. The steps of a `DECBLK` past its checks: what they leave of the results and of the fault record until the
command ends, and the bounds they keep in the sub-block loop (`spec/41_decblk.md` rules R110 to R120,
`spec/44_scan_and_sequencer.md` rule R168). -/

namespace Sys2Proof.Machine

open Sys2Proof

/-! ## What is written only where the command ends -/

/-- `t` has the results, the fault record, the count of commands, the responses and the quantizer of `s`. -/
structure SameRecords (s t : State) : Prop where
  ttacc : t.ttacc = s.ttacc
  result : t.result = s.result
  status : t.status = s.status
  cmdcnt : t.cmdcnt = s.cmdcnt
  responses : t.responses = s.responses
  blkDefined : t.blkDefined = s.blkDefined
  quant : t.work.quant = s.work.quant
  scale : t.work.scale = s.work.scale

theorem SameRecords.refl (s : State) : SameRecords s s := ⟨rfl, rfl, rfl, rfl, rfl, rfl, rfl, rfl⟩

theorem SameRecords.trans {s t u : State} (h : SameRecords s t) (g : SameRecords t u) : SameRecords s u :=
  ⟨g.ttacc.trans h.ttacc, g.result.trans h.result, g.status.trans h.status, g.cmdcnt.trans h.cmdcnt,
    g.responses.trans h.responses, g.blkDefined.trans h.blkDefined, g.quant.trans h.quant, g.scale.trans h.scale⟩

theorem State.enterFrom_records (sh : Shape) (n : Nat) (s : State) : SameRecords s (State.enterFrom sh n s) :=
  ⟨by simp, by simp, by simp, by simp, by simp, by simp, State.enterFrom_quant _ _ _, State.enterFrom_scale _ _ _⟩

theorem State.selected_records (s : State) (w : BitVec 4) : SameRecords s (s.selected w) := by
  have set : SameRecords s (s.setShape (shapeCode (canonical (rawShapeOf s.work.raw))) w) :=
    ⟨rfl, rfl, rfl, rfl, rfl, rfl, rfl, rfl⟩
  exact set.trans (State.enterFrom_records _ _ _)

theorem State.pixelDone_records (s : State) : SameRecords s s.pixelDone := by
  have next : SameRecords s s.nextPixel := ⟨rfl, rfl, rfl, rfl, rfl, rfl, rfl, rfl⟩
  unfold State.pixelDone
  split
  · exact next
  · exact next.trans (State.enterFrom_records _ _ _)

theorem State.endPull_records (s : State) : SameRecords s s.endPull := by
  have counted : SameRecords s (s.setPlaced s.work.k.toNat s.work.cnt) := ⟨rfl, rfl, rfl, rfl, rfl, rfl, rfl, rfl⟩
  unfold State.endPull
  split
  · exact counted.trans (State.enterFrom_records _ _ _)
  · exact counted.trans ⟨rfl, rfl, rfl, rfl, rfl, rfl, rfl, rfl⟩

theorem State.takeTriple_records (c : Cfg) (s : State) {a : CoefAnswer} (h : a.err = false) :
    SameRecords s (s.takeTriple c a) := by
  have advanced : SameRecords s (s.advance a) := ⟨rfl, rfl, rfl, rfl, rfl, rfl, rfl, rfl⟩
  have placed : SameRecords s ((s.advance a).place c a.value) := ⟨rfl, rfl, rfl, rfl, rfl, rfl, rfl, rfl⟩
  rcases State.takeTriple_cases c (s := s) h with e | e | e
  · exact e ▸ advanced.trans (State.endPull_records _)
  · exact e ▸ placed.trans (State.endPull_records _)
  · exact e ▸ placed

/-! ## The phases that follow -/

theorem State.enterFrom_inBlock (sh : Shape) (n : Nat) (s : State) :
    (State.enterFrom sh n s).phase.inBlock = true := by
  induction n generalizing s with
  | zero => rfl
  | succ n ih =>
    rw [State.enterFrom]
    split
    case isTrue => exact ih _
    case isFalse => rfl

theorem State.pixelDone_inBlock {s : State} (hphase : s.phase = .recon) : s.pixelDone.phase.inBlock = true := by
  unfold State.pixelDone
  split
  · exact congrArg Phase.inBlock hphase
  · exact State.enterFrom_inBlock _ _ _

theorem State.endPull_inBlock (s : State) : s.endPull.phase.inBlock = true := by
  unfold State.endPull
  split
  · exact State.enterFrom_inBlock _ _ _
  · rfl

theorem State.takeTriple_inBlock (c : Cfg) {s : State} {a : CoefAnswer} (hphase : s.phase = .pull)
    (h : a.err = false) : (s.takeTriple c a).phase.inBlock = true := by
  rcases State.takeTriple_cases c (s := s) h with e | e | e
  · exact e ▸ State.endPull_inBlock _
  · exact e ▸ State.endPull_inBlock _
  · rw [e]
    exact congrArg Phase.inBlock hphase

/-- The three things `CHECK` can come to (R112 to R114). -/
theorem State.checkBlock_cases (s : State) :
    (∃ code, (code = .eUncfg ∨ code = .eQzero) ∧ s.checkBlock = s.raiseFault code 0) ∨
      s.cfgv = 0b1111 ∧ s.qctx.mquant ≠ 0 ∧ s.checkBlock = s.clearBlock.deriveQuant.startSelect := by
  by_cases hcfg : s.cfgv = 0b1111
  · by_cases hq : s.qctx.mquant = 0
    · exact .inl ⟨.eQzero, .inr rfl, State.checkBlock_of_mquant_zero hcfg hq⟩
    · have configured : s.configured = true := by simp [State.configured, hcfg]
      refine .inr ⟨hcfg, hq, ?_⟩
      rw [State.checkBlock, configured]
      exact if_neg hq
  · exact .inl ⟨.eUncfg, .inl rfl, State.checkBlock_of_unconfigured hcfg⟩

/-- The state a failing coefficient request leads to (R165). -/
def State.streamFault (s : State) (rest : List Code) : State :=
  ((s.gotCode (.coefNext s.ctx.codingset) rest).setPlaced s.work.k.toNat s.work.cnt).raiseFault .eStream s.work.k

/-- What a step of a `DECBLK` is for the records: the checks, the end with `OK`, the end with `E_STREAM`, or a step that
leaves them alone and stays in the block. -/
theorem Ticked.outcome {c : Cfg} {s t : State} (h : Ticked c s t) :
    (s.phase = .check ∧ t = s.checkBlock) ∨ (s.phase = .finish ∧ t = s.finishBlock) ∨
      (s.phase = .pull ∧ ∃ code rest, s.stream = code :: rest ∧ s.agentsAnswer = true ∧ code.coef.err = true ∧
        t = s.streamFault rest) ∨
      (s.phase.inBlock = true ∧ t.phase.inBlock = true ∧ SameRecords s t) := by
  have inBlock {p : Phase} (hp : s.phase = p) (hb : p.inBlock = true) : s.phase.inBlock = true := hp ▸ hb
  cases h with
  | check hp => exact .inl ⟨hp, rfl⟩
  | finish hp => exact .inr (.inl ⟨hp, rfl⟩)
  | rawGiven hp =>
    exact .inr (.inr (.inr ⟨inBlock hp rfl, inBlock hp rfl, rfl, rfl, rfl, rfl, rfl, rfl, rfl, rfl⟩))
  | rawRead hp =>
    exact .inr (.inr (.inr ⟨inBlock hp rfl, inBlock hp rfl, rfl, rfl, rfl, rfl, rfl, rfl, rfl, rfl⟩))
  | patGiven hp =>
    exact .inr (.inr (.inr ⟨inBlock hp rfl, State.enterFrom_inBlock _ _ _, s.selected_records _⟩))
  | patRead hp _ cls _ code rest =>
    refine .inr (.inr (.inr ⟨inBlock hp rfl, State.enterFrom_inBlock _ _ _, ?_⟩))
    exact SameRecords.trans (t := s.gotCode (.symRead cls s.ctx.regime) rest)
      ⟨rfl, rfl, rfl, rfl, rfl, rfl, rfl, rfl⟩ (State.selected_records _ _)
  | pull hp code rest hs ha =>
    cases herr : code.coef.err with
    | true =>
      exact .inr (.inr (.inl ⟨hp, code, rest, hs, ha, herr, State.takeTriple_raises c _ herr⟩))
    | false =>
      refine .inr (.inr (.inr ⟨inBlock hp rfl, State.takeTriple_inBlock c hp herr, ?_⟩))
      exact SameRecords.trans (t := s.gotCode (.coefNext s.ctx.codingset) rest)
        ⟨rfl, rfl, rfl, rfl, rfl, rfl, rfl, rfl⟩ (State.takeTriple_records c _ herr)
  | transform hp =>
    exact .inr (.inr (.inr ⟨inBlock hp rfl, inBlock hp rfl, rfl, rfl, rfl, rfl, rfl, rfl, rfl, rfl⟩))
  | pixelRead hp =>
    exact .inr (.inr (.inr ⟨inBlock hp rfl, inBlock hp rfl, rfl, rfl, rfl, rfl, rfl, rfl, rfl, rfl⟩))
  | pixelWrite hp res _ old =>
    refine .inr (.inr (.inr ⟨inBlock hp rfl, State.pixelDone_inBlock hp, ?_⟩))
    exact SameRecords.trans (t := (s.answered (.memWrite (s.pixelAddr s.cont.pix)
        (accumulate old (sampleAt res s.cont.pix)))).setByte (s.pixelAddr s.cont.pix)
          (accumulate old (sampleAt res s.cont.pix)))
      ⟨rfl, rfl, rfl, rfl, rfl, rfl, rfl, rfl⟩ (State.pixelDone_records _)

/-! ## The bounds of the sub-block loop -/

/-- The clauses of the invariant that bound the sub-block loop: they hold of every `DECBLK` past its checks, whatever
the state it was started in. -/
structure State.LoopInv (s : State) : Prop where
  loopSub : s.phase.inLoop = true →
    s.work.k.toNat < s.shape.nsub ∧ isEmptySub s.shape s.work.wsubpat s.work.k.toNat = false
  cursor : s.phase = .pull → s.work.cur.toNat ≤ s.shape.cap ∧ s.work.cnt.toNat ≤ s.work.cur.toNat
  countCap : s.phase = .recon → s.work.cnt.toNat ≤ s.shape.cap
  pixel : s.phase = .recon → s.cont.pix < s.shape.cap

theorem State.Inv.loopInv {s : State} (h : s.Inv) : s.LoopInv := ⟨h.loopSub, h.cursor, h.countCap, h.pixel⟩

theorem State.LoopInv.of_outside {s : State} (h : s.phase.inLoop = false) : s.LoopInv where
  loopSub hp := by simp [h] at hp
  cursor hp := by simp [hp, Phase.inLoop] at h
  countCap hp := by simp [hp, Phase.inLoop] at h
  pixel hp := by simp [hp, Phase.inLoop] at h

/-- Where the loop has been entered, its bounds hold. -/
theorem State.LoopInv.of_enters {s : State} {first : Nat} (h : EntersLoop s.shape s.work.wsubpat first s) :
    s.LoopInv := by
  rcases h with ⟨hp, -⟩ | ⟨hp, hcur, hcnt, -, -, hk, hempty, -⟩
  · exact .of_outside (by rw [hp]; rfl)
  · exact {
      loopSub := fun _ => ⟨hk, hempty⟩
      cursor := fun _ => by simp [hcur, hcnt]
      countCap := fun hr => by simp [hp] at hr
      pixel := fun hr => by simp [hp] at hr }

/-- Where a placement loop has ended with at most `CAP(s)` coefficients, the bounds hold. -/
theorem State.LoopInv.of_pullEnds {s t : State} {cur : Nat} {cnt : BitVec 7} (h : PullEnds s t cur cnt)
    (hsub : s.work.k.toNat < s.shape.nsub ∧ isEmptySub s.shape s.work.wsubpat s.work.k.toNat = false)
    (hcnt : cnt.toNat ≤ s.shape.cap) : t.LoopInv := by
  obtain ⟨hwshape, hwsubpat, hrecon, hskip⟩ := h
  have shape : t.shape = s.shape := congrArg shapeOf hwshape
  cases hk : s.cont.ops.skipblk with
  | true => exact .of_enters (first := s.work.k.toNat + 1) (by rw [shape, hwsubpat]; exact hskip hk)
  | false =>
    obtain ⟨hp, hsame, -, hcount, -, hpix, -⟩ := hrecon hk
    exact {
      loopSub := fun _ => by rw [hsame, shape, hwsubpat]; exact hsub
      cursor := fun hq => by simp [hp] at hq
      countCap := fun _ => by rw [hcount, shape]; exact hcnt
      pixel := fun _ => by rw [hpix]; exact Shape.cap_pos _ }

@[simp] theorem shapeOf_shapeCode (sh : Shape) : shapeOf (shapeCode sh) = sh := by cases sh <;> rfl

theorem State.enterFrom_shape (sh : Shape) (n : Nat) (s : State) : (State.enterFrom sh n s).shape = s.shape :=
  congrArg shapeOf (State.enterFrom_wshape sh n s)

theorem State.selected_shape (s : State) (w : BitVec 4) :
    (s.selected w).shape = canonical (rawShapeOf s.work.raw) :=
  (State.enterFrom_shape _ _ _).trans (shapeOf_shapeCode _)

theorem State.selected_wsubpat (s : State) (w : BitVec 4) : (s.selected w).work.wsubpat = w :=
  State.enterFrom_wsubpat _ _ _

theorem State.selected_wshape (s : State) (w : BitVec 4) :
    (s.selected w).work.wshape = shapeCode (canonical (rawShapeOf s.work.raw)) := State.enterFrom_wshape _ _ _

/-- The end of `SELECT` enters the sub-block loop at its head (R116). -/
theorem State.selected_enters (s : State) (w : BitVec 4) :
    EntersLoop (canonical (rawShapeOf s.work.raw)) w 0 (s.selected w) := by
  have enters := State.enterFrom_enters (canonical (rawShapeOf s.work.raw)) _
    (s.setShape (shapeCode (canonical (rawShapeOf s.work.raw))) w) le_rfl
  rwa [Nat.sub_self] at enters

theorem State.selected_loopInv (s : State) (w : BitVec 4) : (s.selected w).LoopInv :=
  .of_enters (first := 0) (by rw [State.selected_shape, State.selected_wsubpat]; exact s.selected_enters w)

theorem State.nextSub_shape (s : State) : s.nextSub.shape = s.shape := State.enterFrom_shape _ _ _

theorem State.nextSub_wsubpat (s : State) : s.nextSub.work.wsubpat = s.work.wsubpat := State.enterFrom_wsubpat _ _ _

theorem State.nextSub_loopInv (s : State) : s.nextSub.LoopInv :=
  .of_enters (first := s.work.k.toNat + 1)
    (by rw [State.nextSub_shape, State.nextSub_wsubpat]; exact s.nextSub_entersLoop)

theorem State.pixelDone_loopInv {s : State} (hphase : s.phase = .recon) (h : s.LoopInv) : s.pixelDone.LoopInv := by
  unfold State.pixelDone
  split
  case isTrue hlt =>
    exact {
      loopSub := h.loopSub
      cursor := fun hq => by simp [hphase] at hq
      countCap := h.countCap
      pixel := fun _ => hlt }
  case isFalse => exact State.nextSub_loopInv _

/-- One more coefficient does not wrap the count. -/
theorem toNat_cnt_add_one {sh : Shape} {cnt : BitVec 7} (h : cnt.toNat < sh.cap) :
    (cnt + 1).toNat = cnt.toNat + 1 := by
  have cap := Shape.cap_le sh
  simp only [BitVec.toNat_add, BitVec.ofNat_eq_ofNat, BitVec.toNat_ofNat]
  omega

theorem State.takeTriple_loopInv (c : Cfg) {s : State} (hphase : s.phase = .pull) (h : s.LoopInv) {a : CoefAnswer}
    (herr : a.err = false) : (s.takeTriple c a).LoopInv := by
  have sub := h.loopSub (by rw [hphase]; rfl)
  obtain ⟨hcur, hcnt⟩ := h.cursor hphase
  rcases Nat.lt_or_ge (s.work.cur.toNat + a.skip.toNat) s.shape.cap with hcap | hcap
  · have count : (s.work.cnt + 1).toNat = s.work.cnt.toNat + 1 := toNat_cnt_add_one (sh := s.shape) (by omega)
    cases hlast : a.last with
    | true =>
      obtain ⟨-, ends⟩ := State.takeTriple_ends c hcur sub.1 herr hlast hcap
      exact .of_pullEnds ends sub (by omega)
    | false =>
      obtain ⟨pull, -, sameSub, cursor, cnt⟩ := State.takeTriple_goes_on c hcur hphase herr hlast hcap
      have advanced := State.toNat_advance_cur hcur a
      have e : s.takeTriple c a = (s.advance a).place c a.value := by
        rw [State.takeTriple_of_fits c herr (by omega), if_neg (Bool.eq_false_iff.1 hlast)]
      have shape : (s.takeTriple c a).shape = s.shape := by rw [e]; rfl
      have wsubpat : (s.takeTriple c a).work.wsubpat = s.work.wsubpat := by rw [e]; rfl
      exact {
        loopSub := fun _ => by rw [sameSub, shape, wsubpat]; exact sub
        cursor := fun _ => by rw [cursor, cnt, shape, count]; omega
        countCap := fun hq => by simp [pull] at hq
        pixel := fun hq => by simp [pull] at hq }
  · obtain ⟨-, -, ends⟩ := State.takeTriple_discards c hcur sub.1 herr hcap
    exact .of_pullEnds ends sub (by omega)

/-- Every step keeps the bounds of the loop. -/
theorem Ticked.loopInv {c : Cfg} {s t : State} (h : Ticked c s t) (hs : s.LoopInv) : t.LoopInv := by
  cases h with
  | check =>
    rcases s.checkBlock_cases with ⟨code, -, e⟩ | ⟨-, -, e⟩
    · exact e ▸ .of_outside rfl
    · exact e ▸ .of_outside rfl
  | rawGiven hp => exact .of_outside (s := s.setRaw _) (by rw [State.setRaw_phase, hp]; rfl)
  | rawRead hp =>
    exact .of_outside (s := (s.gotCode _ _).setRaw _) (by rw [State.setRaw_phase, State.gotCode_phase, hp]; rfl)
  | patGiven => exact State.selected_loopInv _ _
  | patRead => exact State.selected_loopInv _ _
  | pull hp code rest =>
    cases herr : code.coef.err with
    | true => exact State.takeTriple_raises c _ herr ▸ .of_outside rfl
    | false =>
      exact State.takeTriple_loopInv c (s := s.gotCode _ rest) hp ⟨hs.loopSub, hs.cursor, hs.countCap, hs.pixel⟩ herr
  | transform hp =>
    exact {
      loopSub := hs.loopSub
      cursor := hs.cursor
      countCap := hs.countCap
      pixel := fun _ => Shape.cap_pos _ }
  | pixelRead => exact ⟨hs.loopSub, hs.cursor, hs.countCap, hs.pixel⟩
  | pixelWrite hp =>
    exact State.pixelDone_loopInv (s := (s.answered _).setByte _ _) hp
      ⟨hs.loopSub, hs.cursor, hs.countCap, hs.pixel⟩
  | finish => exact .of_outside rfl

end Sys2Proof.Machine
end

section
/-! PROOFS. A `DECBLK` ends or waits within its fuel (`spec/41_decblk.md` rule R120, `spec/70_reset_and_hazards.md` rule
R266), and the ways in which it can. -/

namespace Sys2Proof.Machine

open Sys2Proof

/-! ## The number of steps left -/

/-- How many steps the sub-block loop takes at most from the head of sub-block `first`, and the step of `FINISH`: for a
sub-block `CAP + 1` coefficient requests, one transform request, and a read and a write of each pixel (R120). -/
def loopRank (sh : Shape) (first : Nat) : Nat := 1 + (sh.nsub - first) * (3 * sh.cap + 2)

/-- How many steps a `DECBLK` takes at most from a state (R120). -/
def State.rank (s : State) : Nat :=
  match s.phase with
  | .idle => 0
  | .exec => 0
  | .check => 204
  | .select => if s.cont.rawDone then 202 else 203
  | .pull => loopRank s.shape (s.work.k.toNat + 1) + (s.shape.cap + 1 - s.work.cur.toNat) + (2 * s.shape.cap + 1)
  | .recon =>
    loopRank s.shape (s.work.k.toNat + 1) +
      match s.cont.res, s.cont.old with
      | none, _ => 2 * s.shape.cap + 1
      | some _, none => 2 * (s.shape.cap - s.cont.pix)
      | some _, some _ => 2 * (s.shape.cap - s.cont.pix) - 1
  | .finish => 1

theorem loopRank_antitone (sh : Shape) {i j : Nat} (h : i ≤ j) : loopRank sh j ≤ loopRank sh i :=
  Nat.add_le_add_left (Nat.mul_le_mul_right _ (by omega)) _

theorem loopRank_of_lt {sh : Shape} {k : Nat} (h : k < sh.nsub) :
    loopRank sh k = loopRank sh (k + 1) + (3 * sh.cap + 2) := by
  have sub : sh.nsub - k = sh.nsub - (k + 1) + 1 := by omega
  rw [loopRank, loopRank, sub, Nat.succ_mul, Nat.add_assoc]

theorem loopRank_zero_le (sh : Shape) : loopRank sh 0 ≤ 201 := by cases sh <;> decide

theorem loopRank_pos (sh : Shape) (k : Nat) : 0 < loopRank sh k := by
  unfold loopRank
  omega

theorem State.rank_of_idle {s : State} (h : s.phase = .idle) : s.rank = 0 := by rw [State.rank, h]

theorem State.rank_of_pull {s : State} (h : s.phase = .pull) :
    s.rank =
      loopRank s.shape (s.work.k.toNat + 1) + (s.shape.cap + 1 - s.work.cur.toNat) + (2 * s.shape.cap + 1) := by
  rw [State.rank, h]

theorem State.rank_of_recon_none {s : State} (h : s.phase = .recon) (hr : s.cont.res = none) :
    s.rank = loopRank s.shape (s.work.k.toNat + 1) + (2 * s.shape.cap + 1) := by
  rw [State.rank, h, hr]

theorem State.rank_of_recon_read {s : State} (h : s.phase = .recon) {res : List Sample} (hr : s.cont.res = some res)
    (ho : s.cont.old = none) :
    s.rank = loopRank s.shape (s.work.k.toNat + 1) + 2 * (s.shape.cap - s.cont.pix) := by
  rw [State.rank, h, hr, ho]

theorem State.rank_of_recon_write {s : State} (h : s.phase = .recon) {res : List Sample} (hr : s.cont.res = some res)
    {old : Byte} (ho : s.cont.old = some old) :
    s.rank = loopRank s.shape (s.work.k.toNat + 1) + (2 * (s.shape.cap - s.cont.pix) - 1) := by
  rw [State.rank, h, hr, ho]

theorem State.rank_of_enters {t : State} {first : Nat} (h : EntersLoop t.shape t.work.wsubpat first t) :
    t.rank ≤ loopRank t.shape first := by
  rcases h with ⟨hp, -⟩ | ⟨hp, hcur, -, -, hle, hk, -, -⟩
  · rw [State.rank, hp]
    exact loopRank_pos _ _
  · rw [State.rank_of_pull hp, hcur]
    have head := loopRank_of_lt hk
    have mono := loopRank_antitone t.shape hle
    simp only [BitVec.ofNat_eq_ofNat, BitVec.toNat_zero]
    omega

theorem State.rank_nextSub (s : State) : s.nextSub.rank ≤ loopRank s.shape (s.work.k.toNat + 1) := by
  have shape := s.nextSub_shape
  rw [← shape]
  exact State.rank_of_enters (by rw [shape, State.nextSub_wsubpat]; exact s.nextSub_entersLoop)

theorem State.rank_selected (s : State) (w : BitVec 4) : (s.selected w).rank ≤ 201 := by
  refine (State.rank_of_enters (first := 0) ?_).trans (loopRank_zero_le _)
  rw [State.selected_shape, State.selected_wsubpat]
  exact s.selected_enters w

theorem State.rank_of_pullEnds {s t : State} {cur : Nat} {cnt : BitVec 7} (h : PullEnds s t cur cnt) :
    t.rank ≤ loopRank s.shape (s.work.k.toNat + 1) + (2 * s.shape.cap + 1) := by
  obtain ⟨hwshape, hwsubpat, hrecon, hskip⟩ := h
  have shape : t.shape = s.shape := congrArg shapeOf hwshape
  cases hk : s.cont.ops.skipblk with
  | true =>
    have enters := State.rank_of_enters (t := t) (first := s.work.k.toNat + 1)
      (by rw [shape, hwsubpat]; exact hskip hk)
    rw [shape] at enters
    omega
  | false =>
    obtain ⟨hp, hsame, -, -, hres, -, -⟩ := hrecon hk
    rw [State.rank_of_recon_none hp hres, hsame, shape]

/-- A coefficient that ends the placement loop, or moves the cursor, leaves fewer steps. -/
theorem State.rank_takeTriple (c : Cfg) {s : State} (hphase : s.phase = .pull) (h : s.LoopInv) {a : CoefAnswer}
    (herr : a.err = false) : (s.takeTriple c a).rank < s.rank := by
  have sub := h.loopSub (by rw [hphase]; rfl)
  obtain ⟨hcur, -⟩ := h.cursor hphase
  rw [State.rank_of_pull hphase]
  rcases Nat.lt_or_ge (s.work.cur.toNat + a.skip.toNat) s.shape.cap with hcap | hcap
  · cases hlast : a.last with
    | true =>
      have ends := State.rank_of_pullEnds (State.takeTriple_ends c hcur sub.1 herr hlast hcap).2
      omega
    | false =>
      obtain ⟨pull, -, sameSub, cursor, -⟩ := State.takeTriple_goes_on c hcur hphase herr hlast hcap
      have advanced := State.toNat_advance_cur hcur a
      have shape : (s.takeTriple c a).shape = s.shape := by
        rw [State.takeTriple_of_fits c herr (by omega), if_neg (Bool.eq_false_iff.1 hlast)]
        rfl
      rw [State.rank_of_pull pull, sameSub, cursor, shape]
      omega
  · have ends := State.rank_of_pullEnds (State.takeTriple_discards c hcur sub.1 herr hcap).2.2
    omega

theorem State.rank_pixelDone {s : State} (hphase : s.phase = .recon) {res : List Sample}
    (hr : s.cont.res = some res) {old : Byte} (ho : s.cont.old = some old) (h : s.LoopInv) :
    s.pixelDone.rank < s.rank := by
  have pixel := h.pixel hphase
  rw [State.rank_of_recon_write hphase hr ho]
  unfold State.pixelDone
  split
  case isTrue hlt =>
    have next : s.nextPixel.rank =
        loopRank s.shape (s.work.k.toNat + 1) + 2 * (s.shape.cap - (s.cont.pix + 1)) :=
      State.rank_of_recon_read (s := s.nextPixel) hphase hr rfl
    omega
  case isFalse =>
    have left : s.nextPixel.nextSub.rank ≤ loopRank s.shape (s.work.k.toNat + 1) := State.rank_nextSub s.nextPixel
    omega

/-- Every step leaves fewer steps. -/
theorem Ticked.rank_lt {c : Cfg} {s t : State} (h : Ticked c s t) (hs : s.LoopInv) : t.rank < s.rank := by
  cases h with
  | check hp =>
    have before : s.rank = 204 := by rw [State.rank, hp]
    rcases s.checkBlock_cases with ⟨code, -, e⟩ | ⟨-, -, e⟩
    · rw [e, before, State.rank_of_idle rfl]
      omega
    · rw [e, before]
      exact show 203 < 204 by omega
  | rawGiven hp hr =>
    have before : s.rank = 203 := by rw [State.rank, hp, hr]; rfl
    have after : (s.setRaw s.cont.ops.ttcode).rank = 202 := by rw [State.rank, State.setRaw_phase, hp]; rfl
    omega
  | rawRead hp hr _ code rest =>
    have before : s.rank = 203 := by rw [State.rank, hp, hr]; rfl
    have after : ((s.gotCode (.symRead .ttblk s.ctx.regime) rest).setRaw (code.sym.setWidth 3)).rank = 202 := by
      rw [State.rank, State.setRaw_phase, State.gotCode_phase, hp]
      rfl
    omega
  | patGiven hp hr =>
    have before : s.rank = 202 := by rw [State.rank, hp, hr]; rfl
    have after := s.rank_selected (orientedSubpat c.orient (rawShapeOf s.work.raw))
    omega
  | patRead hp hr cls _ code rest =>
    have before : s.rank = 202 := by rw [State.rank, hp, hr]; rfl
    have after := (s.gotCode (.symRead cls s.ctx.regime) rest).rank_selected (subpatOfSym cls code.sym)
    omega
  | pull hp code rest =>
    cases herr : code.coef.err with
    | true =>
      rw [State.takeTriple_raises c _ herr, State.rank_of_idle rfl, State.rank_of_pull hp]
      omega
    | false =>
      exact State.rank_takeTriple c (s := s.gotCode (.coefNext s.ctx.codingset) rest) hp
        ⟨hs.loopSub, hs.cursor, hs.countCap, hs.pixel⟩ herr
  | transform hp hr =>
    rw [State.rank_of_recon_none hp hr]
    refine lt_of_eq_of_lt (State.rank_of_recon_read (s := (s.answered _).setRes _) hp rfl rfl) ?_
    exact Nat.add_lt_add_left (show 2 * (s.shape.cap - 0) < 2 * s.shape.cap + 1 by omega) _
  | pixelRead hp res hr ho =>
    have pixel := hs.pixel hp
    rw [State.rank_of_recon_read hp hr ho]
    refine lt_of_eq_of_lt (State.rank_of_recon_write (s := (s.answered _).setOld _) hp hr rfl) ?_
    exact Nat.add_lt_add_left (show 2 * (s.shape.cap - s.cont.pix) - 1 < 2 * (s.shape.cap - s.cont.pix) by omega) _
  | pixelWrite hp res hr old ho =>
    exact State.rank_pixelDone (s := (s.answered _).setByte _ _) hp hr ho
      ⟨hs.loopSub, hs.cursor, hs.countCap, hs.pixel⟩
  | finish hp =>
    have before : s.rank = 1 := by rw [State.rank, hp]
    rw [State.rank_of_idle (s := s.finishBlock) rfl, before]
    omega

/-! ## Runs as sequences of steps -/

/-- A sequence of steps that went on. -/
abbrev Ticks (c : Cfg) : State → State → Prop := Relation.ReflTransGen (Ticked c)

/-- What every step keeps, a sequence of steps keeps. -/
theorem Ticks.keeps {c : Cfg} {P : State → Prop} (hstep : ∀ {s t}, P s → Ticked c s t → P t) {s t : State}
    (h : Ticks c s t) (hs : P s) : P t := by
  induction h with
  | refl => exact hs
  | tail _ step ih => exact hstep ih step

theorem Ticks.loopInv {c : Cfg} {s t : State} (h : Ticks c s t) (hs : s.LoopInv) : t.LoopInv :=
  h.keeps (P := State.LoopInv) (fun hu step => step.loopInv hu) hs

theorem Ticks.setting {c : Cfg} {s t : State} (h : Ticks c s t) : SameSetting s t :=
  h.keeps (P := SameSetting s) (fun hu step => hu.trans step.setting) (.refl s)

theorem Ticks.rank_le {c : Cfg} {s t : State} (h : Ticks c s t) (hs : s.LoopInv) : t.rank ≤ s.rank := by
  induction h with
  | refl => exact le_rfl
  | tail path step ih => exact (step.rank_lt (Ticks.loopInv path hs)).le.trans ih

/-- The sequencer does not go back to `EXEC`. -/
theorem Ticked.phase_ne_exec {c : Cfg} {s t : State} (h : Ticked c s t) : t.phase ≠ .exec := by
  rcases h.outcome with ⟨-, rfl⟩ | ⟨-, rfl⟩ | ⟨-, code, rest, -, -, -, rfl⟩ | ⟨-, inBlock, -⟩
  · rcases s.checkBlock_cases with ⟨code, -, e⟩ | ⟨-, -, e⟩
    · rw [e]; nofun
    · rw [e]; nofun
  · nofun
  · nofun
  · intro e
    simp [e, Phase.inBlock] at inBlock

/-- A step that waits is one of a phase that makes requests. -/
theorem inBlock_of_tick_waits {c : Cfg} {s t : State} (h : tick c s = .waits t) (hidle : s.phase ≠ .idle)
    (hexec : s.phase ≠ .exec) : s.phase.inBlock = true := by
  cases hp : s.phase with
  | idle => exact absurd hp hidle
  | exec => exact absurd hp hexec
  | check => simp [tick, hp] at h
  | select | pull | recon | finish => rfl

theorem State.rank_pos {s : State} (hidle : s.phase ≠ .idle) (hexec : s.phase ≠ .exec) : 0 < s.rank := by
  have loop := loopRank_pos s.shape (s.work.k.toNat + 1)
  unfold State.rank
  cases hp : s.phase with
  | idle => exact absurd hp hidle
  | exec => exact absurd hp hexec
  | check | finish => exact Nat.zero_lt_succ _
  | select =>
    dsimp only
    split <;> omega
  | pull | recon =>
    dsimp only
    omega

/-- A run with fuel for all steps that are left ends in `IDLE`, or waits with a request outstanding (R120, R266). -/
theorem run_reaches {c : Cfg} {n : Nat} {s t : State} (h : run c n s = .next t) (hs : s.LoopInv)
    (hrank : s.rank ≤ n) (hexec : s.phase ≠ .exec) :
    ∃ u, Ticks c s u ∧ ((u.phase = .idle ∧ t = u) ∨
      (u.phase.inBlock = true ∧ tick c u = .waits t ∧ ∃ r, t = u.await r)) := by
  induction n generalizing s with
  | zero =>
    have hidle : s.phase = .idle := by
      by_contra hidle
      have pos := State.rank_pos hidle hexec
      omega
    rw [run_idle c 0 s hidle] at h
    exact ⟨s, .refl, .inl ⟨hidle, (Host.Outcome.next.inj h).symm⟩⟩
  | succ n ih =>
    by_cases hidle : s.phase = .idle
    · rw [run_idle c _ s hidle] at h
      exact ⟨s, .refl, .inl ⟨hidle, (Host.Outcome.next.inj h).symm⟩⟩
    · rw [run_succ c n s hidle] at h
      cases ht : tick c s with
      | answer _ v =>
        rw [ht] at h
        have step := (tick_answer_iff c s v).1 ht
        have fewer := step.rank_lt hs
        obtain ⟨u, path, ends⟩ := ih h (step.loopInv hs) (by omega) step.phase_ne_exec
        exact ⟨u, .head step path, ends⟩
      | waits v =>
        rw [ht] at h
        cases h
        refine ⟨s, .refl, .inr ⟨inBlock_of_tick_waits ht hidle hexec, ht, ?_⟩⟩
        rcases tick_waits c s _ ht with awaits | ⟨hp | hp, -⟩
        · exact awaits
        · exact absurd hp hidle
        · exact absurd hp hexec
      | refused r => simp [ht] at h

/-! ## The end of a block -/

/-- A sequence of steps past the checks is still in the block and has left the records alone, or has ended. -/
theorem Ticks.inBlock_or_idle {c : Cfg} {s t : State} (h : Ticks c s t) (hs : s.phase.inBlock = true) :
    (t.phase.inBlock = true ∧ SameRecords s t) ∨ t.phase = .idle := by
  refine h.keeps (P := fun u => (u.phase.inBlock = true ∧ SameRecords s u) ∨ u.phase = .idle) ?_
    (.inl ⟨hs, .refl s⟩)
  rintro u v (⟨inBlock, same⟩ | hidle) step
  · rcases step.outcome with ⟨hp, -⟩ | ⟨-, rfl⟩ | ⟨-, code, rest, -, -, -, rfl⟩ | ⟨-, stays, next⟩
    · simp [hp, Phase.inBlock] at inBlock
    · exact .inr rfl
    · exact .inr rfl
    · exact .inl ⟨stays, same.trans next⟩
  · exact absurd step (not_ticked_of_idle hidle)

theorem Ticks.records {c : Cfg} {s t : State} (h : Ticks c s t) (hs : s.phase.inBlock = true)
    (ht : t.phase.inBlock = true) : SameRecords s t := by
  rcases Ticks.inBlock_or_idle h hs with ⟨-, same⟩ | hidle
  · exact same
  · simp [hidle, Phase.inBlock] at ht

/-- A block that has ended has ended in `FINISH`, or with a coefficient request that failed (R110, R117). -/
theorem Ticks.last_step {c : Cfg} {s t : State} (h : Ticks c s t) (hs : s.phase.inBlock = true)
    (ht : t.phase = .idle) :
    ∃ v, Ticks c s v ∧ ((v.phase = .finish ∧ t = v.finishBlock) ∨
      (v.phase = .pull ∧ ∃ code rest, v.stream = code :: rest ∧ v.agentsAnswer = true ∧ code.coef.err = true ∧
        t = v.streamFault rest)) := by
  rcases h.cases_tail with rfl | ⟨v, path, step⟩
  · simp [ht, Phase.inBlock] at hs
  · refine ⟨v, path, ?_⟩
    rcases step.outcome with ⟨hp, -⟩ | ends | fails | ⟨-, stays, -⟩
    · rcases Ticks.inBlock_or_idle path hs with ⟨inBlock, -⟩ | hidle
      · simp [hp, Phase.inBlock] at inBlock
      · simp [hp] at hidle
    · exact .inl ends
    · exact .inr fails
    · simp [ht, Phase.inBlock] at stays

/-! ## The ways in which a `DECBLK` ends -/

/-- A `DECBLK` that has passed its checks, at the beginning of `SELECT` (R112 to R114). -/
def State.begun (s : State) (ops : DecOps) : State := (s.startBlock ops).clearBlock.deriveQuant.startSelect

theorem State.begun_loopInv (s : State) (ops : DecOps) : (s.begun ops).LoopInv := .of_outside rfl

theorem State.begun_rank (s : State) (ops : DecOps) : (s.begun ops).rank = 203 := rfl

/-- How a `DECBLK` with the operands `ops`, taken in `s`, can come to the next state `t`. -/
inductive DecblkOutcome (s : State) (ops : DecOps) (t : State) : Prop
  /-- a fault is pending (R76) -/
  | refused (herr : s.status.err = true) (ht : t = s.refuse)
  /-- a shape code beside `NOSHAPE` (R77 (d)) -/
  | illegal (herr : s.status.err = false) (ht : t = s.raiseFault .eIllcmd 0)
  /-- a check fails (R112) -/
  | unready (herr : s.status.err = false) (code : StatusCode) (hcode : code = .eUncfg ∨ code = .eQzero)
      (ht : t = (s.startBlock ops).raiseFault code 0)
  /-- the block is complete (R110) -/
  | completes (hready : s.hostReady) (v : State) (path : Ticks Config.vrd (s.begun ops) v)
      (hphase : v.phase = .finish) (ht : t = v.finishBlock)
  /-- a coefficient request fails (R117) -/
  | fails (hready : s.hostReady) (v : State) (path : Ticks Config.vrd (s.begun ops) v) (hphase : v.phase = .pull)
      (code : Code) (rest : List Code) (hs : v.stream = code :: rest) (ha : v.agentsAnswer = true)
      (herr : code.coef.err = true) (ht : t = v.streamFault rest)
  /-- an agent does not answer (R266) -/
  | waits (hready : s.hostReady) (hwf : ops.noshape = true → ops.ttcode = 0) (v : State)
      (path : Ticks Config.vrd (s.begun ops) v) (hphase : v.phase.inBlock = true)
      (hwait : tick Config.vrd v = .waits t) (r : Request) (ht : t = v.await r)

/-- With no fault pending, a well-formed `DECBLK` fails a check or is run past the checks. -/
theorem exec_decblk_checked {s : State} (herr : s.status.err = false) {tt : BitVec 3} {ns : Bool}
    (hwf : ns = true → tt = 0) (f k o : Bool) (n : BitVec 3) :
    (∃ code, (code = .eUncfg ∨ code = .eQzero) ∧ exec (.decblk tt ns f k o n) s =
      .next ((s.startBlock { ttcode := tt, noshape := ns, first := f, skipblk := k, ttout := o, n := n }).raiseFault
        code 0)) ∨
    (s.hostReady ∧ exec (.decblk tt ns f k o n) s = run Config.vrd 255
      (s.begun { ttcode := tt, noshape := ns, first := f, skipblk := k, ttout := o, n := n })) := by
  rw [exec_decblk_of_no_fault herr hwf, runBlock_eq]
  rcases (s.startBlock _).checkBlock_cases with ⟨code, hcode, e⟩ | ⟨hcfg, hq, e⟩
  · exact .inl ⟨code, hcode, by rw [e]; exact run_idle _ _ _ rfl⟩
  · exact .inr ⟨⟨herr, hcfg, hq⟩, by rw [e]; rfl⟩

/-- Every next state of a `DECBLK` is one of these. -/
theorem exec_decblk_outcome {s t : State} {tt : BitVec 3} {ns f k o : Bool} {n : BitVec 3}
    (h : exec (.decblk tt ns f k o n) s = .next t) :
    DecblkOutcome s { ttcode := tt, noshape := ns, first := f, skipblk := k, ttout := o, n := n } t := by
  cases herr : s.status.err with
  | true => exact .refused herr (Host.Outcome.next.inj (h.symm.trans (if_pos herr)))
  | false =>
    by_cases hwf : ns = true → tt = 0
    · rcases exec_decblk_checked herr hwf f k o n with ⟨code, hcode, e⟩ | ⟨hready, e⟩
      · exact .unready herr code hcode (Host.Outcome.next.inj (h.symm.trans e))
      · obtain ⟨u, path, ⟨hidle, rfl⟩ | ⟨hphase, hwait, r, ht⟩⟩ :=
          run_reaches (e.symm.trans h) (s.begun_loopInv _) (by rw [State.begun_rank]; omega) nofun
        · obtain ⟨v, path, ⟨hp, ht⟩ | ⟨hp, code, rest, hs, ha, hcoef, ht⟩⟩ := Ticks.last_step path rfl hidle
          · exact .completes hready v path hp ht
          · exact .fails hready v path hp code rest hs ha hcoef ht
        · exact .waits hready hwf u path hphase hwait r ht
    · obtain ⟨rfl, htt⟩ : ns = true ∧ tt ≠ 0 := by simpa using hwf
      exact .illegal herr (Host.Outcome.next.inj (h.symm.trans (exec_decblk_of_shape_conflict herr htt f k o n)))

end Sys2Proof.Machine
end

section
/-! PROOFS. One response for each command, and what a `DECBLK` never changes (`spec/10_state.md` rule R30,
`spec/30_encoding.md` rules R71 to R73, `spec/20_memory.md` rule R53, `spec/60_exceptions.md` rule R223). -/

namespace Sys2Proof.Machine

open Sys2Proof

/-! ## Responses -/

/-- From `s` to `t` one response has been given, and the command counted exactly when it is `OK` (R73). -/
def RespondedOnce (s t : State) : Prop :=
  t.phase = .idle ∧ ∃ (st : BitVec 4) (d : Word), st.toNat ≤ 5 ∧ t.responses = s.responses ++ [st ++ d] ∧
    t.cmdcnt = if st = 0 then s.cmdcnt + 1 else s.cmdcnt

theorem StatusCode.bits_le (st : StatusCode) : st.bits.toNat ≤ 5 := by cases st <;> decide

theorem StatusCode.bits_eq_zero_iff (st : StatusCode) : st.bits = 0 ↔ st = .ok := by cases st <;> decide

/-- `Respond` from a state with the responses and the count of `s` (R73). -/
theorem State.respond_respondedOnce {s u : State} (hresp : u.responses = s.responses) (hcnt : u.cmdcnt = s.cmdcnt)
    (st : StatusCode) (d : Word) : RespondedOnce s (u.respond st d) := by
  refine ⟨rfl, st.bits, d, st.bits_le, congrArg (· ++ [st.bits ++ d]) hresp, ?_⟩
  simp only [StatusCode.bits_eq_zero_iff, ← hcnt]
  rfl

theorem State.raiseFault_respondedOnce {s u : State} (hresp : u.responses = s.responses) (hcnt : u.cmdcnt = s.cmdcnt)
    (code : StatusCode) (sub : BitVec 2) : RespondedOnce s (u.raiseFault code sub) :=
  State.respond_respondedOnce ((u.recordFault_responses code sub).trans hresp)
    ((u.recordFault_cmdcnt code sub).trans hcnt) _ _

theorem State.updateTtacc_responses (s : State) : s.updateTtacc.responses = s.responses := by
  unfold State.updateTtacc
  split <;> rfl

theorem State.updateTtacc_cmdcnt (s : State) : s.updateTtacc.cmdcnt = s.cmdcnt := by
  unfold State.updateTtacc
  split <;> rfl

theorem State.finishBlock_respondedOnce {s u : State} (hresp : u.responses = s.responses)
    (hcnt : u.cmdcnt = s.cmdcnt) : RespondedOnce s u.finishBlock :=
  State.respond_respondedOnce (u.updateTtacc_responses.trans hresp) (u.updateTtacc_cmdcnt.trans hcnt) _ _

/-- Past the checks the records are those of the state in which the command was taken, but for what the checks clear
and derive. -/
theorem Ticks.records_of_begun {s v : State} {ops : DecOps} (path : Ticks Config.vrd (s.begun ops) v)
    (h : v.phase.inBlock = true) : SameRecords (s.begun ops) v := Ticks.records path rfl h

/-- A `DECBLK` responds once, or waits and has not responded. -/
theorem DecblkOutcome.responds {s t : State} {ops : DecOps} (h : DecblkOutcome s ops t) :
    RespondedOnce s t ∨ (t.phase.inBlock = true ∧ t.responses = s.responses ∧ t.cmdcnt = s.cmdcnt ∧
      ∃ r, t.outstanding = some r) := by
  cases h with
  | refused _ ht => exact .inl (ht ▸ State.respond_respondedOnce rfl rfl _ _)
  | illegal _ ht => exact .inl (ht ▸ State.raiseFault_respondedOnce rfl rfl _ _)
  | unready _ code _ ht => exact .inl (ht ▸ State.raiseFault_respondedOnce rfl rfl _ _)
  | completes _ v path hp ht =>
    have same := Ticks.records_of_begun path (by rw [hp]; rfl)
    exact .inl (ht ▸ State.finishBlock_respondedOnce same.responses same.cmdcnt)
  | fails _ v path hp code rest _ _ _ ht =>
    have same := Ticks.records_of_begun path (by rw [hp]; rfl)
    exact .inl (ht ▸ State.raiseFault_respondedOnce (u := (v.gotCode _ rest).setPlaced _ _) same.responses same.cmdcnt
      .eStream v.work.k)
  | waits _ _ v path hp _ r ht =>
    have same := Ticks.records_of_begun path hp
    subst ht
    exact .inr ⟨hp, same.responses, same.cmdcnt, r, rfl⟩

/-- What a command other than `DECBLK` writes before it responds `OK` (R90 to R98). -/
def State.written (s : State) : Instr → State
  | .nop => s
  | .setq m h p => { s with qctx := { mquant := m, halfqp := h, pquantizer := p } }.setCfgv 0
  | .setctx r c f d => { s with ctx := { regime := r, codingset := c, patf := f, resred := d } }.setCfgv 1
  | .setbase a => { s with dstbase := a }.setCfgv 2
  | .setstride d => { s with dststride := d }.setCfgv 3
  | .decblk _ _ _ _ _ _ => s
  | .clracc => { s with ttacc := 0 }
  | .rdreg _ => s
  | .rdblk _ => if s.blkDefined then s else { s with draws := s.draws + 1 }
  | .clrerr => s.clearFault

/-- A command is a `DECBLK` that is run, or it is refused, or illegal, or `OK` after its write. -/
theorem exec_cases {i : Instr} {s t : State} (h : exec i s = .next t) :
    (∃ tt ns f k o n, i = .decblk tt ns f k o n ∧ s.status.err = false ∧ run Config.vrd decblkFuel
        (s.startBlock { ttcode := tt, noshape := ns, first := f, skipblk := k, ttout := o, n := n }) = .next t) ∨
      (s.status.err = true ∧ t = s.refuse) ∨ t = s.raiseFault .eIllcmd 0 ∨
        ∃ d, t = (s.written i).respond .ok d := by
  have next {u v : State} (e : (Host.Outcome.next u : Host.Outcome State Fault Refusal) = .next v) : v = u :=
    (Host.Outcome.next.inj e).symm
  cases i with
  | decblk tt ns f k o n =>
    cases herr : s.status.err with
    | true => exact .inr (.inl ⟨rfl, next ((if_pos herr).symm.trans h)⟩)
    | false =>
      by_cases hwf : ns = true → tt = 0
      · exact .inl ⟨tt, ns, f, k, o, n, rfl, rfl, (exec_decblk_of_no_fault herr hwf f k o n).symm.trans h⟩
      · obtain ⟨rfl, htt⟩ : ns = true ∧ tt ≠ 0 := by simpa using hwf
        exact .inr (.inr (.inl (next ((exec_decblk_of_shape_conflict herr htt f k o n).symm.trans h))))
  | nop | clrerr => exact .inr (.inr (.inr ⟨_, next h⟩))
  | setq | setctx | setbase | setstride | clracc =>
    cases herr : s.status.err with
    | true => exact .inr (.inl ⟨rfl, next ((if_pos herr).symm.trans h)⟩)
    | false => exact .inr (.inr (.inr ⟨_, next ((if_neg (Bool.eq_false_iff.1 herr)).symm.trans h)⟩))
  | rdreg r =>
    by_cases hr : r.toNat < 10
    · exact .inr (.inr (.inr ⟨_, next ((if_pos hr).symm.trans h)⟩))
    · exact .inr (.inr (.inl (next ((if_neg hr).symm.trans h))))
  | rdblk x =>
    refine .inr (.inr (.inr ?_))
    cases hdef : s.blkDefined with
    | true => exact ⟨_, by rw [State.written, if_pos hdef]; exact next ((if_pos hdef).symm.trans h)⟩
    | false =>
      have not_def := Bool.eq_false_iff.1 hdef
      exact ⟨_, by rw [State.written, if_neg not_def]; exact next ((if_neg not_def).symm.trans h)⟩

/-- No command writes the responses or the count before it responds. -/
theorem State.written_output (s : State) (i : Instr) :
    (s.written i).responses = s.responses ∧ (s.written i).cmdcnt = s.cmdcnt := by
  cases i with
  | rdblk =>
    rw [State.written]
    split <;> exact ⟨rfl, rfl⟩
  | _ => exact ⟨rfl, rfl⟩

/-- Settles O22: every command but `DECBLK` is one response, and a `DECBLK` is one of the outcomes. -/
theorem oneResponsePerCommand : Obligations.OneResponsePerCommand := by
  intro i s t h
  obtain ⟨hresp, hcnt⟩ := s.written_output i
  rcases exec_cases h with ⟨tt, ns, f, k, o, n, rfl, -⟩ | ⟨-, rfl⟩ | rfl | ⟨d, rfl⟩
  · exact (exec_decblk_outcome h).responds
  · exact .inl (State.respond_respondedOnce rfl rfl _ _)
  · exact .inl (State.raiseFault_respondedOnce rfl rfl _ _)
  · exact .inl (State.respond_respondedOnce hresp hcnt _ _)

/-! ## The frame of `DECBLK` -/

/-- Every next state of a `DECBLK` has the setting of the state in which its operands have been latched, unless it was
turned away at once. -/
theorem DecblkOutcome.setting {s t : State} {ops : DecOps} (h : DecblkOutcome s ops t) :
    SameSetting s t ∨ SameSetting (s.startBlock ops) t := by
  have begun : SameSetting (s.startBlock ops) (s.begun ops) := ⟨rfl, rfl, rfl, rfl, rfl, rfl, rfl, rfl, rfl, rfl⟩
  cases h with
  | refused _ ht => exact .inl (ht ▸ ⟨rfl, rfl, rfl, rfl, rfl, rfl, rfl, rfl, rfl, rfl⟩)
  | illegal _ ht => exact .inl (ht ▸ State.raiseFault_setting _ _ _)
  | unready _ code _ ht => exact .inr (ht ▸ State.raiseFault_setting _ _ _)
  | completes _ v path hp ht =>
    exact .inr (begun.trans ((Ticks.setting path).trans (ht ▸ (Ticked.finish (c := Config.vrd) hp).setting)))
  | fails _ v path hp code rest hs ha herr ht =>
    have last : SameSetting v (v.streamFault rest) :=
      SameSetting.trans (t := (v.gotCode (.coefNext v.ctx.codingset) rest).setPlaced v.work.k.toNat v.work.cnt)
        ⟨rfl, rfl, rfl, rfl, rfl, rfl, rfl, rfl, rfl, rfl⟩ (State.raiseFault_setting _ _ _)
    exact .inr (begun.trans ((Ticks.setting path).trans (ht ▸ last)))
  | waits _ _ v path _ _ r ht =>
    have await : SameSetting v (v.await r) := ⟨rfl, rfl, rfl, rfl, rfl, rfl, rfl, rfl, rfl, rfl⟩
    exact .inr (begun.trans ((Ticks.setting path).trans (ht ▸ await)))

/-- A fault does not touch the accumulator or the count (R223). -/
theorem State.raiseFault_counters (s : State) {code : StatusCode} (sub : BitVec 2) (hcode : code ≠ .ok) :
    (s.raiseFault code sub).ttacc = s.ttacc ∧ (s.raiseFault code sub).cmdcnt = s.cmdcnt := by
  rw [State.raiseFault_eq _ _ _ hcode]
  exact ⟨rfl, rfl⟩

/-- The accumulator and the count change only where a `DECBLK` completes, which it does with no fault pending. -/
theorem DecblkOutcome.counters {s t : State} {ops : DecOps} (h : DecblkOutcome s ops t) :
    (t.ttacc = s.ttacc ∧ t.cmdcnt = s.cmdcnt) ∨ (t.phase = .idle ∧ t.status.err = false) := by
  cases h with
  | refused _ ht => exact .inl (ht ▸ ⟨rfl, rfl⟩)
  | illegal _ ht => exact .inl (ht ▸ s.raiseFault_counters 0 nofun)
  | unready _ code hcode ht =>
    have not_ok : code ≠ .ok := by rcases hcode with rfl | rfl <;> nofun
    exact .inl (ht ▸ (s.startBlock ops).raiseFault_counters 0 not_ok)
  | completes hready v path hp ht =>
    have same := Ticks.records_of_begun path (by rw [hp]; rfl)
    have err : v.status.err = false := by rw [same.status]; exact hready.1
    refine .inr (ht ▸ ⟨rfl, ?_⟩)
    unfold State.finishBlock State.updateTtacc
    split <;> exact err
  | fails hready v path hp code rest hs ha herr ht =>
    have same := Ticks.records_of_begun path (by rw [hp]; rfl)
    obtain ⟨ttacc, cmdcnt⟩ :=
      ((v.gotCode (.coefNext v.ctx.codingset) rest).setPlaced v.work.k.toNat v.work.cnt).raiseFault_counters v.work.k
        (code := .eStream) nofun
    exact .inl (ht ▸ ⟨ttacc.trans same.ttacc, cmdcnt.trans same.cmdcnt⟩)
  | waits _ _ v path hp _ r ht =>
    have same := Ticks.records_of_begun path hp
    exact .inl (ht ▸ ⟨same.ttacc, same.cmdcnt⟩)

/-- A `DECBLK` taken with a fault pending leaves the record. -/
theorem DecblkOutcome.status_of_pending {s t : State} {ops : DecOps} (h : DecblkOutcome s ops t)
    (herr : s.status.err = true) : t.status = s.status := by
  cases h with
  | refused _ ht => exact ht ▸ rfl
  | illegal hno | unready hno => simp [herr] at hno
  | completes hready | fails hready | waits hready => simp [hready.1] at herr

/-- Settles O46: the setting, the counters and the record over the outcomes of a `DECBLK`. -/
theorem decblkFrame : Obligations.DecblkFrame := by
  intro s t tt ns f k o n h
  have outcome := exec_decblk_outcome h
  obtain ⟨qctx, ctx, dstbase, dststride, cfgv, cmds, resetPin, platform, draws⟩ :
      t.qctx = s.qctx ∧ t.ctx = s.ctx ∧ t.dstbase = s.dstbase ∧ t.dststride = s.dststride ∧ t.cfgv = s.cfgv ∧
        t.cmds = s.cmds ∧ t.resetPin = s.resetPin ∧ t.platform = s.platform ∧ t.draws = s.draws := by
    rcases outcome.setting with g | g <;>
      exact ⟨g.qctx, g.ctx, g.dstbase, g.dststride, g.cfgv, g.cmds, g.resetPin, g.platform, g.draws⟩
  refine ⟨qctx, ctx, dstbase, dststride, cfgv, cmds, resetPin, platform, draws, fun hend => ?_,
    outcome.status_of_pending⟩
  rcases outcome.counters with same | ⟨hidle, hno⟩
  · exact same
  · rcases hend with hbusy | herr
    · exact absurd hidle hbusy
    · simp [hno] at herr

end Sys2Proof.Machine
end

section
/-! PROOFS. What a step of a `DECBLK` does at the requester ports: the stream, the requests made, and the plane
(`spec/46_external_ports.md` sections 2 and 3, `spec/42_partition_selector.md` rules R128 to R136). -/

namespace Sys2Proof.Machine

open Sys2Proof

/-! ## What moves nothing at the ports -/

/-- `t` has the stream, the requests made and the plane of `s`, and no other limit of grants. -/
structure SamePorts (s t : State) : Prop where
  stream : t.stream = s.stream
  requests : t.requests = s.requests
  mem : t.mem = s.mem
  grants : t.grants = s.grants

theorem SamePorts.trans {s t u : State} (h : SamePorts s t) (g : SamePorts t u) : SamePorts s u :=
  ⟨g.stream.trans h.stream, g.requests.trans h.requests, g.mem.trans h.mem, g.grants.trans h.grants⟩

theorem State.enterFrom_ports (sh : Shape) (n : Nat) (s : State) : SamePorts s (State.enterFrom sh n s) :=
  ⟨by simp, by simp, by simp, by simp⟩

theorem State.selected_ports (s : State) (w : BitVec 4) : SamePorts s (s.selected w) :=
  ⟨State.enterFrom_stream _ _ _, State.enterFrom_requests _ _ _, State.enterFrom_mem _ _ _,
    State.enterFrom_grants _ _ _⟩

theorem State.raiseFault_ports (s : State) (code : StatusCode) (sub : BitVec 2) :
    SamePorts s (s.raiseFault code sub) :=
  ⟨s.recordFault_stream code sub, s.recordFault_requests code sub, s.recordFault_mem code sub,
    s.recordFault_grants code sub⟩

theorem State.takeTriple_ports (c : Cfg) (s : State) (a : CoefAnswer) : SamePorts s (s.takeTriple c a) := by
  cases herr : a.err with
  | true =>
    rw [State.takeTriple_raises c s herr]
    exact SamePorts.trans (t := s.setPlaced s.work.k.toNat s.work.cnt) ⟨rfl, rfl, rfl, rfl⟩
      (State.raiseFault_ports _ _ _)
  | false =>
    have moved := State.takeTriple_sequenced c (s := s) herr
    exact ⟨by rw [moved], by rw [moved], by rw [moved], by rw [moved]⟩

theorem State.pixelDone_ports (s : State) : SamePorts s s.pixelDone := by
  unfold State.pixelDone
  split
  · exact ⟨rfl, rfl, rfl, rfl⟩
  · exact SamePorts.trans (t := s.nextPixel) ⟨rfl, rfl, rfl, rfl⟩ (State.enterFrom_ports _ _ _)

theorem State.checkBlock_ports (s : State) : SamePorts s s.checkBlock := by
  rcases s.checkBlock_cases with ⟨code, -, e⟩ | ⟨-, -, e⟩
  · exact e ▸ s.raiseFault_ports code 0
  · exact e ▸ ⟨rfl, rfl, rfl, rfl⟩

theorem State.finishBlock_ports (s : State) : SamePorts s s.finishBlock := by
  unfold State.finishBlock State.updateTtacc
  split <;> exact ⟨rfl, rfl, rfl, rfl⟩

/-! ## The request of a step -/

/-- A step makes no request, or one that leaves the stream, or one on the stream that takes one code (R119). -/
theorem Ticked.request {c : Cfg} {s t : State} (h : Ticked c s t) :
    (t.stream = s.stream ∧ t.requests = s.requests) ∨
      (t.stream = s.stream ∧ ∃ r, r.onStream = false ∧ t.requests = s.requests ++ [r]) ∨
      (∃ code r, s.stream = code :: t.stream ∧ r.onStream = true ∧ t.requests = s.requests ++ [r]) := by
  cases h with
  | check => exact .inl ⟨s.checkBlock_ports.stream, s.checkBlock_ports.requests⟩
  | rawGiven => exact .inl ⟨rfl, rfl⟩
  | rawRead _ _ _ code rest hs => exact .inr (.inr ⟨code, _, hs, rfl, rfl⟩)
  | patGiven => exact .inl ⟨(s.selected_ports _).stream, (s.selected_ports _).requests⟩
  | patRead _ _ cls _ code rest hs =>
    have ports := (s.gotCode (.symRead cls s.ctx.regime) rest).selected_ports (subpatOfSym cls code.sym)
    exact .inr (.inr ⟨code, .symRead cls s.ctx.regime, by rw [ports.stream]; exact hs, rfl, ports.requests⟩)
  | pull _ code rest hs =>
    have ports := (s.gotCode (.coefNext s.ctx.codingset) rest).takeTriple_ports c code.coef
    exact .inr (.inr ⟨code, .coefNext s.ctx.codingset, by rw [ports.stream]; exact hs, rfl, ports.requests⟩)
  | transform => exact .inr (.inl ⟨rfl, _, rfl, rfl⟩)
  | pixelRead => exact .inr (.inl ⟨rfl, _, rfl, rfl⟩)
  | pixelWrite _ res _ old =>
    have ports := ((s.answered (.memWrite (s.pixelAddr s.cont.pix)
      (accumulate old (sampleAt res s.cont.pix)))).setByte (s.pixelAddr s.cont.pix)
        (accumulate old (sampleAt res s.cont.pix))).pixelDone_ports
    exact .inr (.inl ⟨ports.stream, _, rfl, ports.requests⟩)
  | finish => exact .inl ⟨s.finishBlock_ports.stream, s.finishBlock_ports.requests⟩

/-- Settles O56: the three cases of the request of a step. -/
theorem streamRequestTakesOneCode : Obligations.StreamRequestTakesOneCode := by
  intro c s t h
  rcases ((tick_answer_iff c s t).1 h).request with ⟨hs, hr⟩ | ⟨hs, r, hstream, hr⟩ | ⟨code, r, hs, hstream, hr⟩
  · exact .inl ⟨hs, [], by rw [hr, List.append_nil], rfl⟩
  · exact .inl ⟨hs, [r], hr, by simp [hstream]⟩
  · exact .inr ⟨code, r, hs, hr, hstream⟩

/-! ## The last step of `SELECT` -/

/-- What the end of `SELECT` leaves of the Block, the counts and the output. -/
theorem State.selected_frame (s : State) (w : BitVec 4) :
    (s.selected w).blk = s.blk ∧ (s.selected w).placed = s.placed ∧ (s.selected w).mem = s.mem ∧
      (s.selected w).responses = s.responses :=
  ⟨State.enterFrom_blk _ _ _, State.enterFrom_placed _ _ _, State.enterFrom_mem _ _ _,
    State.enterFrom_responses _ _ _⟩

/-- Settles O55: the step with the read its raw shape calls for, or without one, ends `SELECT`. -/
theorem selectorEntersLoop : Obligations.SelectorEntersLoop := by
  intro c s read hphase hraw hgrants hread hstream
  subst hread
  have answers : s.agentsAnswer = true := by simp [State.agentsAnswer, hgrants]
  cases hp : patternRead (rawShapeOf s.work.raw) s.cont.ops.noshape s.cont.ops.first s.ctx.patf s.ctx.resred with
  | none =>
    refine ⟨_, (tick_answer_iff c s _).2 (.patGiven hphase hraw hp), ?_, State.selected_wshape _ _,
      State.selected_wsubpat _ _, ?_, s.selected_frame _⟩
    · exact (s.selected_ports _).requests.trans (List.append_nil _).symm
    · rw [State.selected_wsubpat]
      exact s.selected_enters _
  | some cls =>
    obtain ⟨code, rest, hs⟩ := List.exists_cons_of_ne_nil (hstream (by rw [hp]; nofun))
    have sym : headSym s.stream = code.sym := by rw [hs]; rfl
    refine ⟨_, (tick_answer_iff c s _).2 (.patRead hphase hraw cls hp code rest hs answers), ?_,
      State.selected_wshape _ _, ?_, ?_, State.selected_frame _ _⟩
    · exact (State.selected_ports (s.gotCode (.symRead cls s.ctx.regime) rest) _).requests
    · rw [State.selected_wsubpat, sym]
    · rw [State.selected_wsubpat]
      exact State.selected_enters (s.gotCode (.symRead cls s.ctx.regime) rest) _

end Sys2Proof.Machine
end

section
/-! PROOFS. The invariant of the registers and of the plane, part by part (`spec/10_state.md` sections 3 and 5,
`spec/60_exceptions.md` section 1). -/

namespace Sys2Proof.Machine

open Sys2Proof

/-! ## The parts of the invariant -/

/-- What the invariant says of `RESULT` (R27, R188, R189). -/
structure ResultReg.Ok (r : ResultReg) : Prop where
  shape : isShapeCode r.shape = true
  pat : r.valid = true → r.pat = patOf (shapeOf r.shape) r.subpat
  clear : r.valid = false → r.subpat = 0 ∧ r.shape = 0 ∧ r.pat = 0

/-- What it says of the fault record (R29, R220). -/
structure FaultRecord.Ok (f : FaultRecord) : Prop where
  none : f.err = false → f.errcode = 0 ∧ f.errsub = 0
  code : f.err = true → 1 ≤ f.errcode.toNat ∧ f.errcode.toNat ≤ 4
  sub : f.errcode ≠ 4 → f.errsub = 0

/-- What it says of `TTACC` (R26, R190). -/
def NibblesOk (ttacc : Word) : Prop :=
  ∀ n, n < 8 → ttaccNibble ttacc n = 0 ∨ ttaccNibble ttacc n = 3 ∨ ttaccNibble ttacc n = 6 ∨ ttaccNibble ttacc n = 7

/-- What it says of the working registers in every phase (R35). -/
structure Work.Ok (w : Work) : Prop where
  quant : w.quant.toNat ≤ 128 ∧ w.scale.toNat ≤ 257
  wshape : isShapeCode w.wshape = true
  wsubpat : w.wsubpat.toNat < 2 ^ pbits (shapeOf w.wshape)

/-- What it says of a `DECBLK` in progress beside the bounds of the loop (R27, R76, R112, R114). -/
structure State.RunOk (s : State) : Prop where
  unfaulted : s.phase = .check ∨ s.phase.inBlock = true → s.status.err = false
  checked : s.phase.inBlock = true → s.cfgv = 0b1111 ∧ s.qctx.mquant ≠ 0 ∧ s.blkDefined = true ∧
    s.work.quant = quantOf s.qctx.mquant ∧ s.work.scale = scaleOf s.qctx.mquant s.qctx.halfqp
  cleared : s.phase.inBlock = true → s.result.valid = false

/-- The parts that do not depend on the phase. -/
structure State.RegsOk (s : State) : Prop where
  mem : Memory.wf s.mem = true
  result : s.result.Ok
  status : s.status.Ok
  placed : ∀ k, (s.placedAt k).toNat ≤ 64
  ttacc : NibblesOk s.ttacc
  work : s.work.Ok

theorem State.inv_iff (s : State) : s.Inv ↔ s.RegsOk ∧ s.RunOk ∧ s.LoopInv := by
  constructor
  · intro h
    exact ⟨⟨h.memWf, ⟨h.resultShape, h.resultPat, h.resultClear⟩, ⟨h.noFault, h.faultCode, h.faultSub⟩,
      h.placedRange, h.ttaccNibbles, ⟨h.quantRange, h.wshapeCode, h.wsubpatRange⟩⟩,
      ⟨h.runsUnfaulted, h.checked, h.resultCleared⟩, h.loopInv⟩
  · rintro ⟨regs, run, loop⟩
    exact {
      memWf := regs.mem
      resultShape := regs.result.shape
      resultPat := regs.result.pat
      resultClear := regs.result.clear
      noFault := regs.status.none
      faultCode := regs.status.code
      faultSub := regs.status.sub
      placedRange := regs.placed
      ttaccNibbles := regs.ttacc
      quantRange := regs.work.quant
      wshapeCode := regs.work.wshape
      wsubpatRange := regs.work.wsubpat
      runsUnfaulted := run.unfaulted
      checked := run.checked
      resultCleared := run.cleared
      loopSub := loop.loopSub
      cursor := loop.cursor
      countCap := loop.countCap
      pixel := loop.pixel }

/-- Outside `CHECK` and the block nothing is said of a run. -/
theorem State.RunOk.of_outside {s : State} (hcheck : s.phase ≠ .check) (h : s.phase.inBlock = false) : s.RunOk where
  unfaulted hp := by simp [hcheck, h] at hp
  checked hp := by simp [h] at hp
  cleared hp := by simp [h] at hp

/-- In `IDLE` the invariant is that of the registers. -/
theorem State.Inv.of_idle {s : State} (hp : s.phase = .idle) (h : s.RegsOk) : s.Inv :=
  s.inv_iff.2 ⟨h, .of_outside (by rw [hp]; nofun) (by rw [hp]; rfl), .of_outside (by rw [hp]; rfl)⟩

/-! ## Faults and responses -/

/-- A fault is recorded with one of the four codes and a sub-code of 0 unless it is `E_STREAM` (R220). -/
theorem FaultRecord.ok_of_fault {code : StatusCode} {sub : BitVec 2} (hok : code ≠ .ok) (href : code ≠ .refused)
    (hsub : code ≠ .eStream → sub = 0) : FaultRecord.Ok { err := true, errcode := code.bits, errsub := sub } where
  none := nofun
  code _ := by
    change 1 ≤ code.bits.toNat ∧ code.bits.toNat ≤ 4
    cases code with
    | ok => exact absurd rfl hok
    | refused => exact absurd rfl href
    | eIllcmd | eUncfg | eQzero | eStream => decide
  sub h := hsub fun e => h (by rw [e]; rfl)

theorem State.raiseFault_regsOk {s : State} (h : s.RegsOk) {code : StatusCode} {sub : BitVec 2} (hok : code ≠ .ok)
    (href : code ≠ .refused) (hsub : code ≠ .eStream → sub = 0) : (s.raiseFault code sub).RegsOk := by
  have status : (s.recordFault code sub).status.Ok := by
    rw [State.recordFault_status]
    split
    · exact h.status
    · exact FaultRecord.ok_of_fault hok href hsub
  rw [State.raiseFault_eq s code sub hok]
  exact ⟨h.mem, h.result, status, h.placed, h.ttacc, h.work⟩

theorem State.raiseFault_inv {s : State} (h : s.RegsOk) {code : StatusCode} {sub : BitVec 2} (hok : code ≠ .ok)
    (href : code ≠ .refused) (hsub : code ≠ .eStream → sub = 0) : (s.raiseFault code sub).Inv :=
  .of_idle rfl (State.raiseFault_regsOk h hok href hsub)

theorem State.respond_inv {s : State} (h : s.RegsOk) (st : StatusCode) (d : Word) : (s.respond st d).Inv :=
  .of_idle rfl ⟨h.mem, h.result, h.status, h.placed, h.ttacc, h.work⟩

/-! ## The counts and the working registers -/

theorem State.placedAt_setPlaced_same {s : State} {k : Nat} (hk : k < 4) (n : BitVec 7) :
    (s.setPlaced k n).placedAt k = n := by
  simp [State.placedAt, State.setPlaced, hk]

theorem State.placedAt_setPlaced_other (s : State) {k j : Nat} (h : k ≠ j) (n : BitVec 7) :
    (s.setPlaced k n).placedAt j = s.placedAt j := by
  simp [State.placedAt, State.setPlaced, Vector.getElem?_setIfInBounds_ne h]

/-- A sub-block number past the four has no count. -/
theorem State.placedAt_of_le (s : State) {k : Nat} (h : 4 ≤ k) : s.placedAt k = 0 := by
  rw [State.placedAt, Vector.getElem?_eq_none h, Option.getD_none]

theorem State.setPlaced_range {s : State} (h : ∀ k, (s.placedAt k).toNat ≤ 64) (k : Nat) {n : BitVec 7}
    (hn : n.toNat ≤ 64) (j : Nat) : ((s.setPlaced k n).placedAt j).toNat ≤ 64 := by
  by_cases hkj : k = j
  · subst hkj
    rcases Nat.lt_or_ge k 4 with hk | hk
    · rwa [State.placedAt_setPlaced_same hk]
    · rw [State.placedAt_of_le _ hk]
      exact Nat.zero_le _
  · rw [State.placedAt_setPlaced_other s hkj]
    exact h j

/-- What a placement loop does to the counts: it leaves them, or writes the count of its sub-block (R110). -/
theorem State.takeTriple_placed (c : Cfg) {s : State} (hphase : s.phase = .pull) (h : s.LoopInv) (a : CoefAnswer) :
    (s.takeTriple c a).placed = s.placed ∨
      ∃ n : BitVec 7, n.toNat ≤ s.shape.cap ∧
        (s.takeTriple c a).placed = s.placed.setIfInBounds s.work.k.toNat n := by
  have sub := h.loopSub (by rw [hphase]; rfl)
  obtain ⟨hcur, hcnt⟩ := h.cursor hphase
  cases herr : a.err with
  | true =>
    refine .inr ⟨s.work.cnt, by omega, ?_⟩
    rw [State.takeTriple_raises c s herr]
    exact State.recordFault_placed _ _ _
  | false =>
    rcases Nat.lt_or_ge (s.work.cur.toNat + a.skip.toNat) s.shape.cap with hcap | hcap
    · cases hlast : a.last with
      | true =>
        refine .inr ⟨s.work.cnt + 1, ?_, (State.takeTriple_ends c hcur sub.1 herr hlast hcap).1⟩
        rw [toNat_cnt_add_one (sh := s.shape) (by omega)]
        omega
      | false => exact .inl (State.takeTriple_goes_on c hcur hphase herr hlast hcap).2.1
    · exact .inr ⟨s.work.cnt, by omega, (State.takeTriple_discards c hcur sub.1 herr hcap).2.1⟩

theorem isShapeCode_shapeCode (sh : Shape) : isShapeCode (shapeCode sh) = true := by cases sh <;> rfl

/-- A sub-pattern from the two bits of a pair fits them. -/
theorem setWidth_lt_four (v : BitVec 2) : (v.setWidth 4).toNat < 2 ^ 2 := by
  rw [BitVec.toNat_setWidth]
  omega

/-- A sub-pattern that an oriented code stands for fits its shape (R133). -/
theorem orientedSubpat_lt (o : OrientSubpat) (r : RawShape) :
    (orientedSubpat o r).toNat < 2 ^ pbits (canonical r) := by
  cases r with
  | pair8x4Top | pair8x4Bottom | pair4x8Left | pair4x8Right => exact setWidth_lt_four _
  | full8x8 | pair8x4 | pair4x8 | quad4x4 => exact Nat.two_pow_pos _

theorem pairSubpat_lt (sym : BitVec 4) : (pairSubpat sym).toNat < 2 ^ 2 := by
  revert sym
  decide

/-- A sub-pattern that has been read fits the shape that called for the read (R130, R132). -/
theorem subpatOfSym_lt {r : RawShape} {noshape first patf resred : Bool} {cls : SymClass}
    (h : patternRead r noshape first patf resred = some cls) (sym : BitVec 4) :
    (subpatOfSym cls sym).toNat < 2 ^ pbits (canonical r) := by
  rcases rawShape_cases r with rfl | rfl | hpair
  · simp [patternRead] at h
  · exact BitVec.isLt _
  · have two : pbits (canonical r) = 2 := by rcases hpair with e | e <;> rw [e] <;> rfl
    rw [patternRead_of_pair hpair, Option.ite_none_right_eq_some] at h
    obtain ⟨-, hcls⟩ := h
    cases hcls
    rw [two]
    exact pairSubpat_lt sym

/-! ## What a step changes -/

theorem State.endPull_shape (s : State) :
    s.endPull.work.wshape = s.work.wshape ∧ s.endPull.work.wsubpat = s.work.wsubpat := by
  unfold State.endPull
  split
  · exact ⟨State.enterFrom_wshape _ _ _, State.enterFrom_wsubpat _ _ _⟩
  · exact ⟨rfl, rfl⟩

theorem State.takeTriple_shape (c : Cfg) (s : State) (a : CoefAnswer) :
    (s.takeTriple c a).work.wshape = s.work.wshape ∧ (s.takeTriple c a).work.wsubpat = s.work.wsubpat := by
  cases herr : a.err with
  | true =>
    rw [State.takeTriple_raises c s herr]
    have work := State.recordFault_work (s.setPlaced s.work.k.toNat s.work.cnt) .eStream s.work.k
    exact ⟨congrArg Work.wshape work, congrArg Work.wsubpat work⟩
  | false =>
    rcases State.takeTriple_cases c (s := s) herr with e | e | e
    · exact e ▸ (s.advance a).endPull_shape
    · exact e ▸ ((s.advance a).place c a.value).endPull_shape
    · exact e ▸ ⟨rfl, rfl⟩

theorem State.pixelDone_shape (s : State) :
    s.pixelDone.work.wshape = s.work.wshape ∧ s.pixelDone.work.wsubpat = s.work.wsubpat := by
  unfold State.pixelDone
  split
  · exact ⟨rfl, rfl⟩
  · exact ⟨State.enterFrom_wshape _ _ _, State.enterFrom_wsubpat _ _ _⟩

theorem State.checkBlock_shape (s : State) :
    s.checkBlock.work.wshape = s.work.wshape ∧ s.checkBlock.work.wsubpat = s.work.wsubpat := by
  rcases s.checkBlock_cases with ⟨code, -, e⟩ | ⟨-, -, e⟩
  · have work := s.recordFault_work code 0
    exact e ▸ ⟨congrArg Work.wshape work, congrArg Work.wsubpat work⟩
  · exact e ▸ ⟨rfl, rfl⟩

theorem State.finishBlock_work (s : State) : s.finishBlock.work = s.work := by
  unfold State.finishBlock State.updateTtacc
  split <;> rfl

/-- Shape and sub-pattern are written by the last step of `SELECT`, from `RAW` and the read it calls for, and by no
other (R129 to R136). -/
theorem Ticked.shape {c : Cfg} {s t : State} (h : Ticked c s t) :
    (t.work.wshape = s.work.wshape ∧ t.work.wsubpat = s.work.wsubpat) ∨
      (s.phase = .select ∧ s.cont.rawDone = true ∧ t.work.wshape = shapeCode (canonical (rawShapeOf s.work.raw)) ∧
        ((patternRead (rawShapeOf s.work.raw) s.cont.ops.noshape s.cont.ops.first s.ctx.patf s.ctx.resred = none ∧
            t.work.wsubpat = orientedSubpat c.orient (rawShapeOf s.work.raw)) ∨
          ∃ cls, patternRead (rawShapeOf s.work.raw) s.cont.ops.noshape s.cont.ops.first s.ctx.patf s.ctx.resred =
              some cls ∧ t.work.wsubpat = subpatOfSym cls (headSym s.stream))) := by
  cases h with
  | check => exact .inl s.checkBlock_shape
  | rawGiven | rawRead | transform | pixelRead => exact .inl ⟨rfl, rfl⟩
  | patGiven hp hr hread =>
    exact .inr ⟨hp, hr, State.selected_wshape _ _, .inl ⟨hread, State.selected_wsubpat _ _⟩⟩
  | patRead hp hr cls hread code rest hs =>
    have sym : headSym s.stream = code.sym := by rw [hs]; rfl
    exact .inr ⟨hp, hr, State.selected_wshape _ _, .inr ⟨cls, hread, by rw [sym]; exact State.selected_wsubpat _ _⟩⟩
  | pull _ code rest => exact .inl ((s.gotCode (.coefNext s.ctx.codingset) rest).takeTriple_shape c code.coef)
  | pixelWrite => exact .inl (State.pixelDone_shape _)
  | finish => exact .inl ⟨congrArg Work.wshape s.finishBlock_work, congrArg Work.wsubpat s.finishBlock_work⟩

/-- The plane is written by the write of the pixel in progress, and by no other step (R182). -/
theorem Ticked.mem {c : Cfg} {s t : State} (h : Ticked c s t) :
    t.mem = s.mem ∨
      (s.phase = .recon ∧ ∃ b, t.mem = Memory.write s.mem (s.pixelAddr s.cont.pix).toNat b) := by
  cases h with
  | check => exact .inl s.checkBlock_ports.mem
  | rawGiven | rawRead | transform | pixelRead => exact .inl rfl
  | patGiven => exact .inl (s.selected_ports _).mem
  | patRead => exact .inl (State.selected_ports _ _).mem
  | pull => exact .inl (State.takeTriple_ports c _ _).mem
  | pixelWrite hp => exact .inr ⟨hp, _, (State.pixelDone_ports _).mem⟩
  | finish => exact .inl s.finishBlock_ports.mem

theorem State.finishBlock_placed (s : State) : s.finishBlock.placed = s.placed := by
  unfold State.finishBlock State.updateTtacc
  split <;> rfl

theorem State.pixelDone_placed (s : State) : s.pixelDone.placed = s.placed := by
  unfold State.pixelDone
  split
  · rfl
  · exact State.enterFrom_placed _ _ _

/-- The counts are cleared by `CHECK`, and written by the end of a placement loop (R110, R113). -/
theorem Ticked.placed {c : Cfg} {s t : State} (h : Ticked c s t) (hs : s.LoopInv) :
    t.placed = s.placed ∨ t.placed = Vector.replicate 4 0 ∨
      (s.phase = .pull ∧ ∃ n : BitVec 7, n.toNat ≤ s.shape.cap ∧
        t.placed = s.placed.setIfInBounds s.work.k.toNat n) := by
  cases h with
  | check =>
    rcases s.checkBlock_cases with ⟨code, -, e⟩ | ⟨-, -, e⟩
    · exact .inl (e ▸ s.recordFault_placed code 0)
    · exact .inr (.inl (e ▸ rfl))
  | rawGiven | rawRead | transform | pixelRead => exact .inl rfl
  | patGiven | patRead => exact .inl (State.enterFrom_placed _ _ _)
  | pull hp code rest =>
    have counted := State.takeTriple_placed c (s := s.gotCode (.coefNext s.ctx.codingset) rest) hp
      ⟨hs.loopSub, hs.cursor, hs.countCap, hs.pixel⟩ code.coef
    rcases counted with same | ⟨n, hn, e⟩
    · exact .inl same
    · exact .inr (.inr ⟨hp, n, hn, e⟩)
  | pixelWrite => exact .inl (State.pixelDone_placed _)
  | finish => exact .inl s.finishBlock_placed

/-! ## The accumulator -/

/-- The nibble of a shape code shifted to its position (R190). -/
theorem ttaccNibble_shifted (w : BitVec 3) (j n : Nat) (hn : n < 8) :
    ttaccNibble (w.setWidth 32 <<< (4 * n)) j = if j = n then w.setWidth 4 else 0 := by
  apply BitVec.eq_of_getLsbD_eq
  intro i hi
  simp only [ttaccNibble, BitVec.getLsbD_extractLsb', BitVec.getLsbD_shiftLeft, BitVec.getLsbD_setWidth]
  by_cases hj : j = n
  · subst hj
    simp only [if_true, BitVec.getLsbD_setWidth, Nat.add_sub_cancel_left]
    grind
  · rw [if_neg hj, BitVec.ofNat_eq_ofNat, BitVec.getLsbD_zero]
    rcases Nat.lt_or_gt_of_ne hj with hlt | hgt
    · grind
    · rw [BitVec.getLsbD_of_ge w _ (by omega)]
      simp

/-- The codes of the shapes and 0 are closed under OR (R26). -/
theorem nibble_or {a : BitVec 4} {w : BitVec 3} (ha : a = 0 ∨ a = 3 ∨ a = 6 ∨ a = 7)
    (hw : isShapeCode w = true) :
    a ||| w.setWidth 4 = 0 ∨ a ||| w.setWidth 4 = 3 ∨ a ||| w.setWidth 4 = 6 ∨ a ||| w.setWidth 4 = 7 := by
  revert a w
  decide

theorem NibblesOk.or_shapeCode {ttacc : Word} (h : NibblesOk ttacc) {w : BitVec 3} (hw : isShapeCode w = true)
    (n : BitVec 3) : NibblesOk (ttacc ||| (w.setWidth 32 <<< (4 * n.toNat))) := by
  intro j hj
  have split : ttaccNibble (ttacc ||| (w.setWidth 32 <<< (4 * n.toNat))) j =
      ttaccNibble ttacc j ||| ttaccNibble (w.setWidth 32 <<< (4 * n.toNat)) j := BitVec.extractLsb'_or
  rw [split, ttaccNibble_shifted w j n.toNat n.isLt]
  split
  · exact nibble_or (h j hj) hw
  · rw [BitVec.ofNat_eq_ofNat, BitVec.or_zero]
    exact h j hj

/-! ## Every step of a `DECBLK` -/

theorem State.checkBlock_regsOk {s : State} (h : s.RegsOk) : s.checkBlock.RegsOk := by
  rcases s.checkBlock_cases with ⟨code, hcode, e⟩ | ⟨-, hq, e⟩
  · rw [e]
    rcases hcode with rfl | rfl
    · exact State.raiseFault_regsOk h nofun nofun fun _ => rfl
    · exact State.raiseFault_regsOk h nofun nofun fun _ => rfl
  · obtain ⟨-, -, -, quant, -, scale⟩ := quantizerDerivation.1 s.qctx.mquant s.qctx.halfqp hq
    rw [e]
    exact {
      mem := h.mem
      result := ⟨rfl, nofun, fun _ => ⟨rfl, rfl, rfl⟩⟩
      status := h.status
      placed := fun k => by rw [State.placedAt_eq_zero_of_placed rfl]; exact Nat.zero_le _
      ttacc := h.ttacc
      work := ⟨⟨quant, scale⟩, h.work.wshape, h.work.wsubpat⟩ }

theorem State.updateTtacc_nibbles {s : State} (h : s.RegsOk) : NibblesOk s.updateTtacc.ttacc := by
  unfold State.updateTtacc
  split
  · exact h.ttacc.or_shapeCode h.work.wshape _
  · exact h.ttacc

theorem State.finishBlock_eq (s : State) :
    s.finishBlock =
      { s with
        ttacc := s.updateTtacc.ttacc
        result := s.finalResult
        responses := s.responses ++ [0#4 ++ resultWord s.finalResult]
        cmdcnt := s.cmdcnt + 1
        phase := .idle } := by
  unfold State.finishBlock State.updateTtacc
  split <;> rfl

theorem State.finishBlock_regsOk {s : State} (h : s.RegsOk) : s.finishBlock.RegsOk := by
  rw [State.finishBlock_eq]
  exact {
    mem := h.mem
    result := ⟨h.work.wshape, fun _ => rfl, nofun⟩
    status := h.status
    placed := h.placed
    ttacc := State.updateTtacc_nibbles h
    work := h.work }

/-- A step keeps the shape and the sub-pattern in range. -/
theorem Ticked.workShape {c : Cfg} {s t : State} (h : Ticked c s t) (hs : s.work.Ok) :
    isShapeCode t.work.wshape = true ∧ t.work.wsubpat.toNat < 2 ^ pbits (shapeOf t.work.wshape) := by
  rcases h.shape with ⟨wshape, wsubpat⟩ | ⟨-, -, wshape, ⟨-, wsubpat⟩ | ⟨cls, hread, wsubpat⟩⟩
  · rw [wshape, wsubpat]
    exact ⟨hs.wshape, hs.wsubpat⟩
  · rw [wshape, wsubpat, shapeOf_shapeCode]
    exact ⟨isShapeCode_shapeCode _, orientedSubpat_lt _ _⟩
  · rw [wshape, wsubpat, shapeOf_shapeCode]
    exact ⟨isShapeCode_shapeCode _, subpatOfSym_lt hread _⟩

theorem Ticked.memWf {c : Cfg} {s t : State} (h : Ticked c s t) (hs : Memory.wf s.mem = true) :
    Memory.wf t.mem = true := by
  rcases h.mem with e | ⟨-, b, e⟩
  · rwa [e]
  · rw [e]
    exact Memory.wf_write _ _ _ hs

theorem Ticked.placedRange {c : Cfg} {s t : State} (h : Ticked c s t) (hloop : s.LoopInv)
    (hs : ∀ k, (s.placedAt k).toNat ≤ 64) (k : Nat) : (t.placedAt k).toNat ≤ 64 := by
  rcases h.placed hloop with e | e | ⟨-, n, hn, e⟩
  · rw [State.placedAt, e]
    exact hs k
  · rw [State.placedAt_eq_zero_of_placed e]
    exact Nat.zero_le _
  · rw [State.placedAt, e]
    exact State.setPlaced_range hs s.work.k.toNat (hn.trans (Shape.cap_le _)) k

/-- Every step of a `DECBLK` keeps the invariant. -/
theorem Ticked.inv {c : Cfg} {s t : State} (h : Ticked c s t) (hs : s.Inv) : t.Inv := by
  obtain ⟨regs, run, loop⟩ := s.inv_iff.1 hs
  have setting := h.setting
  rcases h.outcome with ⟨hp, rfl⟩ | ⟨-, rfl⟩ | ⟨hp, code, rest, -, -, -, rfl⟩ | ⟨hblock, stays, same⟩
  · refine State.inv_iff _ |>.2 ⟨State.checkBlock_regsOk regs, ?_, h.loopInv loop⟩
    rcases s.checkBlock_cases with ⟨code, -, e⟩ | ⟨hcfg, hq, e⟩
    · exact e ▸ .of_outside nofun rfl
    · rw [e]
      exact ⟨fun _ => run.unfaulted (.inl hp), fun _ => ⟨hcfg, hq, rfl, rfl, rfl⟩, fun _ => rfl⟩
  · exact .of_idle rfl (State.finishBlock_regsOk regs)
  · have count : s.work.cnt.toNat ≤ 64 := by
      obtain ⟨hcur, hcnt⟩ := loop.cursor hp
      have cap := Shape.cap_le s.shape
      omega
    have counted : ((s.gotCode (.coefNext s.ctx.codingset) rest).setPlaced s.work.k.toNat s.work.cnt).RegsOk :=
      ⟨regs.mem, regs.result, regs.status, State.setPlaced_range regs.placed _ count, regs.ttacc, regs.work⟩
    exact State.raiseFault_inv counted nofun nofun fun hno => absurd rfl hno
  · obtain ⟨hcfg, hq, hdef, hquant, hscale⟩ := run.checked hblock
    obtain ⟨wshape, wsubpat⟩ := h.workShape regs.work
    refine State.inv_iff _ |>.2 ⟨?_, ?_, h.loopInv loop⟩
    · exact {
        mem := h.memWf regs.mem
        result := same.result ▸ regs.result
        status := same.status ▸ regs.status
        placed := h.placedRange loop regs.placed
        ttacc := same.ttacc ▸ regs.ttacc
        work := ⟨by rw [same.quant, same.scale]; exact regs.work.quant, wshape, wsubpat⟩ }
    · exact {
        unfaulted := fun _ => by rw [same.status]; exact run.unfaulted (.inr hblock)
        checked := fun _ => by
          rw [setting.cfgv, setting.qctx, same.blkDefined, same.quant, same.scale]
          exact ⟨hcfg, hq, hdef, hquant, hscale⟩
        cleared := fun _ => by rw [same.result]; exact run.cleared hblock }

end Sys2Proof.Machine
end

section
/-! PROOFS. The invariant of the registers and of the plane over the steps of the machine. -/

namespace Sys2Proof.Machine

open Sys2Proof

theorem State.reset_regsOk : State.reset.RegsOk where
  mem := State.reset_wf
  result := ⟨rfl, nofun, fun _ => ⟨rfl, rfl, rfl⟩⟩
  status := ⟨fun _ => ⟨rfl, rfl⟩, nofun, fun _ => rfl⟩
  placed k := by rw [State.reset_placedAt]; exact Nat.zero_le _
  ttacc := by unfold NibblesOk; decide
  work := ⟨by decide, rfl, by decide⟩

theorem State.applyReset_inv {s : State} (h : Memory.wf s.mem = true) : s.applyReset.Inv :=
  have reset := State.reset_regsOk
  .of_idle rfl ⟨h, reset.result, reset.status, reset.placed, reset.ttacc, reset.work⟩

/-- What a command writes before it responds `OK` keeps the parts of the invariant that do not depend on the phase. -/
theorem State.written_regsOk {s : State} (h : s.RegsOk) (i : Instr) : (s.written i).RegsOk := by
  cases i with
  | nop | decblk | rdreg => exact h
  | setq | setctx | setbase | setstride => exact ⟨h.mem, h.result, h.status, h.placed, h.ttacc, h.work⟩
  | clracc => exact ⟨h.mem, h.result, h.status, h.placed, State.reset_regsOk.ttacc, h.work⟩
  | clrerr => exact ⟨h.mem, h.result, State.reset_regsOk.status, h.placed, h.ttacc, h.work⟩
  | rdblk =>
    rw [State.written]
    split
    · exact h
    · exact ⟨h.mem, h.result, h.status, h.placed, h.ttacc, h.work⟩

theorem State.await_inv {s : State} (h : s.Inv) (r : Request) : (s.await r).Inv := by
  obtain ⟨regs, run, loop⟩ := s.inv_iff.1 h
  exact State.inv_iff _ |>.2 ⟨⟨regs.mem, regs.result, regs.status, regs.placed, regs.ttacc, regs.work⟩,
    ⟨run.unfaulted, run.checked, run.cleared⟩, ⟨loop.loopSub, loop.cursor, loop.countCap, loop.pixel⟩⟩

/-- The invariant along a run, by the induction packaged in `run_induct`. -/
theorem run_inv {c : Cfg} {n : Nat} {s t : State} (h : run c n s = .next t) (hs : s.Inv) : t.Inv :=
  run_induct c (fun _ _ hu _ step => step.inv hu) (fun _ r hu _ => State.await_inv hu r) n s t hs h

/-- A `DECBLK` begins with no fault pending (R76). -/
theorem State.startBlock_inv {s : State} (hs : s.RegsOk) (herr : s.status.err = false) (ops : DecOps) :
    (s.startBlock ops).Inv := by
  refine State.inv_iff _ |>.2 ⟨?_, ?_, .of_outside rfl⟩
  · exact ⟨hs.mem, hs.result, hs.status, hs.placed, hs.ttacc, hs.work⟩
  · exact ⟨fun _ => herr, nofun, nofun⟩

/-- Every command keeps the invariant, whatever phase it was taken in. -/
theorem exec_inv {i : Instr} {s t : State} (h : exec i s = .next t) (hs : s.RegsOk) : t.Inv := by
  rcases exec_cases h with ⟨tt, ns, f, k, o, n, rfl, herr, hrun⟩ | ⟨-, rfl⟩ | rfl | ⟨d, rfl⟩
  · exact run_inv hrun (State.startBlock_inv hs herr _)
  · exact State.respond_inv hs _ _
  · exact State.raiseFault_inv hs nofun nofun fun _ => rfl
  · exact State.respond_inv (State.written_regsOk hs i) _ _

/-- A word that is no command keeps the invariant. -/
theorem State.illegalCommand_inv {s : State} (hs : s.RegsOk) (op : BitVec 4) : (s.illegalCommand op).Inv := by
  unfold State.illegalCommand
  split
  · exact State.raiseFault_inv hs nofun nofun fun _ => rfl
  · exact State.respond_inv hs _ _

/-- Settles O51: over the four cases of a step, the commands and the steps of a `DECBLK`. -/
theorem stepKeepsInv : Obligations.StepKeepsInv := by
  intro s t hs h
  obtain ⟨regs, -, -⟩ := s.inv_iff.1 hs
  rcases step_cases s with ⟨-, e⟩ | ⟨-, -, -, e⟩ | ⟨w, rest, -, -, -, e⟩ | ⟨-, -, e⟩
  · obtain rfl := Host.Outcome.next.inj (e.symm.trans h)
    exact State.applyReset_inv regs.mem
  · obtain rfl := Host.Outcome.next.inj (e.symm.trans h)
    exact hs
  · have accepted : (s.accept rest).RegsOk := ⟨regs.mem, regs.result, regs.status, regs.placed, regs.ttacc, regs.work⟩
    rcases execWord_cases w (s.accept rest) with ⟨i, -, ei⟩ | ⟨-, -, ei⟩
    · exact exec_inv (ei.symm.trans (e.symm.trans h)) accepted
    · obtain rfl := Host.Outcome.next.inj (ei.symm.trans (e.symm.trans h))
      exact State.illegalCommand_inv accepted _
  · exact run_inv (e.symm.trans h) hs

end Sys2Proof.Machine
end

section
/-! PROOFS. The invariant of the Block and of the counts (`spec/10_state.md` rules R28, R33, R34, `spec/41_decblk.md`
rule R116, `spec/44_scan_and_sequencer.md` rule R168). -/

namespace Sys2Proof.Machine

open Sys2Proof

/-! ## Cells -/

theorem State.cellAt_setCell_same {s : State} {c : Nat} (hc : c < 64) (v : Sample) : (s.setCell c v).cellAt c = v := by
  simp [State.cellAt, State.setCell, hc]

theorem State.cellAt_setCell_other (s : State) {c d : Nat} (h : c ≠ d) (v : Sample) :
    (s.setCell c v).cellAt d = s.cellAt d := by
  simp [State.cellAt, State.setCell, Vector.getElem?_setIfInBounds_ne h]

/-- The clear of R113 leaves every cell 0. -/
theorem State.cellAt_eq_zero_of_blk {s : State} (h : s.blk = Vector.replicate 64 0) (c : Nat) : s.cellAt c = 0 := by
  rw [State.cellAt, h, Vector.getElem?_replicate]
  split
  · rfl
  · rfl

theorem State.length_coeffsOf (s : State) (sh : Shape) (k : Nat) : (s.coeffsOf sh k).length = sh.cap := by
  simp [State.coeffsOf]

/-- A sub-block of zeros has no non-zero coefficient. -/
theorem State.countP_coeffsOf_zero {s : State} {sh : Shape} {k : Nat}
    (h : ∀ p, p < sh.cap → s.cellAt (cellIndex sh k p) = 0) :
    (s.coeffsOf sh k).countP (fun v => v != 0) = 0 := by
  rw [List.countP_eq_zero, State.coeffsOf]
  intro v hv
  obtain ⟨p, hp, rfl⟩ := List.mem_map.1 hv
  simp [h p (List.mem_range.1 hp)]

/-- Writing a cell of a sub-block writes one of its coefficients. -/
theorem State.coeffsOf_setCell (s : State) {sh : Shape} {k p : Nat} (hk : k < sh.nsub) (hp : p < sh.cap) (v : Sample) :
    (s.setCell (cellIndex sh k p) v).coeffsOf sh k = (s.coeffsOf sh k).set p v := by
  apply List.ext_getElem
  · simp [State.length_coeffsOf]
  · intro i hi hi'
    have hlt : i < sh.cap := by rwa [State.length_coeffsOf] at hi
    rw [List.getElem_set]
    simp only [State.coeffsOf, List.getElem_map, List.getElem_range]
    split
    case isTrue e =>
      subst e
      exact State.cellAt_setCell_same (cellIndex_lt hk hp) v
    case isFalse hne =>
      exact State.cellAt_setCell_other s (fun e => hne (cellIndex_inj hk hk hp hlt e).2) v

/-- Writing one element makes at most one more non-zero. -/
theorem countP_set_le (l : List Sample) (p : Nat) (v : Sample) :
    (l.set p v).countP (fun v => v != 0) ≤ l.countP (fun v => v != 0) + 1 := by
  rcases Nat.lt_or_ge p l.length with hp | hp
  · rw [List.countP_set hp]
    exact Nat.add_le_add (Nat.sub_le _ _) (by split <;> omega)
  · rw [List.set_eq_of_length_le hp]
    omega

/-! ## The invariant inside the loop -/

/-- From sub-block `first` on, and in every empty sub-block, cells and counts are 0. -/
def State.BlankFrom (s : State) (first : Nat) : Prop :=
  ∀ j, (first ≤ j ∨ isEmptySub s.shape s.work.wsubpat j = true) →
    s.placedAt j = 0 ∧ (j < s.shape.nsub → ∀ p, p < s.shape.cap → s.cellAt (cellIndex s.shape j p) = 0)

theorem State.BlankFrom.mono {s : State} {i j : Nat} (h : s.BlankFrom i) (hij : i ≤ j) : s.BlankFrom j :=
  fun k hk => h k (hk.imp_left hij.trans)

/-- Only the Block, the counts, the shape and the sub-pattern matter. -/
theorem State.BlankFrom.congr {s t : State} {first : Nat} (h : s.BlankFrom first) (hblk : t.blk = s.blk)
    (hplaced : t.placed = s.placed) (hwshape : t.work.wshape = s.work.wshape)
    (hwsubpat : t.work.wsubpat = s.work.wsubpat) : t.BlankFrom first := by
  have shape : t.shape = s.shape := congrArg shapeOf hwshape
  intro j hj
  rw [shape, hwsubpat] at hj
  simp only [State.placedAt, State.cellAt, shape, hblk, hplaced]
  exact h j hj

theorem State.BlankFrom.of_cleared {s : State} (hcells : ∀ c, s.cellAt c = 0) (hplaced : ∀ k, s.placedAt k = 0)
    (first : Nat) : s.BlankFrom first := fun j _ => ⟨hplaced j, fun _ _ _ => hcells _⟩

/-- The invariant inside the loop, from its parts. -/
theorem State.BlockInv.of_inLoop {s : State} (hp : s.phase.inLoop = true) (hblank : s.BlankFrom (s.work.k.toNat + 1))
    (hpull : s.phase = .pull → s.placedAt s.work.k.toNat = 0)
    (hfilled : s.coeffs.countP (fun v => v != 0) ≤ s.work.cnt.toNat) : s.BlockInv where
  cleared h := by simp [h, Phase.inLoop] at hp
  loopCells _ j hj h := (hblank j h).2 hj
  loopPlaced _ j h := (hblank j h).1
  pullPlaced := hpull
  filled _ := hfilled
  loopDone h := by simp [h, Phase.inLoop] at hp
  resultDone h := by
    cases e : s.phase with
    | pull | recon => simp [e, Phase.inBlock] at h
    | idle | exec | check | select | finish => simp [e, Phase.inLoop] at hp

/-- Inside the loop everything is blank after the sub-block in progress. -/
theorem State.BlockInv.blank {s : State} (h : s.BlockInv) (hp : s.phase.inLoop = true) :
    s.BlankFrom (s.work.k.toNat + 1) :=
  fun j hj => ⟨h.loopPlaced hp j hj, fun hlt => h.loopCells hp j hlt hj⟩

/-- Where the loop is entered with everything ahead blank, the invariant holds. -/
theorem State.BlockInv.of_enters {s : State} {first : Nat} (h : EntersLoop s.shape s.work.wsubpat first s)
    (hblank : s.BlankFrom first) (hfirst : first ≤ s.shape.nsub) : s.BlockInv := by
  rcases h with ⟨hp, hempty⟩ | ⟨hp, -, -, -, hle, hk, -, -⟩
  · exact {
      cleared := fun h => by simp [hp] at h
      loopCells := fun h => by simp [hp, Phase.inLoop] at h
      loopPlaced := fun h => by simp [hp, Phase.inLoop] at h
      pullPlaced := fun h => by simp [hp] at h
      filled := fun h => by simp [hp, Phase.inLoop] at h
      loopDone := fun _ j hj => hblank j (by
        rcases Nat.lt_or_ge j s.shape.nsub with hlt | hge
        · exact .inr (hj hlt)
        · exact .inl (hfirst.trans hge))
      resultDone := fun h => by simp [hp, Phase.inBlock] at h }
  · obtain ⟨placed, cells⟩ := hblank s.work.k.toNat (.inl hle)
    refine .of_inLoop (by rw [hp]; rfl) (hblank.mono (by omega)) (fun _ => placed) ?_
    have none_filled : s.coeffs.countP (fun v => v != 0) = 0 := State.countP_coeffsOf_zero (cells hk)
    omega

/-- Outside `SELECT`, the loop and `FINISH` the invariant speaks of a valid `RESULT` alone. -/
theorem State.BlockInv.of_no_result {s : State} (hp : s.phase = .idle) (h : s.result.valid = false) : s.BlockInv where
  cleared hq := by simp [hp] at hq
  loopCells hq := by simp [hp, Phase.inLoop] at hq
  loopPlaced hq := by simp [hp, Phase.inLoop] at hq
  pullPlaced hq := by simp [hp] at hq
  filled hq := by simp [hp, Phase.inLoop] at hq
  loopDone hq := by simp [hp] at hq
  resultDone _ hv := by simp [h] at hv

/-- A state in `SELECT` with a clear Block. -/
theorem State.BlockInv.of_select {s : State} (hp : s.phase = .select) (hcells : ∀ c, s.cellAt c = 0)
    (hplaced : ∀ k, s.placedAt k = 0) : s.BlockInv where
  cleared _ := ⟨hcells, hplaced⟩
  loopCells hq := by simp [hp, Phase.inLoop] at hq
  loopPlaced hq := by simp [hp, Phase.inLoop] at hq
  pullPlaced hq := by simp [hp] at hq
  filled hq := by simp [hp, Phase.inLoop] at hq
  loopDone hq := by simp [hp] at hq
  resultDone hq := by simp [hp, Phase.inBlock] at hq

/-! ## The steps of a `DECBLK` past its checks -/

theorem State.nextSub_blockInv {s : State} (hblank : s.BlankFrom (s.work.k.toNat + 1))
    (hk : s.work.k.toNat < s.shape.nsub) : s.nextSub.BlockInv := by
  refine .of_enters (first := s.work.k.toNat + 1) ?_ ?_ ?_
  · rw [State.nextSub_shape, State.nextSub_wsubpat]
    exact s.nextSub_entersLoop
  · exact hblank.congr (State.enterFrom_blk _ _ _) (State.enterFrom_placed _ _ _) (State.enterFrom_wshape _ _ _)
      (State.enterFrom_wsubpat _ _ _)
  · rw [State.nextSub_shape]
    exact hk

theorem State.selected_blockInv {s : State} (hcells : ∀ c, s.cellAt c = 0) (hplaced : ∀ k, s.placedAt k = 0)
    (w : BitVec 4) : (s.selected w).BlockInv := by
  refine .of_enters (first := 0) ?_ (.of_cleared (fun c => ?_) (fun k => ?_) 0) (Nat.zero_le _)
  · rw [State.selected_shape, State.selected_wsubpat]
    exact s.selected_enters w
  · rw [State.cellAt, (s.selected_frame w).1]
    exact hcells c
  · rw [State.placedAt, (s.selected_frame w).2.1]
    exact hplaced k

/-- Writing the count of the sub-block in progress leaves what is ahead blank. -/
theorem State.BlankFrom.setPlaced {s : State} {k : Nat} (h : s.BlankFrom (k + 1))
    (hk : isEmptySub s.shape s.work.wsubpat k = false) (n : BitVec 7) : (s.setPlaced k n).BlankFrom (k + 1) := by
  intro j hj
  have other : k ≠ j := by
    rintro rfl
    rcases hj with hj | hj
    · omega
    · exact absurd hj (by rw [Bool.not_eq_true]; exact hk)
  rw [State.placedAt_setPlaced_other s other]
  exact h j hj

/-- Writing a cell of the sub-block in progress leaves what is ahead blank. -/
theorem State.BlankFrom.setCell {s : State} {k p : Nat} (h : s.BlankFrom (k + 1))
    (hsub : k < s.shape.nsub ∧ isEmptySub s.shape s.work.wsubpat k = false) (hp : p < s.shape.cap) (v : Sample) :
    (s.setCell (cellIndex s.shape k p) v).BlankFrom (k + 1) := by
  intro j hj
  have other : k ≠ j := by
    rintro rfl
    rcases hj with hj | hj
    · omega
    · exact absurd hj (by rw [Bool.not_eq_true]; exact hsub.2)
  obtain ⟨placed, cells⟩ := h j hj
  refine ⟨placed, fun hlt q hq => ?_⟩
  have distinct : cellIndex s.shape k p ≠ cellIndex s.shape j q := fun e => other (cellIndex_inj hsub.1 hlt hp hq e).1
  exact (State.cellAt_setCell_other s distinct v).trans (cells hlt q hq)

/-- The end of a placement loop, with at most `CNT` cells filled (R110, R116). -/
theorem State.endPull_blockInv {s : State} (hblank : s.BlankFrom (s.work.k.toNat + 1))
    (hsub : s.work.k.toNat < s.shape.nsub ∧ isEmptySub s.shape s.work.wsubpat s.work.k.toNat = false)
    (hfilled : s.coeffs.countP (fun v => v != 0) ≤ s.work.cnt.toNat) : s.endPull.BlockInv := by
  have counted := hblank.setPlaced hsub.2 s.work.cnt
  unfold State.endPull
  split
  · exact State.nextSub_blockInv (s := s.setPlaced s.work.k.toNat s.work.cnt) counted hsub.1
  · exact .of_inLoop (s := (s.setPlaced s.work.k.toNat s.work.cnt).startRecon) rfl counted nofun hfilled

/-- One answer of the coefficient decoder that is no error (R159). -/
theorem State.takeTriple_blockInv (c : Cfg) {s : State} (hphase : s.phase = .pull) (hloop : s.LoopInv)
    (h : s.BlockInv) {a : CoefAnswer} (herr : a.err = false) : (s.takeTriple c a).BlockInv := by
  have inLoop : s.phase.inLoop = true := by rw [hphase]; rfl
  have hsub := hloop.loopSub inLoop
  have hblank := h.blank inLoop
  have hfilled := h.filled inLoop
  obtain ⟨hcur, hcnt⟩ := hloop.cursor hphase
  rcases Nat.lt_or_ge (s.advance a).work.cur.toNat s.shape.cap with hcap | hcap
  · have cell := scanAt_lt c s.ctx.regime hcap
    have blank : ((s.advance a).place c a.value).BlankFrom (s.work.k.toNat + 1) :=
      State.BlankFrom.setCell (s := s.advance a) hblank hsub cell ((s.advance a).deq a.value)
    have advanced := State.toNat_advance_cur hcur a
    have count : (s.work.cnt + 1).toNat = s.work.cnt.toNat + 1 := toNat_cnt_add_one (sh := s.shape) (by omega)
    have filled : ((s.advance a).place c a.value).coeffs.countP (fun v => v != 0) ≤ (s.work.cnt + 1).toNat := by
      have coeffs : ((s.advance a).place c a.value).coeffs = s.coeffs.set
          (scanAt c s.shape s.ctx.regime (s.advance a).work.cur.toNat) ((s.advance a).deq a.value) :=
        State.coeffsOf_setCell (s.advance a) hsub.1 cell _
      rw [coeffs, count]
      exact (countP_set_le _ _ _).trans (by omega)
    rw [State.takeTriple_of_fits c herr hcap]
    split
    · exact State.endPull_blockInv (s := (s.advance a).place c a.value) blank hsub filled
    · exact .of_inLoop (s := (s.advance a).place c a.value) inLoop blank h.pullPlaced filled
  · rw [State.takeTriple_of_overrun c herr hcap]
    exact State.endPull_blockInv (s := s.advance a) hblank hsub hfilled

/-- A step past the checks keeps the invariant of the Block, as long as `RESULT` is not valid. -/
theorem Ticked.blockInv {c : Cfg} {s t : State} (h : Ticked c s t) (hblock : s.phase.inBlock = true)
    (hresult : s.result.valid = false) (hloop : s.LoopInv) (hs : s.BlockInv) : t.BlockInv := by
  cases h with
  | check hp => simp [hp, Phase.inBlock] at hblock
  | rawGiven hp =>
    obtain ⟨cells, placed⟩ := hs.cleared hp
    exact .of_select hp cells placed
  | rawRead hp =>
    obtain ⟨cells, placed⟩ := hs.cleared hp
    exact .of_select (s := (s.gotCode _ _).setRaw _) hp cells placed
  | patGiven hp =>
    obtain ⟨cells, placed⟩ := hs.cleared hp
    exact State.selected_blockInv cells placed _
  | patRead hp _ cls _ code rest =>
    obtain ⟨cells, placed⟩ := hs.cleared hp
    exact State.selected_blockInv (s := s.gotCode _ rest) cells placed _
  | pull hp code rest =>
    cases herr : code.coef.err with
    | true =>
      rw [State.takeTriple_raises c _ herr]
      exact .of_no_result rfl ((congrArg ResultReg.valid (State.recordFault_result _ _ _)).trans hresult)
    | false =>
      have inLoop : s.phase.inLoop = true := by rw [hp]; rfl
      exact State.takeTriple_blockInv c (s := s.gotCode (.coefNext s.ctx.codingset) rest) hp
        ⟨hloop.loopSub, hloop.cursor, hloop.countCap, hloop.pixel⟩
        (.of_inLoop inLoop (hs.blank inLoop) hs.pullPlaced (hs.filled inLoop)) herr
  | transform hp =>
    have inLoop : s.phase.inLoop = true := by rw [hp]; rfl
    exact .of_inLoop (s := (s.answered _).setRes _) inLoop (hs.blank inLoop) hs.pullPlaced (hs.filled inLoop)
  | pixelRead hp =>
    have inLoop : s.phase.inLoop = true := by rw [hp]; rfl
    exact .of_inLoop (s := (s.answered _).setOld _) inLoop (hs.blank inLoop) hs.pullPlaced (hs.filled inLoop)
  | pixelWrite hp =>
    have inLoop : s.phase.inLoop = true := by rw [hp]; rfl
    unfold State.pixelDone
    split
    · exact .of_inLoop (s := ((s.answered _).setByte _ _).nextPixel) inLoop (hs.blank inLoop) hs.pullPlaced
        (hs.filled inLoop)
    · exact State.nextSub_blockInv (s := ((s.answered _).setByte _ _).nextPixel) (hs.blank inLoop)
        (hloop.loopSub inLoop).1
  | finish hp =>
    rw [State.finishBlock_eq]
    exact {
      cleared := nofun
      loopCells := nofun
      loopPlaced := nofun
      pullPlaced := nofun
      filled := nofun
      loopDone := nofun
      resultDone := fun _ _ => hs.loopDone hp }

/-! ## The checks -/

/-- Without a phase of the block the invariant speaks of `RESULT`, the Block and the counts alone. -/
theorem State.BlockInv.congr_outside {s t : State} (h : s.BlockInv) (hs : s.phase.inBlock = false)
    (ht : t.phase.inBlock = false) (hresult : t.result = s.result) (hblk : t.blk = s.blk)
    (hplaced : t.placed = s.placed) : t.BlockInv := by
  have outside {p : Phase} (hp : p.inBlock = true) : t.phase ≠ p := fun e => by simp [e, hp] at ht
  have outLoop : t.phase.inLoop = false := by
    cases e : t.phase with
    | pull => exact absurd e (outside rfl)
    | recon => exact absurd e (outside rfl)
    | idle | exec | check | select | finish => rfl
  exact {
    cleared := fun e => absurd e (outside rfl)
    loopCells := fun e => by simp [outLoop] at e
    loopPlaced := fun e => by simp [outLoop] at e
    pullPlaced := fun e => absurd e (outside rfl)
    filled := fun e => by simp [outLoop] at e
    loopDone := fun e => absurd e (outside rfl)
    resultDone := fun _ => by
      simp only [hresult, State.placedAt, State.cellAt, hblk, hplaced]
      exact h.resultDone hs }

theorem State.raiseFault_blockInv {s : State} (h : s.BlockInv) (hs : s.phase.inBlock = false) (code : StatusCode)
    (sub : BitVec 2) : (s.raiseFault code sub).BlockInv :=
  h.congr_outside hs rfl (s.recordFault_result code sub) (s.recordFault_blk code sub) (s.recordFault_placed code sub)

/-- Past the checks the Block is clear, whatever it was. -/
theorem State.begun_blockInv (s : State) : s.clearBlock.deriveQuant.startSelect.BlockInv :=
  .of_select rfl (State.cellAt_eq_zero_of_blk rfl) (State.placedAt_eq_zero_of_placed rfl)

theorem State.checkBlock_blockInv {s : State} (h : s.BlockInv) (hp : s.phase = .check) : s.checkBlock.BlockInv := by
  rcases s.checkBlock_cases with ⟨code, -, e⟩ | ⟨-, -, e⟩
  · exact e ▸ State.raiseFault_blockInv h (by rw [hp]; rfl) code 0
  · exact e ▸ s.begun_blockInv

/-! ## The steps of the machine -/

/-- Both invariants along a run. -/
theorem run_blockInv {c : Cfg} {n : Nat} {s t : State} (h : run c n s = .next t) (hs : s.Inv)
    (hb : s.BlockInv) : t.BlockInv := by
  refine (run_induct (P := fun u => u.Inv ∧ u.BlockInv) c ?step ?wait n s t ⟨hs, hb⟩ h).2
  case step =>
    rintro u v ⟨inv, block⟩ - step
    refine ⟨step.inv inv, ?_⟩
    rcases step.outcome with ⟨hp, rfl⟩ | ⟨hp, -⟩ | ⟨hp, -⟩ | ⟨hblock, -, -⟩
    · exact State.checkBlock_blockInv block hp
    · exact step.blockInv (by rw [hp]; rfl) (inv.resultCleared (by rw [hp]; rfl)) inv.loopInv block
    · exact step.blockInv (by rw [hp]; rfl) (inv.resultCleared (by rw [hp]; rfl)) inv.loopInv block
    · exact step.blockInv hblock (inv.resultCleared hblock) inv.loopInv block
  case wait =>
    rintro u r ⟨inv, block⟩ -
    refine ⟨State.await_inv inv r, ?_⟩
    exact ⟨block.cleared, block.loopCells, block.loopPlaced, block.pullPlaced, block.filled, block.loopDone,
      block.resultDone⟩

/-- No command but `DECBLK` writes the Block, the counts or `RESULT`. -/
theorem State.written_block (s : State) (i : Instr) :
    (s.written i).result = s.result ∧ (s.written i).blk = s.blk ∧ (s.written i).placed = s.placed := by
  cases i with
  | rdblk =>
    rw [State.written]
    split <;> exact ⟨rfl, rfl, rfl⟩
  | _ => exact ⟨rfl, rfl, rfl⟩

theorem exec_blockInv {i : Instr} {s t : State} (h : exec i s = .next t) (hs : s.RegsOk) (hb : s.BlockInv)
    (hp : s.phase.inBlock = false) : t.BlockInv := by
  rcases exec_cases h with ⟨tt, ns, f, k, o, n, rfl, herr, hrun⟩ | ⟨-, rfl⟩ | rfl | ⟨d, rfl⟩
  · refine run_blockInv hrun (State.startBlock_inv hs herr _) ?_
    exact hb.congr_outside hp rfl rfl rfl rfl
  · exact hb.congr_outside hp rfl rfl rfl rfl
  · exact State.raiseFault_blockInv hb hp _ _
  · obtain ⟨result, blk, placed⟩ := s.written_block i
    exact hb.congr_outside hp rfl result blk placed

/-- Settles O52: over the four cases of a step, the commands and the steps of a `DECBLK`. -/
theorem stepKeepsBlockInv : Obligations.StepKeepsBlockInv := by
  intro s t hs hb h
  obtain ⟨regs, -, -⟩ := s.inv_iff.1 hs
  rcases step_cases s with ⟨-, e⟩ | ⟨-, -, -, e⟩ | ⟨w, rest, -, hp, -, e⟩ | ⟨-, -, e⟩
  · obtain rfl := Host.Outcome.next.inj (e.symm.trans h)
    exact .of_no_result rfl rfl
  · obtain rfl := Host.Outcome.next.inj (e.symm.trans h)
    exact hb
  · have accepted : (s.accept rest).RegsOk := ⟨regs.mem, regs.result, regs.status, regs.placed, regs.ttacc, regs.work⟩
    have block : (s.accept rest).BlockInv := hb.congr_outside (by rw [hp]; rfl) rfl rfl rfl rfl
    rcases execWord_cases w (s.accept rest) with ⟨i, -, ei⟩ | ⟨-, -, ei⟩
    · exact exec_blockInv (ei.symm.trans (e.symm.trans h)) accepted block rfl
    · obtain rfl := Host.Outcome.next.inj (ei.symm.trans (e.symm.trans h))
      unfold State.illegalCommand
      split
      · exact State.raiseFault_blockInv block rfl _ _
      · exact block.congr_outside rfl rfl rfl rfl rfl
  · exact run_blockInv (e.symm.trans h) hs hb

/-! ## Reachable states -/

/-- Settles O53: the registers after reset are in range, and `RESULT` is not valid. -/
theorem resetMeetsInvariants : Obligations.ResetMeetsInvariants :=
  ⟨.of_idle rfl State.reset_regsOk, .of_no_result rfl rfl⟩

/-- A move of the environment keeps both invariants: of what it touches they speak of the plane alone, which it leaves
in canonical form. -/
theorem EnvMove.invariants {s t : State} (h : EnvMove s t) (hs : s.Inv) (hb : s.BlockInv) : t.Inv ∧ t.BlockInv := by
  obtain ⟨cmds, resetPin, stream, grants, mem, platform, hmem, rfl⟩ := h
  obtain ⟨regs, run, loop⟩ := s.inv_iff.1 hs
  refine ⟨State.inv_iff _ |>.2 ⟨?_, ?_, ?_⟩, ?_⟩
  · exact ⟨hmem, regs.result, regs.status, regs.placed, regs.ttacc, regs.work⟩
  · exact ⟨run.unfaulted, run.checked, run.cleared⟩
  · exact ⟨loop.loopSub, loop.cursor, loop.countCap, loop.pixel⟩
  · exact ⟨hb.cleared, hb.loopCells, hb.loopPlaced, hb.pullPlaced, hb.filled, hb.loopDone, hb.resultDone⟩

/-- Settles O54: by induction over the way to the state. -/
theorem reachableMeetsInvariants : Obligations.ReachableMeetsInvariants := by
  intro s h
  induction h with
  | reset => exact resetMeetsInvariants
  | step _ hs ih => exact ⟨stepKeepsInv _ _ ih.1 hs, stepKeepsBlockInv _ _ ih.1 ih.2 hs⟩
  | env _ he ih => exact he.invariants ih.1 ih.2

end Sys2Proof.Machine
end

section
/-! PROOFS. The DC path and the full path give the same samples (`spec/45_reconstruct.md` rules R177, R186,
`spec/46_external_ports.md` rule R210). -/

namespace Sys2Proof.Machine

open Sys2Proof

/-- Under the count criterion the DC-only transform is asked for one coefficient placed, and with at most one non-zero
cell the contract makes it the full transform (R210 (a)). -/
theorem itxSamples_eq_full {c : Cfg} {s : State} (hsel : c.dcSelect = .countEq1)
    (hfilled : s.coeffs.countP (fun v => v != 0) ≤ s.work.cnt.toNat) :
    itxSamples c s.shape (s.itxKind c) s.coeffs = itxSamples c s.shape .full s.coeffs := by
  unfold State.itxKind
  rw [hsel]
  split
  case isFalse => rfl
  case isTrue hone =>
    have one : s.work.cnt = 1 := by simpa [dcSel] using hone
    have few : s.coeffs.countP (fun v => v != 0) ≤ 1 := by simpa [one] using hfilled
    rw [itxSamples, itxSamples, c.itx_contract s.shape s.coeffs few]

/-- Settles O40: the invariant of the Block bounds the non-zero cells by the count. -/
theorem dcPathEqualsFullPath : Obligations.DcPathEqualsFullPath := by
  intro c s hsel _ hb hphase
  exact itxSamples_eq_full hsel (hb.filled (by rw [hphase]; rfl))

/-! ## Whole runs -/

theorem itxSamples_fullPath (c : Cfg) (sh : Shape) (kind : ItxKind) (coeffs : List Sample) :
    itxSamples (fullPath c) sh kind coeffs = itxSamples c sh .full coeffs := by cases kind <;> rfl

/-- Where the samples are those of the full transform, a step is one through the full path. -/
theorem tick_fullPath {c : Cfg} {s : State}
    (h : s.phase = .recon → itxSamples c s.shape (s.itxKind c) s.coeffs = itxSamples c s.shape .full s.coeffs) :
    tick (fullPath c) s = tick c s := by
  unfold tick
  cases hp : s.phase with
  | idle | exec | check | select | pull | finish => rfl
  | recon =>
    have same : s.itxCall (fullPath c) = s.itxCall c := by
      have samples := (itxSamples_fullPath c s.shape (s.itxKind c) s.coeffs).trans (h hp).symm
      exact congrArg (s.askPure (.itxCall (shapeCode s.shape) (s.itxKind c) s.coeffs)) samples
    dsimp only
    rw [tickRecon, tickRecon, same]

/-- What a `DECBLK` past its checks keeps of the Block, whatever the state it was started in. -/
structure State.BlockOk (s : State) : Prop where
  result : s.result.valid = false
  loop : s.LoopInv
  block : s.BlockInv

theorem State.begun_blockOk (s : State) (ops : DecOps) : (s.begun ops).BlockOk :=
  ⟨rfl, s.begun_loopInv ops, (s.startBlock ops).begun_blockInv⟩

theorem Ticked.blockOk {c : Cfg} {s t : State} (h : Ticked c s t) (hs : s.phase.inBlock = true)
    (ht : t.phase.inBlock = true) (hb : s.BlockOk) : t.BlockOk := by
  have same := Ticks.records (.single h) hs ht
  exact ⟨by rw [same.result]; exact hb.result, h.loopInv hb.loop, h.blockInv hs hb.result hb.loop hb.block⟩

theorem run_fullPath {c : Cfg} (hsel : c.dcSelect = .countEq1) (n : Nat) {s : State} (hs : s.phase.inBlock = true)
    (hb : s.BlockOk) : run c n s = run (fullPath c) n s := by
  induction n generalizing s with
  | zero => rfl
  | succ n ih =>
    have busy : s.phase ≠ .idle := fun e => by simp [e, Phase.inBlock] at hs
    have same : tick (fullPath c) s = tick c s :=
      tick_fullPath fun hp => itxSamples_eq_full hsel (hb.block.filled (by rw [hp]; rfl))
    rw [run_succ c n s busy, run_succ (fullPath c) n s busy, same]
    cases ht : tick c s with
    | waits t => rfl
    | refused r => rfl
    | answer u t =>
      have step := (tick_answer_iff c s t).1 ht
      dsimp only
      rcases Ticks.inBlock_or_idle (.single step) hs with ⟨stays, -⟩ | hidle
      · exact ih stays (step.blockOk hs stays hb)
      · rw [run_idle c n t hidle, run_idle (fullPath c) n t hidle]

/-- Settles O57: past the checks every step is the same, by the invariant of the Block. -/
theorem decblkSameThroughFullPath : Obligations.DecblkSameThroughFullPath := by
  intro c ops s hsel
  rw [runBlock_eq, runBlock_eq]
  rcases (s.startBlock ops).checkBlock_cases with ⟨code, -, e⟩ | ⟨-, -, e⟩
  · rw [e, run_idle c _ _ rfl, run_idle (fullPath c) _ _ rfl]
  · rw [e]
    exact run_fullPath hsel _ rfl (s.begun_blockOk ops)

end Sys2Proof.Machine
end

section
/-! PROOFS. The bytes a `DECBLK` writes, and the state it leaves after a stream error (`spec/20_memory.md`
rules R53, R57, `spec/60_exceptions.md` rule R226). -/

namespace Sys2Proof.Machine

open Sys2Proof

/-! ## The footprint -/

/-- The first sub-block of which no pixel has been written (R116). -/
def State.unwrittenFrom (s : State) : Nat :=
  match s.phase with
  | .idle => 0
  | .exec => 0
  | .check => 0
  | .select => 0
  | .pull => s.work.k.toNat
  | .recon => s.work.k.toNat + 1
  | .finish => s.shape.nsub

/-- The address is not that of a pixel of a non-empty sub-block below `n`. -/
def State.Outside (s : State) (n : Nat) (a : Addr) : Prop :=
  ∀ j y x, j < n → isEmptySub s.shape s.work.wsubpat j = false → y < s.shape.height → x < s.shape.width →
    a ≠ pixAddr s.dstbase s.dststride s.shape j y x

/-- From `s` to `t` only pixels of the sub-blocks reconstructed have been written. -/
def WritesInside (s t : State) : Prop := ∀ a, t.Outside t.unwrittenFrom a → t.byteAt a = s.byteAt a

theorem State.unwrittenFrom_of_enters {t : State} {first : Nat} (h : EntersLoop t.shape t.work.wsubpat first t)
    (hfirst : first ≤ t.shape.nsub) : first ≤ t.unwrittenFrom := by
  rcases h with ⟨hp, -⟩ | ⟨hp, -, -, -, hle, -⟩
  · rw [State.unwrittenFrom, hp]
    exact hfirst
  · rw [State.unwrittenFrom, hp]
    exact hle

theorem State.unwrittenFrom_nextSub {s : State} (hk : s.work.k.toNat < s.shape.nsub) :
    s.work.k.toNat + 1 ≤ s.nextSub.unwrittenFrom := by
  refine State.unwrittenFrom_of_enters ?_ (by rw [State.nextSub_shape]; exact hk)
  rw [State.nextSub_shape, State.nextSub_wsubpat]
  exact s.nextSub_entersLoop

theorem State.unwrittenFrom_endPull {s : State} (hk : s.work.k.toNat < s.shape.nsub) :
    s.work.k.toNat + 1 ≤ s.endPull.unwrittenFrom := by
  unfold State.endPull
  split
  · exact State.unwrittenFrom_nextSub (s := s.setPlaced s.work.k.toNat s.work.cnt) hk
  · exact le_rfl

theorem State.unwrittenFrom_takeTriple (c : Cfg) {s : State} (hphase : s.phase = .pull)
    (hk : s.work.k.toNat < s.shape.nsub) {a : CoefAnswer} (herr : a.err = false) :
    s.work.k.toNat ≤ (s.takeTriple c a).unwrittenFrom := by
  rcases State.takeTriple_cases c (s := s) herr with e | e | e
  · have ends := State.unwrittenFrom_endPull (s := s.advance a) hk
    exact e ▸ Nat.le_of_succ_le ends
  · have ends := State.unwrittenFrom_endPull (s := (s.advance a).place c a.value) hk
    exact e ▸ Nat.le_of_succ_le ends
  · have pull : (s.takeTriple c a).phase = .pull := e ▸ hphase
    rw [State.unwrittenFrom, pull, e]
    exact le_rfl

theorem State.unwrittenFrom_pixelDone {s : State} (hphase : s.phase = .recon)
    (hk : s.work.k.toNat < s.shape.nsub) : s.work.k.toNat + 1 ≤ s.pixelDone.unwrittenFrom := by
  unfold State.pixelDone
  split
  · have recon : s.nextPixel.phase = .recon := hphase
    rw [State.unwrittenFrom, recon]
    exact le_rfl
  · exact State.unwrittenFrom_nextSub (s := s.nextPixel) hk

/-- The loop goes forward. -/
theorem Ticked.unwrittenFrom_le {c : Cfg} {s t : State} (h : Ticked c s t) (hloop : s.LoopInv)
    (ht : t.phase.inBlock = true) : s.unwrittenFrom ≤ t.unwrittenFrom := by
  have first {p : Phase} (hp : s.phase = p) (e : s.unwrittenFrom = 0) : s.unwrittenFrom ≤ t.unwrittenFrom :=
    e ▸ Nat.zero_le _
  cases h with
  | check hp | rawGiven hp | rawRead hp | patGiven hp | patRead hp => exact first hp (by rw [State.unwrittenFrom, hp])
  | pull hp code rest =>
    have hk := (hloop.loopSub (by rw [hp]; rfl)).1
    cases herr : code.coef.err with
    | true =>
      rw [State.takeTriple_raises c _ herr] at ht
      cases ht
    | false =>
      rw [State.unwrittenFrom, hp]
      exact State.unwrittenFrom_takeTriple c (s := s.gotCode (.coefNext s.ctx.codingset) rest) hp hk herr
  | transform hp | pixelRead hp => rw [State.unwrittenFrom, State.unwrittenFrom]; simp [hp]
  | pixelWrite hp =>
    have hk := (hloop.loopSub (by rw [hp]; rfl)).1
    rw [State.unwrittenFrom, hp]
    exact State.unwrittenFrom_pixelDone (s := (s.answered _).setByte _ _) hp hk
  | finish => cases ht

theorem Shape.cap_div_mod {sh : Shape} {i : Nat} (h : i < sh.cap) :
    i / sh.width < sh.height ∧ i % sh.width < sh.width := by
  have pos : 0 < sh.width := by cases sh <;> decide
  exact ⟨Nat.div_lt_of_lt_mul h, Nat.mod_lt _ pos⟩

/-- A step writes inside the footprint it has reached. -/
theorem Ticked.writesInside {c : Cfg} {s0 s t : State} (h : Ticked c s t) (hloop : s.LoopInv)
    (ht : t.phase.inBlock = true) (hs : WritesInside s0 s) : WritesInside s0 t := by
  intro a ha
  have forward := h.unwrittenFrom_le hloop ht
  have setting := h.setting
  have before : s.Outside s.unwrittenFrom a := by
    rcases h.shape with ⟨wshape, wsubpat⟩ | ⟨hp, -⟩
    · have shape : t.shape = s.shape := congrArg shapeOf wshape
      intro j y x hj hempty hy hx
      have outside := ha j y x (by omega)
      rw [shape, wsubpat, setting.dstbase, setting.dststride] at outside
      exact outside hempty hy hx
    · intro j y x hj
      have none_written : s.unwrittenFrom = 0 := by rw [State.unwrittenFrom, hp]
      omega
  rw [← hs a before]
  rcases h.mem with e | ⟨hp, b, e⟩
  · rw [State.byteAt, e]
    rfl
  · rw [State.byteAt, e]
    refine Memory.read_write_other _ _ _ _ fun e' => ?_
    obtain ⟨hk, hempty⟩ := hloop.loopSub (by rw [hp]; rfl)
    obtain ⟨hy, hx⟩ := Shape.cap_div_mod (hloop.pixel hp)
    have reached : s.unwrittenFrom = s.work.k.toNat + 1 := by rw [State.unwrittenFrom, hp]
    rcases h.shape with ⟨wshape, wsubpat⟩ | ⟨hp', -⟩
    · have shape : t.shape = s.shape := congrArg shapeOf wshape
      have outside := ha s.work.k.toNat (s.cont.pix / s.shape.width) (s.cont.pix % s.shape.width) (by omega)
      rw [shape, wsubpat, setting.dstbase, setting.dststride] at outside
      exact outside hempty hy hx (BitVec.eq_of_toNat_eq e').symm
    · simp [hp] at hp'

/-! ## Along the block -/

/-- What every step inside the block keeps holds wherever the block has come to. -/
theorem Ticks.keeps_inBlock {c : Cfg} {P : State → Prop}
    (hstep : ∀ {s t}, s.phase.inBlock = true → t.phase.inBlock = true → P s → Ticked c s t → P t) {s t : State}
    (h : Ticks c s t) (hs : s.phase.inBlock = true) (ht : t.phase.inBlock = true) (hP : P s) : P t := by
  induction h with
  | refl => exact hP
  | tail path step ih =>
    rcases Ticks.inBlock_or_idle path hs with ⟨inBlock, -⟩ | hidle
    · exact hstep inBlock ht (ih inBlock) step
    · exact absurd step (not_ticked_of_idle hidle)

theorem Ticks.blockOk {c : Cfg} {s t : State} (h : Ticks c s t) (hs : s.phase.inBlock = true)
    (ht : t.phase.inBlock = true) (hb : s.BlockOk) : t.BlockOk :=
  Ticks.keeps_inBlock (P := State.BlockOk) (fun hu hv hP step => step.blockOk hu hv hP) h hs ht hb

theorem Ticks.writesInside {s v : State} {ops : DecOps} (h : Ticks Config.vrd (s.begun ops) v)
    (hv : v.phase.inBlock = true) : WritesInside s v :=
  (Ticks.keeps_inBlock (P := fun u => u.LoopInv ∧ WritesInside s u)
    (fun _ ht hP step => ⟨step.loopInv hP.1, step.writesInside hP.1 ht hP.2⟩) h rfl hv
    ⟨s.begun_loopInv ops, fun _ _ => rfl⟩).2

theorem State.LoopInv.unwrittenFrom_le {s : State} (h : s.LoopInv) : s.unwrittenFrom ≤ s.shape.nsub := by
  unfold State.unwrittenFrom
  cases hp : s.phase with
  | idle | exec | check | select | finish => simp
  | pull => exact (h.loopSub (by rw [hp]; rfl)).1.le
  | recon => exact (h.loopSub (by rw [hp]; rfl)).1

/-- With `SKIPBLK` the plane is unchanged (R57, R185). -/
theorem exec_decblk_skip_mem {s t : State} {tt : BitVec 3} {ns f o : Bool} {n : BitVec 3}
    (h : exec (.decblk tt ns f true o n) s = .next t) : t.mem = s.mem := by
  rcases exec_cases h with ⟨tt, ns, f, k, o, n, hi, -, hrun⟩ | ⟨-, rfl⟩ | rfl | ⟨d, rfl⟩
  · cases hi
    exact (onlyDecoded_of_run hrun rfl nofun).1
  · rfl
  · exact s.recordFault_mem _ _
  · rfl

/-- The bytes outside the whole footprint of a block. -/
theorem DecblkOutcome.byteAt_outside {s t : State} {ops : DecOps} (h : DecblkOutcome s ops t) {a : Addr}
    (ha : ∀ j y x, j < t.shape.nsub → isEmptySub t.shape t.work.wsubpat j = false → y < t.shape.height →
      x < t.shape.width → a ≠ pixAddr s.dstbase s.dststride t.shape j y x) : t.byteAt a = s.byteAt a := by
  have inside {v : State} (path : Ticks Config.vrd (s.begun ops) v) (hv : v.phase.inBlock = true)
      (hmem : t.mem = v.mem) (hwork : t.work = v.work) : t.byteAt a = s.byteAt a := by
    have setting := Ticks.setting path
    have shape : t.shape = v.shape := congrArg (fun w : Work => shapeOf w.wshape) hwork
    have bound := (Ticks.loopInv path (s.begun_loopInv ops)).unwrittenFrom_le
    rw [State.byteAt, hmem]
    refine Ticks.writesInside path hv a fun j y x hj => ?_
    have outside := ha j y x
    rw [shape, hwork] at outside
    rw [setting.dstbase, setting.dststride]
    exact outside (by omega)
  cases h with
  | refused _ ht => exact ht ▸ rfl
  | illegal _ ht => rw [State.byteAt, ht, (s.raiseFault_ports _ _).mem]; rfl
  | unready _ code _ ht => rw [State.byteAt, ht, ((s.startBlock ops).raiseFault_ports _ _).mem]; rfl
  | completes _ v path hp ht =>
    exact inside path (by rw [hp]; rfl) (ht ▸ v.finishBlock_ports.mem) (ht ▸ v.finishBlock_work)
  | fails _ v path hp code rest _ _ _ ht =>
    exact inside path (by rw [hp]; rfl) (ht ▸ (State.raiseFault_ports _ _ _).mem)
      (ht ▸ State.recordFault_work _ _ _)
  | waits _ _ v path hp _ r ht => exact inside path hp (ht ▸ rfl) (ht ▸ rfl)

/-- Settles O45: by the outcome of the `DECBLK`, the footprint along the way there, and no write with `SKIPBLK`. -/
theorem decblkWritesOnlyItsFootprint : Obligations.DecblkWritesOnlyItsFootprint := by
  intro s t tt ns f k o n h
  refine ⟨fun a ha => (exec_decblk_outcome h).byteAt_outside ha, fun hk => ?_⟩
  subst hk
  exact exec_decblk_skip_mem h

/-! ## After a stream error -/

/-- What a failing coefficient request in a block with no fault pending writes (R117, R165, R226). -/
theorem State.streamFault_writes {v : State} (herr : v.status.err = false) (rest : List Code) :
    (v.streamFault rest).status = { err := true, errcode := 4, errsub := v.work.k } ∧
      (v.streamFault rest).responses = v.responses ++ [4#4 ++ (v.streamFault rest).statusWord] ∧
      (v.streamFault rest).placed = v.placed.setIfInBounds v.work.k.toNat v.work.cnt := by
  have first := State.raiseFault_first
    (s := (v.gotCode (.coefNext v.ctx.codingset) rest).setPlaced v.work.k.toNat v.work.cnt) herr v.work.k
    (code := .eStream) nofun
  exact ⟨congrArg State.status first, congrArg State.responses first, congrArg State.placed first⟩

/-- What it leaves: the plane, the Block, the working registers and `RESULT`. -/
theorem State.streamFault_frame (v : State) (rest : List Code) :
    (v.streamFault rest).mem = v.mem ∧ (v.streamFault rest).blk = v.blk ∧ (v.streamFault rest).work = v.work ∧
      (v.streamFault rest).result = v.result :=
  ⟨State.recordFault_mem _ _ _, State.recordFault_blk _ _ _, State.recordFault_work _ _ _,
    State.recordFault_result _ _ _⟩

/-- A `DECBLK` that ends with the record `E_STREAM` has failed on a coefficient request. -/
theorem DecblkOutcome.fails_of_errcode {s t : State} {ops : DecOps} (h : DecblkOutcome s ops t)
    (hs : s.status.err = false) (hidle : t.phase = .idle) (herr : t.status.err = true)
    (hcode : t.status.errcode = 4) :
    ∃ v rest, Ticks Config.vrd (s.begun ops) v ∧ v.phase = .pull ∧ t = v.streamFault rest := by
  cases h with
  | refused hno => simp [hs] at hno
  | illegal _ ht =>
    have record := State.recordFault_first s .eIllcmd 0 hs
    have status : t.status = _ := (congrArg State.status ht).trans record
    rw [status] at hcode
    cases hcode
  | unready _ code hno ht =>
    have record := State.recordFault_first (s.startBlock ops) code 0 hs
    have status : t.status = _ := (congrArg State.status ht).trans record
    rw [status] at hcode
    rcases hno with rfl | rfl <;> cases hcode
  | completes _ v path hp ht =>
    have same := Ticks.records_of_begun path (by rw [hp]; rfl)
    have status : t.status = s.status := by rw [ht, State.finishBlock_eq]; exact same.status
    rw [status, hs] at herr
    cases herr
  | fails _ v path hp code rest _ _ _ ht => exact ⟨v, rest, path, hp, ht⟩
  | waits _ _ v _ hp _ r ht =>
    rw [ht] at hidle
    simp [show v.phase = .idle from hidle, Phase.inBlock] at hp

/-- Settles O44: the failing request is the last step, and the rest is what the block kept up to it. -/
theorem decblkStreamErrorState : Obligations.DecblkStreamErrorState := by
  intro s t tt ns f k o n hs h hidle herr hcode
  obtain ⟨qctx, ctx, dstbase, dststride, cfgv, -, -, -, -, counters, -⟩ := decblkFrame s t tt ns f k o n h
  obtain ⟨ttacc, cmdcnt⟩ := counters (.inr herr)
  have skips : k = true → t.mem = s.mem := by
    rintro rfl
    exact exec_decblk_skip_mem h
  obtain ⟨v, rest, path, hp, rfl⟩ := (exec_decblk_outcome h).fails_of_errcode hs hidle herr hcode
  have inBlock : v.phase.inBlock = true := by rw [hp]; rfl
  have inLoop : v.phase.inLoop = true := by rw [hp]; rfl
  have same := Ticks.records_of_begun path inBlock
  obtain ⟨-, loop, block⟩ := Ticks.blockOk path rfl inBlock (s.begun_blockOk _)
  obtain ⟨-, hempty⟩ := loop.loopSub inLoop
  obtain ⟨status, responses, placed⟩ := State.streamFault_writes (by rw [same.status]; exact hs) rest
  obtain ⟨mem, blk, work, result⟩ := v.streamFault_frame rest
  have shape : (v.streamFault rest).shape = v.shape := congrArg (fun w : Work => shapeOf w.wshape) work
  have errsub : (v.streamFault rest).status.errsub = v.work.k := congrArg FaultRecord.errsub status
  have blank : (v.streamFault rest).BlankFrom (v.work.k.toNat + 1) :=
    ((block.blank inLoop).setPlaced hempty v.work.cnt).congr blk placed (congrArg Work.wshape work)
      (congrArg Work.wsubpat work)
  refine ⟨responses.trans (by rw [same.responses]; rfl), cmdcnt, qctx, ctx, dstbase, dststride, cfgv, ttacc,
    result.trans same.result, ?ahead, ?empty, ?cells, ?quant, ?scale, skips, ?bytes⟩
  case ahead => exact fun j hj => (blank j (.inl (by rw [errsub] at hj; exact hj))).1
  case empty => exact fun j _ hj => (blank j (.inr hj)).1
  case cells => exact fun j p hj hlt hp => (blank j (.inl (by rw [errsub] at hlt; exact hlt))).2 hj p hp
  case quant => rw [work, same.quant]; rfl
  case scale => rw [work, same.scale]; rfl
  case bytes =>
    intro a ha
    have reached : v.unwrittenFrom = v.work.k.toNat := by rw [State.unwrittenFrom, hp]
    have setting := Ticks.setting path
    rw [State.byteAt, mem]
    refine Ticks.writesInside path inBlock a fun j y x hj => ?_
    have outside := ha j y x
    rw [errsub, shape, work] at outside
    rw [setting.dstbase, setting.dststride]
    exact outside (by omega)

end Sys2Proof.Machine
end

section
/-! PROOFS. What only certain commands change: the faulted condition and the configuration registers
(`spec/60_exceptions.md` rule R228, `spec/10_state.md` rules R20, R25, R32). -/

namespace Sys2Proof.Machine

open Sys2Proof

/-! ## The faulted condition -/

theorem State.raiseFault_err (s : State) (code : StatusCode) (sub : BitVec 2) :
    (s.raiseFault code sub).status.err = true := s.raiseFault_irq code sub

/-- No step of a `DECBLK` ends the faulted condition. -/
theorem Ticked.keeps_err {c : Cfg} {s t : State} (h : Ticked c s t) (hs : s.status.err = true) :
    t.status.err = true := by
  rcases h.outcome with ⟨-, rfl⟩ | ⟨-, rfl⟩ | ⟨-, code, rest, -, -, -, rfl⟩ | ⟨-, -, same⟩
  · rcases s.checkBlock_cases with ⟨code, -, e⟩ | ⟨-, -, e⟩
    · exact e ▸ s.raiseFault_err code 0
    · exact e ▸ hs
  · rw [State.finishBlock_eq]
    exact hs
  · exact State.raiseFault_err _ _ _
  · rw [same.status]
    exact hs

/-- Of what the commands write before they respond `OK`, only `CLRERR` touches the fault record. -/
theorem State.written_status (s : State) {i : Instr} (hi : i ≠ .clrerr) : (s.written i).status = s.status := by
  cases i with
  | clrerr => exact absurd rfl hi
  | rdblk =>
    rw [State.written]
    split <;> rfl
  | _ => rfl

/-- No command but `CLRERR` ends the faulted condition. -/
theorem exec_keeps_err {i : Instr} {s t : State} (h : exec i s = .next t) (hs : s.status.err = true)
    (hi : i ≠ .clrerr) : t.status.err = true := by
  rcases exec_cases h with ⟨tt, ns, f, k, o, n, -, herr, -⟩ | ⟨-, rfl⟩ | rfl | ⟨d, rfl⟩
  · simp [hs] at herr
  · exact hs
  · exact s.raiseFault_err _ _
  · exact (congrArg FaultRecord.err (s.written_status hi)).trans hs

theorem State.illegalCommand_err {s : State} (hs : s.status.err = true) (op : BitVec 4) :
    (s.illegalCommand op).status.err = true := by
  unfold State.illegalCommand
  split
  · exact s.raiseFault_err _ _
  · exact hs

/-- Settles O25: the word that ended the condition decodes to `CLRERR`, and that command has one word. -/
theorem onlyClrerrOrResetEndsFault : Obligations.OnlyClrerrOrResetEndsFault := by
  intro s t hs h hno
  have keeps (ht : t.status.err = true) : s.resetPin = true ∨
      (s.phase = .idle ∧ ∃ rest, s.cmds = 0x900000000 :: rest) :=
    absurd ht (Bool.eq_false_iff.1 hno)
  rcases step_cases s with ⟨hreset, -⟩ | ⟨-, -, -, e⟩ | ⟨w, rest, -, hp, hc, e⟩ | ⟨-, -, e⟩
  · exact .inl hreset
  · obtain rfl := Host.Outcome.next.inj (e.symm.trans h)
    exact keeps hs
  · rcases execWord_cases w (s.accept rest) with ⟨i, hd, ei⟩ | ⟨-, -, ei⟩
    · by_cases hi : i = .clrerr
      · subst hi
        obtain ⟨-, hw⟩ := commandHasOneWord w .clrerr hd
        exact .inr ⟨hp, rest, by rw [hc, ← hw]; rfl⟩
      · exact keeps (exec_keeps_err (ei.symm.trans (e.symm.trans h)) hs hi)
    · obtain rfl := Host.Outcome.next.inj (ei.symm.trans (e.symm.trans h))
      exact keeps (State.illegalCommand_err (s := s.accept rest) hs _)
  · exact keeps (run_induct (P := fun u => u.status.err = true) _ (fun _ _ hu _ step => step.keeps_err hu)
      (fun _ _ hu _ => hu) _ _ _ hs (e.symm.trans h))

/-! ## The configuration -/

/-- `t` has the configuration registers of `s`. -/
structure SameConfig (s t : State) : Prop where
  qctx : t.qctx = s.qctx
  ctx : t.ctx = s.ctx
  dstbase : t.dstbase = s.dstbase
  dststride : t.dststride = s.dststride
  cfgv : t.cfgv = s.cfgv

theorem SameSetting.config {s t : State} (h : SameSetting s t) : SameConfig s t :=
  ⟨h.qctx, h.ctx, h.dstbase, h.dststride, h.cfgv⟩

/-- A run leaves the configuration. -/
theorem run_setting {c : Cfg} {n : Nat} {s t : State} (h : run c n s = .next t) : SameSetting s t :=
  run_induct (P := SameSetting s) c (fun _ _ hu _ step => hu.trans step.setting)
    (fun _ _ hu _ => hu.trans ⟨rfl, rfl, rfl, rfl, rfl, rfl, rfl, rfl, rfl, rfl⟩) n s t (.refl s) h

/-- A command leaves the configuration, but for what it writes before it responds `OK`. -/
theorem exec_config {i : Instr} {s t : State} (h : exec i s = .next t) :
    SameConfig s t ∨ SameConfig (s.written i) t := by
  rcases exec_cases h with ⟨tt, ns, f, k, o, n, -, -, hrun⟩ | ⟨-, rfl⟩ | rfl | ⟨d, rfl⟩
  · obtain ⟨qctx, ctx, dstbase, dststride, cfgv⟩ := (run_setting hrun).config
    exact .inl ⟨qctx, ctx, dstbase, dststride, cfgv⟩
  · exact .inl ⟨rfl, rfl, rfl, rfl, rfl⟩
  · exact .inl (s.raiseFault_setting _ _).config
  · exact .inr ⟨rfl, rfl, rfl, rfl, rfl⟩

/-- The bits of `CFGV` after one of them has been set (R25). -/
theorem State.setCfgv_getLsbD (s : State) {b : Nat} (hb : b < 4) (j : Nat) :
    (s.setCfgv b).cfgv.getLsbD j = (s.cfgv.getLsbD j || decide (j = b)) := by
  rw [State.setCfgv_cfgv, BitVec.getLsbD_or]
  congr 1
  rcases Nat.lt_or_ge j 4 with hj | hj
  · have all : ∀ b j : Fin 4, (1#4 <<< b.val).getLsbD j.val = decide (j.val = b.val) := by decide
    exact all ⟨b, hb⟩ ⟨j, hj⟩
  · rw [BitVec.getLsbD_of_ge _ _ hj, decide_eq_false (by omega)]

/-- The clauses of the statement, for a step that takes the command `i`: register and bit `b` are of that command, the
others stay. -/
structure WritesOwn (s t : State) (i : Instr) : Prop where
  setq : t.qctx ≠ s.qctx ∨ t.cfgv.getLsbD 0 ≠ s.cfgv.getLsbD 0 → ∃ m h p, i = .setq m h p
  setctx : t.ctx ≠ s.ctx ∨ t.cfgv.getLsbD 1 ≠ s.cfgv.getLsbD 1 → ∃ r c f d, i = .setctx r c f d
  setbase : t.dstbase ≠ s.dstbase ∨ t.cfgv.getLsbD 2 ≠ s.cfgv.getLsbD 2 → ∃ a, i = .setbase a
  setstride : t.dststride ≠ s.dststride ∨ t.cfgv.getLsbD 3 ≠ s.cfgv.getLsbD 3 → ∃ d, i = .setstride d
  rises : ∀ b, s.cfgv.getLsbD b = true → t.cfgv.getLsbD b = true

/-- A step that leaves the configuration meets every clause of the kind. -/
theorem SameConfig.unwritten {s t : State} (h : SameConfig s t) {A B C D : Prop} :
    (t.qctx ≠ s.qctx ∨ t.cfgv.getLsbD 0 ≠ s.cfgv.getLsbD 0 → A) ∧
      (t.ctx ≠ s.ctx ∨ t.cfgv.getLsbD 1 ≠ s.cfgv.getLsbD 1 → B) ∧
      (t.dstbase ≠ s.dstbase ∨ t.cfgv.getLsbD 2 ≠ s.cfgv.getLsbD 2 → C) ∧
      (t.dststride ≠ s.dststride ∨ t.cfgv.getLsbD 3 ≠ s.cfgv.getLsbD 3 → D) ∧
      (∀ b, s.cfgv.getLsbD b = true → t.cfgv.getLsbD b = true) := by
  rw [h.qctx, h.ctx, h.dstbase, h.dststride, h.cfgv]
  simp

theorem SameConfig.writesOwn {s t : State} (h : SameConfig s t) (i : Instr) : WritesOwn s t i := by
  obtain ⟨setq, setctx, setbase, setstride, rises⟩ := h.unwritten
  exact ⟨setq, setctx, setbase, setstride, rises⟩

/-- Each configuration command writes its own register and sets its own bit (R91 to R94). -/
theorem State.written_writesOwn (s : State) (i : Instr) : WritesOwn s (s.written i) i := by
  have same {t : State} (h : SameConfig s t) : WritesOwn s t i := h.writesOwn i
  cases i with
  | nop | decblk | rdreg | clracc | clrerr => exact same ⟨rfl, rfl, rfl, rfl, rfl⟩
  | rdblk =>
    rw [State.written]
    split <;> exact same ⟨rfl, rfl, rfl, rfl, rfl⟩
  | setq | setctx | setbase | setstride =>
    constructor <;> simp +contextual [State.written, State.setCfgv_getLsbD, -State.setCfgv_cfgv,
      -BitVec.getLsbD_eq_getElem]

/-- What a step that takes a word writes of the configuration is what the command of the word writes. -/
theorem execWord_writesOwn {w : Command} {s t : State} (h : execWord w s = .next t) :
    SameConfig s t ∨ ∃ i, decode w = .command i ∧ WritesOwn s t i := by
  rcases execWord_cases w s with ⟨i, hd, e⟩ | ⟨-, -, e⟩
  · rcases exec_config (e.symm.trans h) with same | same
    · exact .inl same
    · obtain ⟨setq, setctx, setbase, setstride, rises⟩ := s.written_writesOwn i
      refine .inr ⟨i, hd, ?_⟩
      constructor
      · rwa [same.qctx, same.cfgv]
      · rwa [same.ctx, same.cfgv]
      · rwa [same.dstbase, same.cfgv]
      · rwa [same.dststride, same.cfgv]
      · rwa [same.cfgv]
  · obtain rfl := Host.Outcome.next.inj (e.symm.trans h)
    unfold State.illegalCommand
    split
    · exact .inl (s.raiseFault_setting _ _).config
    · exact .inl ⟨rfl, rfl, rfl, rfl, rfl⟩

/-- Settles O26: a step that takes no word leaves the configuration, and one that takes a word writes what its command
writes. -/
theorem configurationWrittenOnlyBySetCommands : Obligations.ConfigurationWrittenOnlyBySetCommands := by
  intro s t hreset h
  rcases step_cases s with ⟨asserted, -⟩ | ⟨-, -, -, e⟩ | ⟨w, rest, -, hp, hc, e⟩ | ⟨-, -, e⟩
  · simp [hreset] at asserted
  · obtain rfl := Host.Outcome.next.inj (e.symm.trans h)
    exact SameConfig.unwritten ⟨rfl, rfl, rfl, rfl, rfl⟩
  · rcases execWord_writesOwn (e.symm.trans h) with ⟨qctx, ctx, dstbase, dststride, cfgv⟩ | ⟨i, hd, own⟩
    · exact SameConfig.unwritten ⟨qctx, ctx, dstbase, dststride, cfgv⟩
    · refine ⟨fun hq => ?_, fun hx => ?_, fun hb => ?_, fun hs => ?_, own.rises⟩
      · obtain ⟨m, h, p, rfl⟩ := own.setq hq
        exact ⟨w, rest, m, h, p, hp, hc, hd⟩
      · obtain ⟨r, c, f, d, rfl⟩ := own.setctx hx
        exact ⟨w, rest, r, c, f, d, hp, hc, hd⟩
      · obtain ⟨a, rfl⟩ := own.setbase hb
        exact ⟨w, rest, a, hp, hc, hd⟩
      · obtain ⟨d, rfl⟩ := own.setstride hs
        exact ⟨w, rest, d, hp, hc, hd⟩
  · exact (run_setting (e.symm.trans h)).config.unwritten

end Sys2Proof.Machine
end

section
/-! PROOFS. Waiting for an agent (`spec/46_external_ports.md` rule R213, `spec/70_reset_and_hazards.md` rules R252,
R266). -/

namespace Sys2Proof.Machine

open Sys2Proof

/-! ## Silent agents -/

/-- With silent agents and no device in the platform, a step of `PULL` or `RECON` waits on a request that does not
depend on what was outstanding. -/
theorem tick_of_silent (c : Cfg) {s : State} (hsilent : s.agentsAnswer = false)
    (hdevice : ∀ a, s.areaAt a ≠ some .device) (hphase : s.phase = .pull ∨ s.phase = .recon) :
    ∃ r, tick c s = .waits (s.await r) := by
  rcases hphase with hp | hp
  · refine ⟨.coefNext s.ctx.codingset, ?_⟩
    simp only [tick, hp, tickPull]
    rw [(s.coefNext_waits_iff _).2 ⟨.inr hsilent, rfl⟩]
  · have area (a : Addr) : s.areaAt a = some .unbacked ∨ s.areaAt a = none ∧ s.agentsAnswer = false := by
      cases h : s.areaAt a with
      | none => exact .inr ⟨rfl, hsilent⟩
      | some kind =>
        cases kind with
        | unbacked => exact .inl rfl
        | device => exact absurd h (hdevice a)
    cases hres : s.cont.res with
    | none =>
      refine ⟨.itxCall (shapeCode s.shape) (s.itxKind c) s.coeffs, ?_⟩
      simp only [tick, hp, tickRecon, hres, State.itxCall]
      rw [(s.askPure_waits_iff _ _ _).2 ⟨hsilent, rfl⟩]
    | some res =>
      cases hold : s.cont.old with
      | none =>
        refine ⟨.memRead (s.pixelAddr s.cont.pix), ?_⟩
        simp only [tick, hp, tickRecon, hres, hold]
        rw [(s.memRead_waits_iff _ _).2 ⟨area _, rfl⟩]
      | some old =>
        refine ⟨.memWrite (s.pixelAddr s.cont.pix) (accumulate old (sampleAt res s.cont.pix)), ?_⟩
        simp only [tick, hp, tickRecon, hres, hold]
        rw [(s.memWrite_waits_iff _ _ _).2 ⟨area _, rfl⟩]

theorem step_of_busy {s : State} (hreset : s.resetPin = false) (hp : s.phase ≠ .idle) :
    step s = run Config.vrd decblkFuel s := by
  rcases step_cases s with ⟨h, -⟩ | ⟨-, h, -⟩ | ⟨w, rest, -, h, -⟩ | ⟨-, -, e⟩
  · simp [hreset] at h
  · exact absurd h hp
  · exact absurd h hp
  · exact e

/-- A machine whose step waits stays where it is with the request outstanding. -/
theorem step_of_tick_waits {s : State} {r : Request} (hreset : s.resetPin = false) (hp : s.phase ≠ .idle)
    (h : tick Config.vrd s = .waits (s.await r)) : step s = .next (s.await r) := by
  rw [step_of_busy hreset hp, decblkFuel, run_succ _ _ _ hp, h]

/-! ## What was outstanding does not matter -/

/-- The state with another request outstanding, or none. -/
def State.withOutstanding (s : State) (x : Option Request) : State := { s with outstanding := x }

theorem tick_of_select (c : Cfg) {s : State} (h : s.phase = .select) : tick c s = tickSelect c s := by rw [tick, h]

theorem tick_of_pull (c : Cfg) {s : State} (h : s.phase = .pull) : tick c s = tickPull c s := by rw [tick, h]

theorem tick_of_recon (c : Cfg) {s : State} (h : s.phase = .recon) : tick c s = tickRecon c s := by rw [tick, h]

/-- In the phases whose every step makes a request, the request overwrites what was outstanding. -/
theorem tick_withOutstanding (c : Cfg) {s : State} (h : s.phase = .pull ∨ s.phase = .recon) (x : Option Request) :
    tick c (s.withOutstanding x) = tick c s := by
  rcases h with hp | hp
  · exact (tick_of_pull c (s := s.withOutstanding x) hp).trans (tick_of_pull c hp).symm
  · exact (tick_of_recon c (s := s.withOutstanding x) hp).trans (tick_of_recon c hp).symm

/-- Settles O49: the step waits, and in the state with the request outstanding it waits again for the same request. -/
theorem silentAgentStalls : Obligations.SilentAgentStalls := by
  intro s hgrants hreset hdevice hphase
  have silent : s.agentsAnswer = false := by simp [State.agentsAnswer, hgrants]
  have busy : s.phase ≠ .idle := by rcases hphase with h | h <;> rw [h] <;> nofun
  obtain ⟨r, hr⟩ := tick_of_silent Config.vrd silent hdevice hphase
  have again : tick Config.vrd (s.await r) = .waits ((s.await r).await r) :=
    (tick_withOutstanding Config.vrd hphase (some r)).trans hr
  exact ⟨s.await r, r, step_of_tick_waits hreset busy hr, step_of_tick_waits hreset busy again, rfl⟩

/-! ## More grants -/

/-- The state in which the agents answer without end. -/
def State.unlimited (s : State) : State := { s with grants := none }

theorem State.enterFrom_unlimited (sh : Shape) (n : Nat) (s : State) :
    (State.enterFrom sh n s).unlimited = State.enterFrom sh n s.unlimited := by
  induction n generalizing s with
  | zero => rfl
  | succ n ih =>
    simp only [State.enterFrom, apply_ite State.unlimited]
    rw [ih]
    rfl

theorem State.raiseFault_unlimited (s : State) (code : StatusCode) (sub : BitVec 2) :
    (s.raiseFault code sub).unlimited = s.unlimited.raiseFault code sub := by
  have same : (s.recordFault code sub).unlimited = s.unlimited.recordFault code sub := by
    simp only [State.recordFault, apply_ite State.unlimited]
    rfl
  show (s.recordFault code sub).unlimited.respond code (s.recordFault code sub).unlimited.statusWord = _
  rw [same]
  rfl

theorem State.checkBlock_unlimited (s : State) : s.checkBlock.unlimited = s.unlimited.checkBlock := by
  simp only [State.checkBlock, apply_ite State.unlimited, State.raiseFault_unlimited]
  rfl

theorem State.selected_unlimited (s : State) (w : BitVec 4) : (s.selected w).unlimited = s.unlimited.selected w :=
  State.enterFrom_unlimited _ _ _

theorem State.nextSub_unlimited (s : State) : s.nextSub.unlimited = s.unlimited.nextSub :=
  State.enterFrom_unlimited _ _ _

theorem State.endPull_unlimited (s : State) : s.endPull.unlimited = s.unlimited.endPull := by
  simp only [State.endPull, apply_ite State.unlimited, State.nextSub_unlimited]
  rfl

theorem State.takeTriple_unlimited (c : Cfg) (s : State) (a : CoefAnswer) :
    (s.takeTriple c a).unlimited = s.unlimited.takeTriple c a := by
  simp only [State.takeTriple, apply_ite State.unlimited, State.raiseFault_unlimited, State.endPull_unlimited]
  rfl

theorem State.pixelDone_unlimited (s : State) : s.pixelDone.unlimited = s.unlimited.pixelDone := by
  simp only [State.pixelDone, apply_ite State.unlimited, State.nextSub_unlimited]
  rfl

theorem State.finishBlock_unlimited (s : State) : s.finishBlock.unlimited = s.unlimited.finishBlock := by
  rw [State.finishBlock_eq, State.finishBlock_eq]
  have same : s.unlimited.updateTtacc.ttacc = s.updateTtacc.ttacc := by
    simp only [State.updateTtacc, apply_ite State.ttacc]
    rfl
  rw [same]
  rfl

/-- A step whose request was granted is a step with all requests granted. -/
theorem Ticked.unlimited {c : Cfg} {s t : State} (h : Ticked c s t) : Ticked c s.unlimited t.unlimited := by
  cases h with
  | check hp => exact s.checkBlock_unlimited ▸ .check hp
  | rawGiven hp hr hn => exact .rawGiven (s := s.unlimited) hp hr hn
  | rawRead hp hr hn code rest hs => exact .rawRead (s := s.unlimited) hp hr hn code rest hs rfl
  | patGiven hp hr hread => exact s.selected_unlimited _ ▸ .patGiven (s := s.unlimited) hp hr hread
  | patRead hp hr cls hread code rest hs =>
    exact State.selected_unlimited _ _ ▸ .patRead (s := s.unlimited) hp hr cls hread code rest hs rfl
  | pull hp code rest hs => exact State.takeTriple_unlimited c _ _ ▸ .pull (s := s.unlimited) hp code rest hs rfl
  | transform hp hr => exact .transform (s := s.unlimited) hp hr rfl
  | pixelRead hp res hr ho hm => exact .pixelRead (s := s.unlimited) hp res hr ho hm rfl
  | pixelWrite hp res hr old ho hm =>
    exact State.pixelDone_unlimited _ ▸ .pixelWrite (s := s.unlimited) hp res hr old ho hm rfl
  | finish hp => exact s.finishBlock_unlimited ▸ .finish (s := s.unlimited) hp

/-! ## Resuming -/

/-- Fuel beyond the steps that are left makes no difference. -/
theorem run_fuel {c : Cfg} {m n : Nat} {s : State} (hs : s.LoopInv) (hexec : s.phase ≠ .exec) (hm : s.rank ≤ m)
    (hn : s.rank ≤ n) : run c m s = run c n s := by
  induction m generalizing n s with
  | zero =>
    have hidle : s.phase = .idle := by
      by_contra hidle
      have pos := State.rank_pos hidle hexec
      omega
    rw [run_idle c 0 s hidle, run_idle c n s hidle]
  | succ m ih =>
    by_cases hidle : s.phase = .idle
    · rw [run_idle c _ s hidle, run_idle c n s hidle]
    · have pos := State.rank_pos hidle hexec
      obtain ⟨k, rfl⟩ : ∃ k, n = k + 1 := Nat.exists_eq_add_one.2 (by omega)
      rw [run_succ c m s hidle, run_succ c k s hidle]
      cases ht : tick c s with
      | waits t => rfl
      | refused r => rfl
      | answer u t =>
        have step := (tick_answer_iff c s t).1 ht
        have fewer := step.rank_lt hs
        exact ih (step.loopInv hs) step.phase_ne_exec (by omega) (by omega)

theorem Ticked.phase_busy {c : Cfg} {s t : State} (h : Ticked c s t) : s.phase ≠ .idle ∧ s.phase ≠ .exec := by
  constructor
  · intro e
    exact not_ticked_of_idle e h
  · intro e
    rw [← tick_answer_iff, tick, e] at h
    cases h

/-- A run goes where its steps go. -/
theorem run_ticks {c : Cfg} {n : Nat} {s t : State} (h : Ticks c s t) (hs : s.LoopInv) (hrank : s.rank ≤ n) :
    run c n s = run c n t := by
  induction h using Relation.ReflTransGen.head_induction_on with
  | refl => rfl
  | head step path ih =>
    rename_i u v
    obtain ⟨hidle, hexec⟩ := step.phase_busy
    have fewer := step.rank_lt hs
    obtain ⟨k, rfl⟩ : ∃ k, n = k + 1 := Nat.exists_eq_add_one.2 (by omega)
    rw [run_succ c k u hidle, (tick_answer_iff c u v).2 step, ← ih (step.loopInv hs) (by omega)]
    exact run_fuel (step.loopInv hs) step.phase_ne_exec (by omega) (by omega)

theorem Ticks.unlimited {c : Cfg} {s t : State} (h : Ticks c s t) : Ticks c s.unlimited t.unlimited :=
  h.lift State.unlimited fun _ _ => Ticked.unlimited

theorem State.LoopInv.unlimited {s : State} (h : s.LoopInv) : s.unlimited.LoopInv :=
  ⟨h.loopSub, h.cursor, h.countCap, h.pixel⟩

/-- A step of `SELECT` reads a symbol (R128 to R131). -/
def State.readsSymbol (s : State) : Prop :=
  (s.cont.rawDone = true ∧ ∃ cls, patternRead (rawShapeOf s.work.raw) s.cont.ops.noshape s.cont.ops.first s.ctx.patf
    s.ctx.resred = some cls) ∨ (s.cont.rawDone = false ∧ s.cont.ops.noshape = true)

theorem State.readsSymbol_of_waits {c : Cfg} {s t : State} (h : tickSelect c s = .waits t) : s.readsSymbol := by
  unfold tickSelect at h
  cases hr : s.cont.rawDone with
  | true =>
    cases hq : patternRead (rawShapeOf s.work.raw) s.cont.ops.noshape s.cont.ops.first s.ctx.patf s.ctx.resred with
    | none => simp [hr, hq] at h
    | some cls => exact .inl ⟨hr, cls, hq⟩
  | false =>
    cases hn : s.cont.ops.noshape with
    | true => exact .inr ⟨hr, hn⟩
    | false => simp [hr, hn] at h

theorem tickSelect_withOutstanding (c : Cfg) {s : State} (h : s.readsSymbol) (x : Option Request) :
    tickSelect c (s.withOutstanding x) = tickSelect c s := by
  rcases h with ⟨hr, cls, hq⟩ | ⟨hr, hn⟩
  · simp only [tickSelect, State.withOutstanding, hr, hq, if_true]
    rfl
  · simp only [tickSelect, State.withOutstanding, hr, hn, if_true, Bool.false_eq_true, if_false]
    rfl

/-- A step that waits is one that makes a request, whatever has been granted: what was outstanding makes no
difference to it. -/
theorem tick_withOutstanding_of_waits {c : Cfg} {s t : State} (h : tick c s = .waits t)
    (hp : s.phase.inBlock = true) (x : Option Request) :
    tick c (s.unlimited.withOutstanding x) = tick c s.unlimited := by
  cases e : s.phase with
  | idle | exec | check => simp [e, Phase.inBlock] at hp
  | finish => simp [tick, e] at h
  | pull => exact tick_withOutstanding c (s := s.unlimited) (.inl e) x
  | recon => exact tick_withOutstanding c (s := s.unlimited) (.inr e) x
  | select =>
    rw [tick_of_select c e] at h
    rw [tick_of_select c (s := s.unlimited) e, tick_of_select c (s := s.unlimited.withOutstanding x) e]
    have reads : s.readsSymbol := State.readsSymbol_of_waits h
    exact tickSelect_withOutstanding c (s := s.unlimited) reads x

/-- A run from a state that waited is the run from the same state with nothing outstanding. -/
theorem run_withOutstanding_of_waits {c : Cfg} {n : Nat} {s t : State} (h : tick c s = .waits t)
    (hp : s.phase.inBlock = true) (x : Option Request) :
    run c (n + 1) (s.unlimited.withOutstanding x) = run c (n + 1) s.unlimited := by
  have busy : s.phase ≠ .idle := fun e => by simp [e, Phase.inBlock] at hp
  rw [run_succ c n s.unlimited busy, run_succ c n (s.unlimited.withOutstanding x) busy,
    tick_withOutstanding_of_waits h hp]

/-- A `DECBLK` on a ready VRD is its run past the checks. -/
theorem exec_decblk_of_ready {s : State} (h : s.hostReady) {tt : BitVec 3} {ns : Bool} (hwf : ns = true → tt = 0)
    (f k o : Bool) (n : BitVec 3) :
    exec (.decblk tt ns f k o n) s = run Config.vrd 255
      (s.begun { ttcode := tt, noshape := ns, first := f, skipblk := k, ttout := o, n := n }) := by
  rw [exec_decblk_of_no_fault h.1 hwf, runBlock_eq]
  exact congrArg (run Config.vrd 255) (State.checkBlock_of_hostReady (s := s.startBlock _) h)

/-- Settles O50: the steps up to the wait are steps of the unlimited run too, and the step that waited makes the same
request again, whatever stayed outstanding. -/
theorem stalledDecblkResumes : Obligations.StalledDecblkResumes := by
  intro s t granted tt ns f k o n hreset h hbusy
  cases exec_decblk_outcome h with
  | refused _ ht | illegal _ ht | unready _ _ _ ht | fails _ _ _ _ _ _ _ _ _ ht => exact absurd (ht ▸ rfl) hbusy
  | completes _ _ _ _ ht => exact absurd (ht ▸ rfl) hbusy
  | waits hready hwf v path hphase hwait r ht =>
    subst ht
    have v_loop : v.unlimited.LoopInv := (Ticks.loopInv path (State.begun_loopInv _ _)).unlimited
    have v_rank : v.unlimited.rank ≤ 203 := Ticks.rank_le path (State.begun_loopInv _ _)
    have v_exec : v.phase ≠ .exec := fun e => by simp [e, Phase.inBlock] at hphase
    have v_reset : v.resetPin = false := (Ticks.setting path).resetPin.trans hreset
    calc step { v.await r with grants := none }
        = run Config.vrd 256 (v.unlimited.withOutstanding (some r)) :=
          step_of_busy (s := v.unlimited.withOutstanding (some r)) v_reset hbusy
      _ = run Config.vrd 256 v.unlimited := run_withOutstanding_of_waits hwait hphase (some r)
      _ = run Config.vrd 255 v.unlimited := run_fuel v_loop v_exec (by omega) (by omega)
      _ = run Config.vrd 255 (State.begun { s with grants := none } _) :=
          (run_ticks (Ticks.unlimited path) (State.begun_loopInv _ _).unlimited
            (show 203 ≤ 255 by omega)).symm
      _ = exec (.decblk tt ns f k o n) { s with grants := none } :=
          (exec_decblk_of_ready (s := { s with grants := none }) hready hwf f k o n).symm

end Sys2Proof.Machine
end

section
/-! PROOFS. The order of the requests of a `DECBLK` (`spec/41_decblk.md` rules R115 to R120, `spec/20_memory.md`
rules R53 to R57, `spec/42_partition_selector.md` rules R128 to R136). -/

namespace Sys2Proof.Machine

open Sys2Proof

/-! ## The sub-blocks done -/

/-- The non-empty sub-blocks below `k`, in order (R116). -/
def presentBelow (sh : Shape) (w : BitVec 4) (k : Nat) : List Nat :=
  (List.range k).filter fun j => !isEmptySub sh w j

theorem presentBelow_nsub (sh : Shape) (w : BitVec 4) : presentBelow sh w sh.nsub = presentSubs sh w := rfl

theorem presentBelow_succ_of_present {sh : Shape} {w : BitVec 4} {k : Nat} (h : isEmptySub sh w k = false) :
    presentBelow sh w (k + 1) = presentBelow sh w k ++ [k] := by
  simp [presentBelow, List.range_succ, h]

theorem presentBelow_succ_of_empty {sh : Shape} {w : BitVec 4} {k : Nat} (h : isEmptySub sh w k = true) :
    presentBelow sh w (k + 1) = presentBelow sh w k := by
  simp [presentBelow, List.range_succ, h]

/-- Empty sub-blocks are passed over. -/
theorem presentBelow_of_empty {sh : Shape} {w : BitVec 4} {i j : Nat} (hij : i ≤ j)
    (h : ∀ l, i ≤ l → l < j → isEmptySub sh w l = true) : presentBelow sh w j = presentBelow sh w i := by
  induction j, hij using Nat.le_induction with
  | base => rfl
  | succ j hij ih =>
    rw [presentBelow_succ_of_empty (h j hij (by omega))]
    exact ih fun l hl hlt => h l hl (by omega)

theorem length_presentBelow_le (sh : Shape) (w : BitVec 4) (k : Nat) : (presentBelow sh w k).length ≤ k :=
  (List.length_filter_le _ _).trans_eq List.length_range

/-- `log` outlines the requests for the non-empty sub-blocks below `k`: for each, in order, 1 to `CAP + 1` coefficient
requests and then, unless the command says `SKIPBLK`, those of its reconstruction (R119). -/
def SubsTraced (s : State) (k : Nat) (log : List Request) : Prop :=
  ∃ pairs : List (Nat × Nat), pairs.map Prod.fst = presentBelow s.shape s.work.wsubpat k ∧
    (∀ p ∈ pairs, 1 ≤ p.2 ∧ p.2 ≤ s.shape.cap + 1) ∧
    log = pairs.flatMap fun p => s.subOutline s.shape s.cont.ops.skipblk p.1 p.2

theorem SubsTraced.nil (s : State) : SubsTraced s 0 [] := ⟨[], rfl, nofun, rfl⟩

/-- The outline of a sub-block depends on the setting alone. -/
theorem State.subOutline_congr {s t : State} (h : SameSetting s t) : t.subOutline = s.subOutline := by
  funext sh skip k m
  rw [State.subOutline, State.subOutline, h.ctx, h.dstbase, h.dststride]

theorem SubsTraced.congr {s t : State} {k : Nat} {log : List Request} (h : SubsTraced s k log)
    (hset : SameSetting s t) (hwshape : t.work.wshape = s.work.wshape) (hwsubpat : t.work.wsubpat = s.work.wsubpat) :
    SubsTraced t k log := by
  have shape : t.shape = s.shape := congrArg shapeOf hwshape
  unfold SubsTraced
  rw [shape, hwsubpat, State.subOutline_congr hset, hset.ops]
  exact h

theorem SubsTraced.of_empty {s : State} {i j : Nat} {log : List Request} (h : SubsTraced s i log) (hij : i ≤ j)
    (hempty : ∀ l, i ≤ l → l < j → isEmptySub s.shape s.work.wsubpat l = true) : SubsTraced s j log := by
  unfold SubsTraced
  rw [presentBelow_of_empty hij hempty]
  exact h

/-- One more sub-block done. -/
theorem SubsTraced.snoc {s : State} {k m : Nat} {log : List Request} (h : SubsTraced s k log)
    (hk : isEmptySub s.shape s.work.wsubpat k = false) (hm : 1 ≤ m ∧ m ≤ s.shape.cap + 1) :
    SubsTraced s (k + 1) (log ++ s.subOutline s.shape s.cont.ops.skipblk k m) := by
  obtain ⟨pairs, subs, counts, rfl⟩ := h
  refine ⟨pairs ++ [(k, m)], ?_, fun p hp => ?_, ?_⟩
  · rw [presentBelow_succ_of_present hk, List.map_append, subs]
    rfl
  · rcases List.mem_append.1 hp with hp | hp
    · exact counts p hp
    · obtain rfl := List.mem_singleton.1 hp
      exact hm
  · simp

/-! ## The sub-block in progress -/

/-- The outline of the two requests for pixel `i`. -/
def State.pixelOutline (s : State) (i : Nat) : List Request :=
  [.memRead (s.pixelAddr i), .memWrite (s.pixelAddr i) 0]

/-- The outline of the requests made so far for the reconstruction in progress (R175). -/
def State.reconOutline (s : State) : List Request :=
  match s.cont.res, s.cont.old with
  | none, _ => []
  | some _, none => .itxCall (shapeCode s.shape) .full [] :: (List.range s.cont.pix).flatMap s.pixelOutline
  | some _, some _ => .itxCall (shapeCode s.shape) .full [] :: (List.range s.cont.pix).flatMap s.pixelOutline ++
      [.memRead (s.pixelAddr s.cont.pix)]

theorem State.reconOutline_none {s : State} (h : s.cont.res = none) : s.reconOutline = [] := by
  rw [State.reconOutline, h]

theorem State.reconOutline_read {s : State} {res : List Sample} (h : s.cont.res = some res) (ho : s.cont.old = none) :
    s.reconOutline =
      .itxCall (shapeCode s.shape) .full [] :: (List.range s.cont.pix).flatMap s.pixelOutline := by
  rw [State.reconOutline, h, ho]

theorem State.reconOutline_write {s : State} {res : List Sample} (h : s.cont.res = some res) {old : Byte}
    (ho : s.cont.old = some old) :
    s.reconOutline =
      .itxCall (shapeCode s.shape) .full [] :: (List.range s.cont.pix).flatMap s.pixelOutline ++
        [.memRead (s.pixelAddr s.cont.pix)] := by
  rw [State.reconOutline, h, ho]

/-- The outline of `m` coefficient requests. -/
def State.coefOutline (s : State) (m : Nat) : List Request := List.replicate m (.coefNext s.ctx.codingset)

theorem State.coefOutline_succ (s : State) (m : Nat) :
    s.coefOutline (m + 1) = s.coefOutline m ++ [.coefNext s.ctx.codingset] := List.replicate_succ'

theorem State.subOutline_skip (s : State) (sh : Shape) (k m : Nat) :
    s.subOutline sh true k m = s.coefOutline m := List.append_nil _

/-- The whole outline of the sub-block in progress, reconstruction included. -/
theorem State.subOutline_recon (s : State) (m : Nat) :
    s.subOutline s.shape false s.work.k.toNat m =
      s.coefOutline m ++ .itxCall (shapeCode s.shape) .full [] :: (List.range s.shape.cap).flatMap s.pixelOutline :=
  rfl

/-- `log` outlines the requests made in the sub-block loop so far, by the phase the loop is in. -/
structure LoopTrace (s : State) (log : List Request) : Prop where
  phase : s.phase = .pull ∨ s.phase = .recon ∨ s.phase = .finish
  pull : s.phase = .pull → ∃ done m, SubsTraced s s.work.k.toNat done ∧ m ≤ s.work.cur.toNat ∧
    log = done ++ s.coefOutline m
  recon : s.phase = .recon → ∃ done m, SubsTraced s s.work.k.toNat done ∧ (1 ≤ m ∧ m ≤ s.shape.cap + 1) ∧
    s.cont.ops.skipblk = false ∧ log = done ++ (s.coefOutline m ++ s.reconOutline)
  finish : s.phase = .finish → SubsTraced s s.shape.nsub log

/-- Where the loop is entered, no request has been made for the next sub-block. -/
theorem LoopTrace.of_enters {t : State} {first : Nat} {log : List Request}
    (h : EntersLoop t.shape t.work.wsubpat first t) (hfirst : first ≤ t.shape.nsub)
    (hlog : SubsTraced t first log) : LoopTrace t log := by
  rcases h with ⟨hp, hempty⟩ | ⟨hp, -, -, -, hle, -, -, hempty⟩
  · exact {
      phase := .inr (.inr hp)
      pull := fun e => by simp [hp] at e
      recon := fun e => by simp [hp] at e
      finish := fun _ => hlog.of_empty hfirst hempty }
  · exact {
      phase := .inl hp
      pull := fun _ => ⟨log, 0, hlog.of_empty hle hempty, Nat.zero_le _, (List.append_nil log).symm⟩
      recon := fun e => by simp [hp] at e
      finish := fun e => by simp [hp] at e }

theorem State.nextSub_loopTrace {s : State} (hk : s.work.k.toNat < s.shape.nsub) {log : List Request}
    (h : SubsTraced s (s.work.k.toNat + 1) log) : LoopTrace s.nextSub log := by
  refine .of_enters (first := s.work.k.toNat + 1) ?_ ?_ ?_
  · rw [State.nextSub_shape, State.nextSub_wsubpat]
    exact s.nextSub_entersLoop
  · rw [State.nextSub_shape]
    exact hk
  · exact h.congr s.nextSub_setting (State.enterFrom_wshape _ _ _) s.nextSub_wsubpat

/-- A placement loop that ends after `m` coefficient requests. -/
theorem LoopTrace.of_pullEnds {s t : State} {cur m : Nat} {cnt : BitVec 7} {done : List Request}
    (h : PullEnds s t cur cnt) (hset : SameSetting s t)
    (hsub : s.work.k.toNat < s.shape.nsub ∧ isEmptySub s.shape s.work.wsubpat s.work.k.toNat = false)
    (hdone : SubsTraced s s.work.k.toNat done) (hm : 1 ≤ m ∧ m ≤ s.shape.cap + 1) :
    LoopTrace t (done ++ s.coefOutline m) := by
  obtain ⟨hwshape, hwsubpat, hrecon, hskip⟩ := h
  have shape : t.shape = s.shape := congrArg shapeOf hwshape
  have coefs : t.coefOutline m = s.coefOutline m := by rw [State.coefOutline, State.coefOutline, hset.ctx]
  cases hk : s.cont.ops.skipblk with
  | true =>
    have traced := (hdone.snoc hsub.2 hm).congr hset hwshape hwsubpat
    rw [hk, State.subOutline_skip] at traced
    refine .of_enters (first := s.work.k.toNat + 1) ?_ ?_ traced
    · rw [shape, hwsubpat]
      exact hskip hk
    · rw [shape]
      exact hsub.1
  | false =>
    obtain ⟨hp, hsame, -, -, hres, -, -⟩ := hrecon hk
    refine ⟨.inr (.inl hp), fun e => by simp [hp] at e, fun _ => ⟨done, m, ?_, by rwa [shape], hset.ops ▸ hk, ?_⟩,
      fun e => by simp [hp] at e⟩
    · rw [hsame]
      exact hdone.congr hset hwshape hwsubpat
    · rw [State.reconOutline_none hres, List.append_nil, coefs]

/-- One coefficient request that is no error. -/
theorem State.takeTriple_loopTrace (c : Cfg) {s : State} (hphase : s.phase = .pull) (hloop : s.LoopInv)
    {a : CoefAnswer} (herr : a.err = false) {log : List Request} (h : LoopTrace s log) :
    LoopTrace (s.takeTriple c a) (log ++ [.coefNext s.ctx.codingset]) := by
  obtain ⟨done, m, hdone, hm, rfl⟩ := h.pull hphase
  have sub := hloop.loopSub (by rw [hphase]; rfl)
  obtain ⟨hcur, -⟩ := hloop.cursor hphase
  have setting := s.takeTriple_setting c a
  have shape := s.takeTriple_shape c a
  rw [List.append_assoc, ← State.coefOutline_succ]
  rcases Nat.lt_or_ge (s.work.cur.toNat + a.skip.toNat) s.shape.cap with hcap | hcap
  · cases hlast : a.last with
    | true =>
      exact .of_pullEnds (State.takeTriple_ends c hcur sub.1 herr hlast hcap).2 setting sub hdone
        ⟨by omega, by omega⟩
    | false =>
      obtain ⟨pull, -, sameSub, cursor, -⟩ := State.takeTriple_goes_on c hcur hphase herr hlast hcap
      refine ⟨.inl pull, fun _ => ⟨done, m + 1, ?_, by omega, ?_⟩, fun e => by simp [pull] at e,
        fun e => by simp [pull] at e⟩
      · rw [sameSub]
        exact hdone.congr setting shape.1 shape.2
      · rw [State.coefOutline, State.coefOutline, setting.ctx]
  · exact .of_pullEnds (State.takeTriple_discards c hcur sub.1 herr hcap).2.2 setting sub hdone ⟨by omega, by omega⟩

/-- The write of a pixel, the last request for it. -/
theorem State.pixelDone_loopTrace {s : State} (hphase : s.phase = .recon) (hloop : s.LoopInv) {res : List Sample}
    (hr : s.cont.res = some res) {old : Byte} (ho : s.cont.old = some old) {log : List Request}
    (h : LoopTrace s log) : LoopTrace s.pixelDone (log ++ [.memWrite (s.pixelAddr s.cont.pix) 0]) := by
  obtain ⟨done, m, hdone, hm, hskip, rfl⟩ := h.recon hphase
  have sub := hloop.loopSub (by rw [hphase]; rfl)
  have pixel := hloop.pixel hphase
  have next : SubsTraced s.nextPixel s.work.k.toNat done :=
    hdone.congr ⟨rfl, rfl, rfl, rfl, rfl, rfl, rfl, rfl, rfl, rfl⟩ rfl rfl
  have outline : done ++ (s.coefOutline m ++ s.reconOutline) ++ [.memWrite (s.pixelAddr s.cont.pix) 0] =
      done ++ (s.coefOutline m ++ .itxCall (shapeCode s.shape) .full [] ::
        (List.range (s.cont.pix + 1)).flatMap s.pixelOutline) := by
    rw [State.reconOutline_write hr ho]
    simp [List.range_succ, State.pixelOutline]
  rw [outline]
  unfold State.pixelDone
  split
  case isTrue hlt =>
    refine ⟨.inr (.inl hphase), fun e => by simp [hphase] at e, fun _ => ⟨done, m, next, hm, hskip, ?_⟩,
      fun e => by simp [hphase] at e⟩
    rw [State.reconOutline_read (s := s.nextPixel) hr rfl]
    rfl
  case isFalse hge =>
    have last : s.cont.pix + 1 = s.shape.cap := by omega
    have traced := next.snoc (s := s.nextPixel) sub.2 hm
    rw [last]
    have skip : s.nextPixel.cont.ops.skipblk = false := hskip
    rw [skip] at traced
    exact State.nextSub_loopTrace (s := s.nextPixel) sub.1 traced

/-- Every step in the loop that stays in the block makes one request, in the order of the outline. -/
theorem Ticked.loopTrace {c : Cfg} {s t : State} (h : Ticked c s t) (hloop : s.LoopInv)
    (ht : t.phase.inBlock = true) {log : List Request} (htrace : LoopTrace s log) :
    ∃ r, t.requests = s.requests ++ [r] ∧ LoopTrace t (log ++ [r.outline]) := by
  cases h with
  | check hp | rawGiven hp | rawRead hp | patGiven hp | patRead hp => simpa [hp] using htrace.phase
  | finish => cases ht
  | pull hp code rest =>
    cases herr : code.coef.err with
    | true =>
      rw [State.takeTriple_raises c _ herr] at ht
      cases ht
    | false =>
      refine ⟨.coefNext s.ctx.codingset, (State.takeTriple_ports c _ _).requests, ?_⟩
      exact State.takeTriple_loopTrace c (s := s.gotCode (.coefNext s.ctx.codingset) rest) hp
        ⟨hloop.loopSub, hloop.cursor, hloop.countCap, hloop.pixel⟩ herr
        ⟨htrace.phase, htrace.pull, htrace.recon, htrace.finish⟩
  | transform hp hr =>
    refine ⟨_, rfl, ?_⟩
    obtain ⟨done, m, hdone, hm, hskip, rfl⟩ := htrace.recon hp
    refine ⟨.inr (.inl hp), fun e => by simp [hp] at e, fun _ => ⟨done, m, ?_, hm, hskip, ?_⟩,
      fun e => by simp [hp] at e⟩
    · exact hdone.congr ⟨rfl, rfl, rfl, rfl, rfl, rfl, rfl, rfl, rfl, rfl⟩ rfl rfl
    · rw [State.reconOutline_none hr, State.reconOutline_read (s := (s.answered _).setRes _) rfl rfl]
      simp [State.coefOutline, Request.outline, State.shape]
  | pixelRead hp res hr ho =>
    refine ⟨_, rfl, ?_⟩
    obtain ⟨done, m, hdone, hm, hskip, rfl⟩ := htrace.recon hp
    refine ⟨.inr (.inl hp), fun e => by simp [hp] at e, fun _ => ⟨done, m, ?_, hm, hskip, ?_⟩,
      fun e => by simp [hp] at e⟩
    · exact hdone.congr ⟨rfl, rfl, rfl, rfl, rfl, rfl, rfl, rfl, rfl, rfl⟩ rfl rfl
    · rw [State.reconOutline_read hr ho, State.reconOutline_write (s := (s.answered _).setOld _) hr rfl]
      simp only [Request.outline, List.append_assoc]
      rfl
  | pixelWrite hp res hr old ho =>
    refine ⟨_, (State.pixelDone_ports _).requests, ?_⟩
    exact State.pixelDone_loopTrace (s := (s.answered _).setByte _ _) hp
      ⟨hloop.loopSub, hloop.cursor, hloop.countCap, hloop.pixel⟩ hr ho
      ⟨htrace.phase, htrace.pull, htrace.recon, htrace.finish⟩

end Sys2Proof.Machine
end

section
/-! PROOFS. How far a `DECBLK` has come and the requests it has made (`spec/41_decblk.md` rules R115 to R120,
`spec/42_partition_selector.md` rules R128 to R136). -/

namespace Sys2Proof.Machine

open Sys2Proof

/-! ## The selector -/

/-- The read of the shape symbol, if the command gives no shape (R128). -/
def shapeReads (x : Ctx) (ops : DecOps) : List Request :=
  if ops.noshape then [.symRead .ttblk x.regime] else []

theorem symbolRequests_of_none {x : Ctx} {ops : DecOps} {stream : List Code}
    (h : patternReadFor x ops stream = none) : symbolRequests x ops stream = shapeReads x ops := by
  rw [symbolRequests, h]
  exact List.append_nil _

theorem symbolRequests_of_some {x : Ctx} {ops : DecOps} {stream : List Code} {cls : SymClass}
    (h : patternReadFor x ops stream = some cls) :
    symbolRequests x ops stream = shapeReads x ops ++ [.symRead cls x.regime] := by
  rw [symbolRequests, h]
  rfl

theorem length_shapeReads_le (x : Ctx) (ops : DecOps) : (shapeReads x ops).length ≤ 1 := by
  unfold shapeReads
  split <;> simp

theorem length_symbolRequests_le (x : Ctx) (ops : DecOps) (stream : List Code) :
    (symbolRequests x ops stream).length ≤ 2 := by
  have reads := length_shapeReads_le x ops
  cases h : patternReadFor x ops stream with
  | none =>
    rw [symbolRequests_of_none h]
    omega
  | some cls =>
    rw [symbolRequests_of_some h, List.length_append, List.length_singleton]
    omega

theorem eq_symRead_of_mem_shapeReads {x : Ctx} {ops : DecOps} {r : Request} (h : r ∈ shapeReads x ops) :
    ∃ cls, r = .symRead cls x.regime := by
  unfold shapeReads at h
  split at h
  · exact ⟨_, List.mem_singleton.1 h⟩
  · simp at h

theorem eq_symRead_of_mem_symbolRequests {x : Ctx} {ops : DecOps} {stream : List Code} {r : Request}
    (h : r ∈ symbolRequests x ops stream) : ∃ cls, r = .symRead cls x.regime := by
  cases hread : patternReadFor x ops stream with
  | none =>
    rw [symbolRequests_of_none hread] at h
    exact eq_symRead_of_mem_shapeReads h
  | some cls =>
    rw [symbolRequests_of_some hread] at h
    rcases List.mem_append.1 h with h | h
    · exact eq_symRead_of_mem_shapeReads h
    · exact ⟨cls, List.mem_singleton.1 h⟩

/-! ## The whole block -/

/-- How far the block that began in `s` has come in `u`: before `RAW`, before the sub-pattern, or in the loop with
shape and sub-pattern those of the command, the context and the stream, and the requests in the order of R119. -/
inductive BlockTrace (c : Cfg) (s : State) (ops : DecOps) (u : State) : Prop
  | raw (hp : u.phase = .select) (hr : u.cont.rawDone = false) (hreq : u.requests = s.requests)
      (hs : u.stream = s.stream)
  | pat (hp : u.phase = .select) (hr : u.cont.rawDone = true) (hreq : u.requests = s.requests ++ shapeReads s.ctx ops)
      (hs : u.stream = afterRaw ops s.stream) (hraw : u.work.raw = rawFor ops s.stream)
  | loop (hshape : u.work.wshape = shapeCode (shapeFor ops s.stream))
      (hsubpat : u.work.wsubpat = subpatFor c s.ctx ops s.stream) (log : List Request)
      (hreq : u.requests = s.requests ++ symbolRequests s.ctx ops s.stream ++ log)
      (htrace : LoopTrace u (log.map Request.outline))

/-- The loop is entered with no request made in it. -/
theorem BlockTrace.of_selected {c : Cfg} {s v : State} {ops : DecOps} {w : BitVec 4}
    (hreq : v.requests = s.requests ++ symbolRequests s.ctx ops s.stream) (hraw : v.work.raw = rawFor ops s.stream)
    (hw : w = subpatFor c s.ctx ops s.stream) : BlockTrace c s ops (v.selected w) := by
  have shape : (v.selected w).shape = canonical (rawShapeOf v.work.raw) := State.selected_shape _ _
  have enters : EntersLoop (v.selected w).shape (v.selected w).work.wsubpat 0 (v.selected w) := by
    rw [shape, State.selected_wsubpat]
    exact v.selected_enters w
  refine .loop ?_ ((State.selected_wsubpat _ _).trans hw) [] ?_ (.of_enters enters (Nat.zero_le _) (.nil _))
  · rw [State.selected_wshape, hraw, shapeFor]
  · rw [(v.selected_ports w).requests, hreq, List.append_nil]

/-- Every step that stays in the block goes on with the trace. -/
theorem BlockTrace.ticked {c : Cfg} {s u t : State} {ops : DecOps} (hu : BlockTrace c s ops u)
    (hset : SameSetting (s.begun ops) u) (hloop : u.LoopInv) (h : Ticked c u t) (ht : t.phase.inBlock = true) :
    BlockTrace c s ops t := by
  have ctx : u.ctx = s.ctx := hset.ctx
  have hops : u.cont.ops = ops := hset.ops
  cases hu with
  | raw hp hr hreq hs =>
    cases h with
    | rawGiven _ _ hn =>
      rw [hops] at hn
      refine .pat hp rfl ?_ ?_ ?_
      · rw [shapeReads, hn]
        exact hreq.trans (List.append_nil _).symm
      · rw [afterRaw, hn]
        exact hs
      · rw [rawFor, hn, hops]
        rfl
    | rawRead _ _ hn code rest hcode =>
      rw [hops] at hn
      rw [hs] at hcode
      refine .pat hp rfl ?_ ?_ ?_
      · rw [shapeReads, hn, ← hreq, ← ctx]
        rfl
      · rw [afterRaw, hn, hcode]
        rfl
      · rw [rawFor, hn, hcode]
        rfl
    | patGiven _ hr' | patRead _ hr' => simp [hr] at hr'
    | check hp' | pull hp' | transform hp' | pixelRead hp' | pixelWrite hp' | finish hp' => simp [hp] at hp'
  | pat hp hr hreq hs hraw =>
    cases h with
    | rawGiven _ hr' | rawRead _ hr' => simp [hr] at hr'
    | patGiven _ _ hread =>
      rw [hraw, hops, ctx] at hread
      refine .of_selected ?_ hraw ?_
      · rw [symbolRequests_of_none hread, hreq]
      · rw [subpatFor, hraw, patternReadFor, hread]
    | patRead _ _ cls hread code rest hcode =>
      rw [hraw, hops, ctx] at hread
      refine .of_selected ?_ hraw ?_
      · rw [symbolRequests_of_some hread, ← List.append_assoc, ← hreq, ← ctx]
        rfl
      · rw [subpatFor, patternReadFor, hread, ← hs, hcode]
        rfl
    | check hp' | pull hp' | transform hp' | pixelRead hp' | pixelWrite hp' | finish hp' => simp [hp] at hp'
  | loop hshape hsubpat log hreq htrace =>
    obtain ⟨r, hr, trace⟩ := h.loopTrace hloop ht htrace
    rcases h.shape with ⟨sameShape, sameSubpat⟩ | ⟨hselect, -⟩
    · refine .loop (sameShape.trans hshape) (sameSubpat.trans hsubpat) (log ++ [r]) ?_ ?_
      · rw [hr, hreq, List.append_assoc]
      · rwa [List.map_append]
    · simpa [hselect] using htrace.phase

theorem Ticks.blockTrace {c : Cfg} {s u : State} {ops : DecOps} (h : Ticks c (s.begun ops) u)
    (hu : u.phase.inBlock = true) : BlockTrace c s ops u := by
  have kept := Ticks.keeps_inBlock (P := fun v => (v.LoopInv ∧ SameSetting (s.begun ops) v) ∧ BlockTrace c s ops v)
    (fun _ ht hv step => ⟨⟨step.loopInv hv.1.1, hv.1.2.trans step.setting⟩, hv.2.ticked hv.1.2 hv.1.1 step ht⟩)
    h rfl hu ⟨⟨s.begun_loopInv ops, .refl _⟩, .raw rfl rfl rfl rfl⟩
  exact kept.2

end Sys2Proof.Machine
end

section
/-! PROOFS. The bounds on the requests of a `DECBLK` (`spec/41_decblk.md` rules R119, R120,
`spec/70_reset_and_hazards.md` rule R266). -/

namespace Sys2Proof.Machine

open Sys2Proof

/-! ## The stream -/

/-- The stream has moved by one code for each request on it (R43, R200, R205). -/
theorem Ticks.stream {c : Cfg} {s t : State} (h : Ticks c s t) :
    ∃ log, t.requests = s.requests ++ log ∧ t.stream = s.stream.drop (log.countP Request.onStream) := by
  refine Ticks.keeps (P := fun u => ∃ log, u.requests = s.requests ++ log ∧
    u.stream = s.stream.drop (log.countP Request.onStream)) ?_ h ⟨[], (List.append_nil _).symm, rfl⟩
  rintro u v ⟨log, hreq, hs⟩ step
  rcases step.request with ⟨hv, hr⟩ | ⟨hv, r, hoff, hr⟩ | ⟨code, r, hv, hon, hr⟩
  · exact ⟨log, hr.trans hreq, hv.trans hs⟩
  · refine ⟨log ++ [r], by rw [hr, hreq, List.append_assoc], ?_⟩
    rw [List.countP_append, List.countP_singleton, hoff]
    exact hv.trans hs
  · refine ⟨log ++ [r], by rw [hr, hreq, List.append_assoc], ?_⟩
    rw [List.countP_append, List.countP_singleton, hon, if_pos rfl, ← List.drop_drop, ← hs, hv]
    rfl

/-! ## The kinds of requests -/

/-- The request is one on the symbol port (R201). -/
def Request.isSym : Request → Bool
  | .symRead _ _ => true
  | _ => false

/-- The request is one on the transform port (R208). -/
def Request.isTransform : Request → Bool
  | .itxCall _ _ _ => true
  | _ => false

/-- The request is a read on the memory port (R212). -/
def Request.isRead : Request → Bool
  | .memRead _ => true
  | _ => false

/-- The request is a write on the memory port (R212). -/
def Request.isWrite : Request → Bool
  | .memWrite _ _ => true
  | _ => false

/-- The outline of a request is of the same kind. -/
theorem Request.kind_outline (r : Request) : r.outline.isSym = r.isSym ∧ r.outline.isCoef = r.isCoef ∧
    r.outline.isTransform = r.isTransform ∧ r.outline.isRead = r.isRead ∧ r.outline.isWrite = r.isWrite := by
  cases r <;> exact ⟨rfl, rfl, rfl, rfl, rfl⟩

theorem Request.onStream_eq (r : Request) : r.onStream = (r.isSym || r.isCoef) := by cases r <;> rfl

theorem countP_map_outline {f : Request → Bool} (hf : ∀ r, f r.outline = f r) (log : List Request) :
    (log.map Request.outline).countP f = log.countP f := by
  rw [List.countP_map, show f ∘ Request.outline = f from funext hf]

/-! ## The requests of a loop are the beginning of a whole outline -/

theorem State.coefOutline_prefix_subOutline (s : State) (sh : Shape) (skip : Bool) (k m : Nat) :
    s.coefOutline m <+: s.subOutline sh skip k m := List.prefix_append _ _

/-- The requests for some pixels are the beginning of those for more. -/
theorem State.pixels_prefix (s : State) {m n : Nat} (h : m ≤ n) :
    (List.range m).flatMap s.pixelOutline <+: (List.range n).flatMap s.pixelOutline := by
  obtain ⟨d, rfl⟩ := Nat.exists_eq_add_of_le h
  rw [List.range_add, List.flatMap_append]
  exact List.prefix_append _ _

theorem State.reconOutline_prefix {s : State} (hpix : s.cont.pix < s.shape.cap) :
    s.reconOutline <+:
      .itxCall (shapeCode s.shape) .full [] :: (List.range s.shape.cap).flatMap s.pixelOutline := by
  cases hr : s.cont.res with
  | none => exact State.reconOutline_none hr ▸ List.nil_prefix
  | some res =>
    cases ho : s.cont.old with
    | none => exact State.reconOutline_read hr ho ▸ (List.cons_prefix_cons.2 ⟨rfl, s.pixels_prefix hpix.le⟩)
    | some old =>
      rw [State.reconOutline_write hr ho, List.cons_append]
      refine List.cons_prefix_cons.2 ⟨rfl, List.IsPrefix.trans ?_ (s.pixels_prefix hpix)⟩
      rw [List.range_succ, List.flatMap_append]
      exact (List.prefix_append_right_inj _).2 ⟨[.memWrite (s.pixelAddr s.cont.pix) 0], by simp [State.pixelOutline]⟩

/-- In the loop the requests made, with the one outstanding in `PULL`, are the beginning of the outline of sub-blocks
done. -/
theorem LoopTrace.isPrefix {s : State} {log : List Request} (h : LoopTrace s log) (hloop : s.LoopInv) :
    ∃ k whole, k ≤ s.shape.nsub ∧ SubsTraced s k whole ∧ log <+: whole ∧
      (s.phase = .pull → log ++ [.coefNext s.ctx.codingset] <+: whole) := by
  rcases h.phase with hp | hp | hp
  · obtain ⟨done, m, hdone, hm, rfl⟩ := h.pull hp
    obtain ⟨hk, hempty⟩ := hloop.loopSub (by rw [hp]; rfl)
    obtain ⟨hcur, -⟩ := hloop.cursor hp
    have next : (done ++ s.coefOutline m) ++ [.coefNext s.ctx.codingset] <+:
        done ++ s.subOutline s.shape s.cont.ops.skipblk s.work.k.toNat (m + 1) := by
      rw [List.append_assoc, ← State.coefOutline_succ]
      exact (List.prefix_append_right_inj _).2 (s.coefOutline_prefix_subOutline _ _ _ _)
    exact ⟨_, _, hk, hdone.snoc hempty ⟨by omega, by omega⟩, (List.prefix_append _ _).trans next, fun _ => next⟩
  · obtain ⟨done, m, hdone, hm, hskip, rfl⟩ := h.recon hp
    obtain ⟨hk, hempty⟩ := hloop.loopSub (by rw [hp]; rfl)
    refine ⟨_, _, hk, hdone.snoc hempty hm, ?_, fun e => by simp [hp] at e⟩
    rw [hskip, State.subOutline_recon]
    exact (List.prefix_append_right_inj _).2
      ((List.prefix_append_right_inj _).2 (State.reconOutline_prefix (hloop.pixel hp)))
  · exact ⟨_, _, le_rfl, h.finish hp, List.prefix_rfl, fun e => by simp [hp] at e⟩

/-! ## Counting -/

/-- What is counted at most `B` times in each sub-block is counted at most `k * B` times below sub-block `k`. -/
theorem SubsTraced.countP_le {s : State} {k B : Nat} {whole : List Request} (h : SubsTraced s k whole)
    {f : Request → Bool}
    (hf : ∀ j m, m ≤ s.shape.cap + 1 → (s.subOutline s.shape s.cont.ops.skipblk j m).countP f ≤ B) :
    whole.countP f ≤ k * B := by
  obtain ⟨pairs, subs, counts, rfl⟩ := h
  have len : pairs.length ≤ k := by
    rw [← List.length_map (f := Prod.fst), subs]
    exact length_presentBelow_le _ _ _
  rw [List.countP_flatMap]
  calc (pairs.map (List.countP f ∘ fun p => s.subOutline s.shape s.cont.ops.skipblk p.1 p.2)).sum
      ≤ pairs.length • B := by
        refine (List.sum_le_card_nsmul _ B fun n hn => ?_).trans_eq (by rw [List.length_map])
        obtain ⟨p, hp, rfl⟩ := List.mem_map.1 hn
        exact hf _ _ (counts p hp).2
    _ ≤ k * B := Nat.mul_le_mul_right B len

/-- The requests of one sub-block by kind (R119). -/
theorem State.countP_subOutline_le (s : State) (sh : Shape) (skip : Bool) (k m : Nat) :
    (s.subOutline sh skip k m).countP Request.isSym = 0 ∧ (s.subOutline sh skip k m).countP Request.isCoef = m ∧
      (s.subOutline sh skip k m).countP Request.isTransform ≤ 1 ∧
      (s.subOutline sh skip k m).countP Request.isRead ≤ sh.cap ∧
      (s.subOutline sh skip k m).countP Request.isWrite ≤ sh.cap := by
  cases skip <;>
    simp [State.subOutline, List.countP_replicate, List.countP_flatMap, List.countP_cons, Function.comp_def,
      Request.isSym, Request.isCoef, Request.isTransform, Request.isRead, Request.isWrite]

/-- Requests within the bounds of R120: no symbol read, 68 coefficients, 4 transforms, 64 reads, 64 writes. -/
structure WithinBounds (log : List Request) : Prop where
  sym : log.countP Request.isSym = 0
  coef : log.countP Request.isCoef ≤ 68
  transform : log.countP Request.isTransform ≤ 4
  read : log.countP Request.isRead ≤ 64
  write : log.countP Request.isWrite ≤ 64

theorem WithinBounds.nil : WithinBounds [] := ⟨rfl, Nat.zero_le _, Nat.zero_le _, Nat.zero_le _, Nat.zero_le _⟩

/-- The requests on the stream are those for coefficients. -/
theorem WithinBounds.countP_onStream {log : List Request} (h : WithinBounds log) :
    log.countP Request.onStream = log.countP Request.isCoef := by
  refine List.countP_congr fun r hr => ?_
  have notSym := List.countP_eq_zero.1 h.sym r hr
  simp [Request.onStream_eq, notSym]

theorem shape_bounds (sh : Shape) : sh.nsub * (sh.cap + 1) ≤ 68 ∧ sh.nsub ≤ 4 ∧ sh.nsub * sh.cap = 64 := by
  cases sh <;> decide

/-- The beginning of the outline of sub-blocks done is within the bounds. -/
theorem SubsTraced.withinBounds {s : State} {k : Nat} {whole log : List Request} (h : SubsTraced s k whole)
    (hk : k ≤ s.shape.nsub) (hlog : log.map Request.outline <+: whole) : WithinBounds log := by
  obtain ⟨coefs, subs, pixels⟩ := shape_bounds s.shape
  have bound {f : Request → Bool} (B : Nat) (hout : ∀ r, f r.outline = f r)
      (hf : ∀ j m, m ≤ s.shape.cap + 1 → (s.subOutline s.shape s.cont.ops.skipblk j m).countP f ≤ B) :
      log.countP f ≤ s.shape.nsub * B := by
    rw [← countP_map_outline hout]
    exact (hlog.sublist.countP_le).trans ((h.countP_le hf).trans (Nat.mul_le_mul_right B hk))
  have outline := Request.kind_outline
  have sub := s.countP_subOutline_le s.shape s.cont.ops.skipblk
  exact {
    sym := Nat.le_zero.1 (bound 0 (fun r => (outline r).1) fun j m _ => (sub j m).1.le)
    coef := (bound _ (fun r => (outline r).2.1) fun j m hm => (sub j m).2.1.trans_le hm).trans coefs
    transform := (bound 1 (fun r => (outline r).2.2.1) fun j m _ => (sub j m).2.2.1).trans (by omega)
    read := (bound _ (fun r => (outline r).2.2.2.1) fun j m _ => (sub j m).2.2.2.1).trans_eq pixels
    write := (bound _ (fun r => (outline r).2.2.2.2) fun j m _ => (sub j m).2.2.2.2).trans_eq pixels }

/-- Wherever a block has come, its requests are symbol reads and then requests within the bounds, with the one
outstanding in `PULL`; and the stream has moved by one code for each symbol and coefficient. -/
theorem Ticks.withinBounds {c : Cfg} {s v : State} {ops : DecOps} (h : Ticks c (s.begun ops) v)
    (hv : v.phase.inBlock = true) :
    ∃ syms others, v.requests = s.requests ++ syms ++ others ∧ syms.length ≤ 2 ∧
      (v.phase = .select → syms.length ≤ 1) ∧
      (∀ r ∈ syms, ∃ cls, r = .symRead cls s.ctx.regime) ∧ WithinBounds others ∧
      (v.phase = .pull → WithinBounds (others ++ [.coefNext s.ctx.codingset])) ∧
      v.stream = s.stream.drop (syms.length + others.countP Request.isCoef) := by
  have moved {syms others : List Request} (hreq : v.requests = s.requests ++ syms ++ others)
      (hsyms : ∀ r ∈ syms, ∃ cls, r = .symRead cls s.ctx.regime) (hothers : WithinBounds others) :
      v.stream = s.stream.drop (syms.length + others.countP Request.isCoef) := by
    obtain ⟨log, hlog, hs⟩ := Ticks.stream h
    have same : log = syms ++ others := by
      rw [hreq, List.append_assoc] at hlog
      exact (List.append_cancel_left hlog).symm
    have onStream : syms.countP Request.onStream = syms.length := by
      refine List.countP_eq_length.2 fun r hr => ?_
      obtain ⟨cls, rfl⟩ := hsyms r hr
      rfl
    rw [hs, same, List.countP_append, onStream, hothers.countP_onStream]
    rfl
  cases Ticks.blockTrace h hv with
  | raw hp hr hreq hs =>
    exact ⟨[], [], by simpa using hreq, Nat.zero_le _, fun _ => Nat.zero_le _, nofun, .nil,
      fun e => by simp [hp] at e, hs⟩
  | pat hp hr hreq hs hraw =>
    have len := length_shapeReads_le s.ctx ops
    have hreq : v.requests = s.requests ++ shapeReads s.ctx ops ++ [] := by rw [hreq, List.append_nil]
    have syms : ∀ r ∈ shapeReads s.ctx ops, ∃ cls, r = .symRead cls s.ctx.regime :=
      fun r hr => eq_symRead_of_mem_shapeReads hr
    exact ⟨_, _, hreq, by omega, fun _ => len, syms, .nil, fun e => by simp [hp] at e, moved hreq syms .nil⟩
  | loop hshape hsubpat log hreq htrace =>
    obtain ⟨k, whole, hk, hwhole, hlog, hnext⟩ := htrace.isPrefix (Ticks.loopInv h (s.begun_loopInv ops))
    have syms : ∀ r ∈ symbolRequests s.ctx ops s.stream, ∃ cls, r = .symRead cls s.ctx.regime :=
      fun r hr => eq_symRead_of_mem_symbolRequests hr
    have within : WithinBounds log := hwhole.withinBounds hk hlog
    have ctx : v.ctx = s.ctx := (Ticks.setting h).ctx
    refine ⟨_, _, hreq, length_symbolRequests_le _ _ _, fun e => ?_, syms, within, fun e => ?_,
      moved hreq syms within⟩
    · simpa [e] using htrace.phase
    · refine hwhole.withinBounds hk ?_
      rw [List.map_append, ← ctx]
      exact hnext e

/-- The requests of every `DECBLK`, however it ends or waits. -/
theorem DecblkOutcome.withinBounds {s t : State} {ops : DecOps} (h : DecblkOutcome s ops t) :
    ∃ syms others, t.requests = s.requests ++ syms ++ others ∧ syms.length ≤ 2 ∧
      (∀ r ∈ syms, ∃ cls, r = .symRead cls s.ctx.regime) ∧ WithinBounds others ∧
      t.stream = s.stream.drop (syms.length + others.countP Request.isCoef) := by
  have noRequest (hreq : t.requests = s.requests) (hs : t.stream = s.stream) :
      ∃ syms others, t.requests = s.requests ++ syms ++ others ∧ syms.length ≤ 2 ∧
        (∀ r ∈ syms, ∃ cls, r = .symRead cls s.ctx.regime) ∧ WithinBounds others ∧
        t.stream = s.stream.drop (syms.length + others.countP Request.isCoef) :=
    ⟨[], [], by simpa using hreq, Nat.zero_le _, nofun, .nil, hs⟩
  cases h with
  | refused _ ht => exact ht ▸ noRequest (ht ▸ rfl) (ht ▸ rfl)
  | illegal _ ht =>
    have ports := s.raiseFault_ports .eIllcmd 0
    exact noRequest (ht ▸ ports.requests) (ht ▸ ports.stream)
  | unready _ code _ ht =>
    have ports := (s.startBlock ops).raiseFault_ports code 0
    exact noRequest (ht ▸ ports.requests) (ht ▸ ports.stream)
  | completes _ v path hphase ht =>
    obtain ⟨syms, others, hreq, hlen, -, hsyms, within, -, hs⟩ := Ticks.withinBounds path (by rw [hphase]; rfl)
    have ports := v.finishBlock_ports
    exact ⟨syms, others, by rw [ht, ports.requests, hreq], hlen, hsyms, within, by rw [ht, ports.stream, hs]⟩
  | fails _ v path hphase code rest hcode _ _ ht =>
    obtain ⟨syms, others, hreq, hlen, -, hsyms, -, within, hs⟩ := Ticks.withinBounds path (by rw [hphase]; rfl)
    have ports := ((v.gotCode (.coefNext v.ctx.codingset) rest).setPlaced v.work.k.toNat v.work.cnt).raiseFault_ports
      .eStream v.work.k
    have ctx : v.ctx = s.ctx := (Ticks.setting path).ctx
    refine ⟨syms, others ++ [.coefNext s.ctx.codingset], ?_, hlen, hsyms, within hphase, ?_⟩
    · rw [ht, State.streamFault, ports.requests, ← List.append_assoc, ← hreq, ← ctx]
      rfl
    · rw [ht, State.streamFault, ports.stream, List.countP_append, ← Nat.add_assoc, ← List.drop_drop, ← hs, hcode]
      rfl
  | waits _ _ v path hphase _ r ht =>
    obtain ⟨syms, others, hreq, hlen, -, hsyms, within, -, hs⟩ := Ticks.withinBounds path hphase
    exact ⟨syms, others, ht ▸ hreq, hlen, hsyms, within, ht ▸ hs⟩

/-- Settles O48: the bounds along the block, however it ends or waits. -/
theorem requestBudget : Obligations.RequestBudget := by
  intro s t tt ns f k o n h
  obtain ⟨syms, others, hreq, hlen, hsyms, within, hs⟩ := (exec_decblk_outcome h).withinBounds
  have count {f g : Request → Bool} (hfg : ∀ r, f r = g r) : others.countP f = others.countP g := by rw [funext hfg]
  refine ⟨syms, others, hreq, hlen, hsyms, fun r hr cls reg e => ?_, (count fun r => ?_).trans_le within.coef,
    (count fun r => ?_).trans_le within.transform, (count fun r => ?_).trans_le within.read,
    (count fun r => ?_).trans_le within.write, ?_⟩
  · exact List.countP_eq_zero.1 within.sym r hr (e ▸ rfl)
  · cases r <;> rfl
  · cases r <;> rfl
  · cases r <;> rfl
  · cases r <;> rfl
  · rw [hs]
    congr 2
    exact count fun r => by cases r <;> rfl

end Sys2Proof.Machine
end

section
/-! PROOFS. Every `DECBLK` completes when the agents answer and the stream is sound (`spec/41_decblk.md` rules R110,
R119, R120, `spec/70_reset_and_hazards.md` rule R266). -/

namespace Sys2Proof.Machine

open Sys2Proof

/-! ## The environment along the block -/

/-- Agents that answer every request go on answering. -/
theorem Ticked.grants_none {c : Cfg} {s t : State} (h : Ticked c s t) (hs : s.grants = none) : t.grants = none := by
  have free : s.unlimited = s := by rw [State.unlimited, ← hs]
  have again : tick c s = .answer () t.unlimited := (tick_answer_iff c _ _).2 (free ▸ h.unlimited)
  rw [(tick_answer_iff c s t).2 h] at again
  obtain ⟨-, e⟩ := Reply.answer.inj again
  rw [e]
  rfl

theorem Ticks.environmentAnswers {c : Cfg} {s t : State} (h : Ticks c s t) (hs : s.environmentAnswers) :
    t.environmentAnswers := by
  refine ⟨Ticks.keeps (P := fun u => u.grants = none) (fun hu step => step.grants_none hu) h hs.1, fun a => ?_⟩
  rw [State.areaAt, (Ticks.setting h).platform]
  exact hs.2 a

/-- The next code is there and is no error. -/
def State.nextCodeSound (s : State) : Prop := ∃ code rest, s.stream = code :: rest ∧ code.coef.err = false

theorem State.nextCodeSound_of_drop {s v : State} {m n : Nat} (h : s.streamSound m) (hn : n < m)
    (hv : v.stream = s.stream.drop n) : v.nextCodeSound := by
  obtain ⟨hlen, hsound⟩ := h
  have hlt : n < s.stream.length := by omega
  refine ⟨_, _, hv.trans (List.drop_eq_getElem_cons hlt), hsound _ ?_⟩
  exact List.mem_take_iff_getElem.2 ⟨n, by omega, rfl⟩

/-- A phase that needs a code finds one on a stream of 70 sound codes. -/
theorem Ticks.nextCodeSound {c : Cfg} {s v : State} {ops : DecOps} (h : Ticks c (s.begun ops) v)
    (hs : s.streamSound 70) (hv : v.phase = .select ∨ v.phase = .pull) : v.nextCodeSound := by
  have inBlock : v.phase.inBlock = true := by rcases hv with hp | hp <;> rw [hp] <;> rfl
  obtain ⟨syms, others, -, hlen, hselect, -, within, hpull, hstream⟩ := Ticks.withinBounds h inBlock
  refine State.nextCodeSound_of_drop hs ?_ hstream
  rcases hv with hp | hp
  · have few := hselect hp
    have coef := within.coef
    omega
  · have coef := (hpull hp).coef
    rw [List.countP_append, List.countP_singleton, Request.isCoef, if_pos rfl] at coef
    omega

/-! ## Progress -/

/-- A step that finds an agent and a sound code stays in the block, up to `FINISH`. -/
theorem exists_ticked (c : Cfg) {v : State} (hv : v.phase.inBlock = true) (hfinish : v.phase ≠ .finish)
    (henv : v.environmentAnswers) (hcode : v.phase = .select ∨ v.phase = .pull → v.nextCodeSound) :
    ∃ t, Ticked c v t ∧ t.phase.inBlock = true := by
  have answers : v.agentsAnswer = true := by rw [State.agentsAnswer, henv.1]; rfl
  have goesOn : ∃ t, Ticked c v t := by
    cases hp : v.phase with
    | idle | exec | check => simp [hp, Phase.inBlock] at hv
    | finish => exact absurd hp hfinish
    | select =>
      obtain ⟨code, rest, hs, -⟩ := hcode (.inl hp)
      cases hr : v.cont.rawDone with
      | false =>
        cases hn : v.cont.ops.noshape with
        | false => exact ⟨_, .rawGiven hp hr hn⟩
        | true => exact ⟨_, .rawRead hp hr hn code rest hs answers⟩
      | true =>
        cases hread : patternRead (rawShapeOf v.work.raw) v.cont.ops.noshape v.cont.ops.first v.ctx.patf
            v.ctx.resred with
        | none => exact ⟨_, .patGiven hp hr hread⟩
        | some cls => exact ⟨_, .patRead hp hr cls hread code rest hs answers⟩
    | pull =>
      obtain ⟨code, rest, hs, -⟩ := hcode (.inr hp)
      exact ⟨_, .pull hp code rest hs answers⟩
    | recon =>
      cases hr : v.cont.res with
      | none => exact ⟨_, .transform hp hr answers⟩
      | some res =>
        cases ho : v.cont.old with
        | none => exact ⟨_, .pixelRead hp res hr ho (henv.2 _) answers⟩
        | some old => exact ⟨_, .pixelWrite hp res hr old ho (henv.2 _) answers⟩
  obtain ⟨t, step⟩ := goesOn
  refine ⟨t, step, ?_⟩
  rcases step.outcome with ⟨hp, -⟩ | ⟨hp, -⟩ | ⟨hp, code, rest, hs, -, herr, -⟩ | ⟨-, stays, -⟩
  · simp [hp, Phase.inBlock] at hv
  · exact absurd hp hfinish
  · obtain ⟨code', rest', hs', hsound⟩ := hcode (.inr hp)
    obtain ⟨rfl, -⟩ := List.cons.inj (hs.symm.trans hs')
    simp [herr] at hsound
  · exact stays

/-- From anywhere in the block it goes on to `FINISH`, by induction on the steps left (R120). -/
theorem Ticks.reaches_finish {c : Cfg} {s u : State} {ops : DecOps} (henv : s.environmentAnswers)
    (hsound : s.streamSound 70) (h : Ticks c (s.begun ops) u) (hu : u.phase.inBlock = true) :
    ∃ v, Ticks c (s.begun ops) v ∧ v.phase = .finish := by
  induction hn : u.rank using Nat.strong_induction_on generalizing u with
  | _ n ih =>
    by_cases hfinish : u.phase = .finish
    · exact ⟨u, h, hfinish⟩
    · obtain ⟨t, step, ht⟩ := exists_ticked c hu hfinish (Ticks.environmentAnswers h henv) fun hp =>
        Ticks.nextCodeSound h hsound hp
      exact ih t.rank (hn ▸ step.rank_lt (Ticks.loopInv h (s.begun_loopInv ops))) (h.tail step) ht rfl

/-- A `DECBLK` whose steps lead to `IDLE` ends there. -/
theorem exec_decblk_of_ticks {s t : State} {ops : DecOps} (hready : s.hostReady)
    (hwf : ops.noshape = true → ops.ttcode = 0) (path : Ticks Config.vrd (s.begun ops) t) (ht : t.phase = .idle) :
    exec (.decblk ops.ttcode ops.noshape ops.first ops.skipblk ops.ttout ops.n) s = .next t := by
  rw [exec_decblk_of_ready hready hwf,
    run_ticks path (s.begun_loopInv ops) (by rw [State.begun_rank]; omega)]
  exact run_idle _ _ _ ht

/-- What every `DECBLK` does on a ready VRD with answering agents and 70 sound codes ahead (R110, R119, R120). -/
theorem exec_decblk_completes {s : State} {ops : DecOps} (hready : s.hostReady) (henv : s.environmentAnswers)
    (hsound : s.streamSound 70) (hwf : ops.noshape = true → ops.ttcode = 0) :
    ∃ v, exec (.decblk ops.ttcode ops.noshape ops.first ops.skipblk ops.ttout ops.n) s = .next v.finishBlock ∧
      Ticks Config.vrd (s.begun ops) v ∧ v.phase = .finish := by
  obtain ⟨v, path, hv⟩ := Ticks.reaches_finish henv hsound (.refl : Ticks Config.vrd (s.begun ops) _) rfl
  exact ⟨v, exec_decblk_of_ticks hready hwf (path.tail (.finish hv)) rfl, path, hv⟩

/-- The block in `FINISH`: shape and sub-pattern, and the whole order of its requests. -/
theorem Ticks.traced_finish {c : Cfg} {s v : State} {ops : DecOps} (path : Ticks c (s.begun ops) v)
    (hv : v.phase = .finish) :
    v.work.wshape = shapeCode (shapeFor ops s.stream) ∧ v.work.wsubpat = subpatFor c s.ctx ops s.stream ∧
      ∃ log, v.requests = s.requests ++ symbolRequests s.ctx ops s.stream ++ log ∧ WithinBounds log ∧
        ∃ counts : List Nat,
          counts.length = (presentSubs (shapeFor ops s.stream) (subpatFor c s.ctx ops s.stream)).length ∧
          (∀ m ∈ counts, 1 ≤ m ∧ m ≤ (shapeFor ops s.stream).cap + 1) ∧
          log.map Request.outline =
            ((presentSubs (shapeFor ops s.stream) (subpatFor c s.ctx ops s.stream)).zip counts).flatMap
              fun p => s.subOutline (shapeFor ops s.stream) ops.skipblk p.1 p.2 := by
  cases Ticks.blockTrace path (by rw [hv]; rfl) with
  | raw hp | pat hp => simp [hv] at hp
  | loop hshape hsubpat log hreq htrace =>
    refine ⟨hshape, hsubpat, log, hreq, (htrace.finish hv).withinBounds le_rfl List.prefix_rfl, ?_⟩
    have shape : v.shape = shapeFor ops s.stream := by rw [State.shape, hshape, shapeOf_shapeCode]
    have setting := Ticks.setting path
    have outline : v.subOutline = s.subOutline :=
      (State.subOutline_congr setting).trans (by funext; rfl)
    obtain ⟨pairs, subs, counts, houtline⟩ := htrace.finish hv
    rw [shape, hsubpat, presentBelow_nsub] at subs
    rw [shape] at counts houtline
    rw [outline, setting.ops] at houtline
    refine ⟨pairs.map Prod.snd, by rw [← subs, List.length_map, List.length_map], fun m hm => ?_, ?_⟩
    · obtain ⟨p, hp, rfl⟩ := List.mem_map.1 hm
      exact counts p hp
    · rw [← subs, ← List.unzip_fst, ← List.unzip_snd, List.zip_unzip]
      exact houtline

/-- Settles O59: the trace of the block in `FINISH`. -/
theorem decblkRequestOrder : Obligations.DecblkRequestOrder := by
  rintro s ops sh w hready henv hsound hwf rfl rfl
  obtain ⟨v, hexec, path, hv⟩ := exec_decblk_completes hready henv hsound hwf
  obtain ⟨-, -, log, hreq, -, counts, hlen, hcounts, houtline⟩ := Ticks.traced_finish path hv
  refine ⟨_, symbolRequests s.ctx ops s.stream ++ log, counts, hexec, ?_, hlen, hcounts, ?_⟩
  · rw [v.finishBlock_ports.requests, hreq, List.append_assoc]
  · rw [List.map_append, houtline]
    congr 1
    refine (List.map_congr_left fun r hr => ?_).trans (List.map_id _)
    obtain ⟨cls, rfl⟩ := eq_symRead_of_mem_symbolRequests hr
    rfl

/-- What the block in `FINISH` writes to the records. -/
theorem Ticks.finishBlock_records {s v : State} {ops : DecOps} (path : Ticks Config.vrd (s.begun ops) v)
    (hv : v.phase = .finish) :
    v.finishBlock.result = resultFor (shapeFor ops s.stream) (subpatFor Config.vrd s.ctx ops s.stream) ∧
      v.finishBlock.responses = s.responses ++ [0#4 ++ resultWord v.finishBlock.result] ∧
      v.finishBlock.cmdcnt = s.cmdcnt + 1 ∧ v.finishBlock.status = s.status ∧
      v.finishBlock.ttacc = ttaccFor ops (shapeFor ops s.stream) s.ttacc ∧
      v.finishBlock.work.quant = quantOf s.qctx.mquant ∧
      v.finishBlock.work.scale = scaleOf s.qctx.mquant s.qctx.halfqp ∧ v.finishBlock.blkDefined = true := by
  have same := Ticks.records_of_begun path (by rw [hv]; rfl)
  obtain ⟨hshape, hsubpat, -⟩ := Ticks.traced_finish path hv
  have shape : v.shape = shapeFor ops s.stream := by rw [State.shape, hshape, shapeOf_shapeCode]
  have hops : v.cont.ops = ops := (Ticks.setting path).ops
  rw [State.finishBlock_eq]
  refine ⟨?_, ?_, congrArg (· + 1) same.cmdcnt, same.status, ?_, same.quant, same.scale, same.blkDefined⟩
  · rw [State.finalResult, hshape, hsubpat, shape, resultFor]
  · exact congrArg (· ++ [0#4 ++ resultWord v.finalResult]) same.responses
  · have ttacc : v.ttacc = s.ttacc := same.ttacc
    rw [State.updateTtacc, hops, ttaccFor]
    split
    · rw [hshape, ttacc]
    · exact ttacc

/-- Settles O41: the records of the block in `FINISH`, and its symbol reads. -/
theorem decblkCompletes : Obligations.DecblkCompletes := by
  intro s ops hready henv hsound hwf
  obtain ⟨v, hexec, path, hv⟩ := exec_decblk_completes hready henv hsound hwf
  obtain ⟨result, responses, cmdcnt, status, ttacc, quant, scale, defined⟩ := Ticks.finishBlock_records path hv
  obtain ⟨-, -, log, hreq, within, -⟩ := Ticks.traced_finish path hv
  refine ⟨_, hexec, rfl, result, responses, cmdcnt, status, ttacc, quant, scale, defined, log, ?_,
    fun r hr cls reg e => ?_⟩
  · rw [v.finishBlock_ports.requests, hreq]
  · exact List.countP_eq_zero.1 within.sym r hr (e ▸ rfl)

/-! ## The requests of the reconstruction -/

/-- What is read off the outlines of the sub-blocks alike, whatever the counts of coefficients. -/
theorem filterMap_subOutlines {α : Type} (s : State) (sh : Shape) (skip : Bool) {g : Request → Option α}
    {each : Nat → List α} (hg : ∀ k m, (s.subOutline sh skip k m).filterMap g = each k) {subs counts : List Nat}
    (hlen : counts.length = subs.length) :
    ((subs.zip counts).flatMap fun p => s.subOutline sh skip p.1 p.2).filterMap g = subs.flatMap each := by
  rw [List.filterMap_flatMap]
  simp only [hg]
  rw [← List.flatMap_map, List.map_fst_zip hlen.ge]

/-- The requests of one sub-block off the stream (R57, R176). -/
theorem State.filterMap_subOutline (s : State) (sh : Shape) (skip : Bool) (k m : Nat) :
    (s.subOutline sh skip k m).filterMap Request.itxShape = (if skip then [] else [shapeCode sh]) ∧
      (s.subOutline sh skip k m).filterMap Request.memAccess =
        if skip then []
        else ((List.range sh.cap).map fun i =>
          pixAddr s.dstbase s.dststride sh k (i / sh.width) (i % sh.width)).flatMap fun a =>
            [(false, a), (true, a)] := by
  have coefs {α : Type} {g : Request → Option α} (hg : g (.coefNext s.ctx.codingset) = none) :
      (List.replicate m (Request.coefNext s.ctx.codingset)).filterMap g = [] := List.filterMap_replicate_of_none hg
  rw [State.subOutline, List.filterMap_append, List.filterMap_append, coefs rfl, coefs rfl]
  cases skip with
  | true => exact ⟨rfl, rfl⟩
  | false =>
    simp [List.filterMap_flatMap, List.filterMap_cons, List.flatMap_map, Request.itxShape, Request.memAccess]

theorem filterMap_map_outline {α : Type} {g : Request → Option α} (hg : ∀ r, g r.outline = g r)
    (log : List Request) : (log.map Request.outline).filterMap g = log.filterMap g := by
  rw [List.filterMap_map, show g ∘ Request.outline = g from funext hg]

/-- What is not on the symbol port is in what follows the symbol reads. -/
theorem filterMap_symbolRequests {α : Type} {g : Request → Option α} (hg : ∀ cls reg, g (.symRead cls reg) = none)
    (x : Ctx) (ops : DecOps) (stream : List Code) : (symbolRequests x ops stream).filterMap g = [] := by
  refine List.filterMap_eq_nil_iff.2 fun r hr => ?_
  obtain ⟨cls, rfl⟩ := eq_symRead_of_mem_symbolRequests hr
  exact hg _ _

/-- The coefficient requests of the sub-blocks are as many as their counts say. -/
theorem countP_subOutlines (s : State) (sh : Shape) (skip : Bool) {subs counts : List Nat}
    (hlen : counts.length = subs.length) :
    ((subs.zip counts).flatMap fun p => s.subOutline sh skip p.1 p.2).countP Request.isCoef = counts.sum := by
  rw [List.countP_flatMap]
  congr 1
  calc (subs.zip counts).map (List.countP Request.isCoef ∘ fun p => s.subOutline sh skip p.1 p.2)
      = (subs.zip counts).map Prod.snd := List.map_congr_left fun p _ => (s.countP_subOutline_le sh skip p.1 p.2).2.1
    _ = counts := List.map_snd_zip hlen.le

theorem countP_isCoef_symbolRequests (x : Ctx) (ops : DecOps) (stream : List Code) :
    (symbolRequests x ops stream).countP Request.isCoef = 0 := by
  refine List.countP_eq_zero.2 fun r hr => ?_
  obtain ⟨cls, rfl⟩ := eq_symRead_of_mem_symbolRequests hr
  nofun

/-- Settles O58: the transform, memory and coefficient requests read off the trace of the block in `FINISH`. -/
theorem decblkReconstructsPresentSubblocks : Obligations.DecblkReconstructsPresentSubblocks := by
  rintro s ops sh w hready henv hsound hwf rfl rfl
  obtain ⟨v, hexec, path, hv⟩ := exec_decblk_completes hready henv hsound hwf
  obtain ⟨-, -, log, hreq, -, counts, hlen, hcounts, houtline⟩ := Ticks.traced_finish path hv
  have sub := s.filterMap_subOutline (shapeFor ops s.stream) ops.skipblk
  have coefs : log.countP Request.isCoef = counts.sum := by
    rw [← countP_map_outline (fun r => r.kind_outline.2.1), houtline, countP_subOutlines s _ _ hlen]
  refine ⟨_, symbolRequests s.ctx ops s.stream ++ log, hexec, ?_, ?_, ?_, ?_, ?_⟩
  · rw [v.finishBlock_ports.requests, hreq, List.append_assoc]
  · rw [List.filterMap_append, filterMap_symbolRequests (fun _ _ => rfl), List.nil_append,
      ← filterMap_map_outline (fun r => by cases r <;> rfl), houtline,
      filterMap_subOutlines s _ _ (fun k m => (sub k m).1) hlen]
    cases ops.skipblk with
    | true => simp
    | false => simp [← List.map_eq_flatMap]
  · rw [List.filterMap_append, filterMap_symbolRequests (fun _ _ => rfl), List.nil_append,
      ← filterMap_map_outline (fun r => by cases r <;> rfl), houtline,
      filterMap_subOutlines s _ _ (fun k m => (sub k m).2) hlen]
    cases ops.skipblk with
    | true => simp
    | false => simp [State.presentPixels, List.flatMap_assoc]
  · rw [List.countP_append, countP_isCoef_symbolRequests, Nat.zero_add, coefs, ← hlen]
    simpa using List.card_nsmul_le_sum counts 1 fun m hm => (hcounts m hm).1
  · rw [List.countP_append, countP_isCoef_symbolRequests, Nat.zero_add, coefs, ← hlen]
    exact List.sum_le_card_nsmul counts _ fun m hm => (hcounts m hm).2

end Sys2Proof.Machine
end

section
/-! PROOFS. Two runs of a `DECBLK` of an 8x8 block: one whose first coefficient request fails, and one with a single
coefficient (`spec/41_decblk.md` rules R110, R117, R121, `spec/44_scan_and_sequencer.md` section 2). -/

namespace Sys2Proof.Machine

open Sys2Proof

/-! ## Up to the placement loop -/

/-- The operands of a `DECBLK` of shape 8x8. -/
def ops8x8 (first skipblk ttout : Bool) (n : BitVec 3) : DecOps :=
  { ttcode := 0, noshape := false, first, skipblk, ttout, n }

/-- A `DECBLK` of shape 8x8 that began in `s` stands at its placement loop in `v`, with nothing placed. -/
structure Pulls8x8 (s v : State) : Prop where
  phase : v.phase = .pull
  shape : v.shape = .full8x8
  k : v.work.k = 0
  cur : v.work.cur = 0
  cnt : v.work.cnt = 0
  mem : v.mem = s.mem
  blk : v.blk = Vector.replicate 64 0
  placed : v.placed = Vector.replicate 4 0
  ctx : v.ctx = s.ctx
  qctx : v.qctx = s.qctx
  quant : v.work.quant = quantOf s.qctx.mquant
  scale : v.work.scale = scaleOf s.qctx.mquant s.qctx.halfqp

theorem Pulls8x8.gotCode {s v : State} (h : Pulls8x8 s v) (r : Request) (rest : List Code) :
    Pulls8x8 s (v.gotCode r rest) :=
  ⟨h.phase, h.shape, h.k, h.cur, h.cnt, h.mem, h.blk, h.placed, h.ctx, h.qctx, h.quant, h.scale⟩

/-- The selector reads no symbol for the shape 8x8, and enters the loop at its one sub-block, which no sub-pattern
marks empty (R116, R128, R129). -/
theorem exists_pulls8x8 (c : Cfg) (s : State) (f k o : Bool) (n : BitVec 3) :
    ∃ v, Ticks c (s.begun (ops8x8 f k o n)) v ∧ Pulls8x8 s v ∧ SamePorts s v := by
  have raw : Ticked c (s.begun (ops8x8 f k o n)) ((s.begun (ops8x8 f k o n)).setRaw 0) := .rawGiven rfl rfl rfl
  generalize hu : (s.begun (ops8x8 f k o n)).setRaw 0 = u at raw
  have selected : Ticked c u (u.selected 0) := hu ▸ .patGiven rfl rfl rfl
  have hraw : u.work.raw = 0 := hu ▸ rfl
  have path : Ticks c (s.begun (ops8x8 f k o n)) (u.selected 0) := .head raw (.single selected)
  have setting := Ticks.setting path
  have enters := u.selected_enters 0
  have shape := u.selected_shape 0
  rw [hraw] at enters shape
  rcases enters with ⟨-, hempty⟩ | ⟨hp, hcur, hcnt, -, -, hk, -⟩
  · exact absurd (hempty 0 le_rfl (by decide)) (by decide)
  · have same := Ticks.records path rfl (by rw [hp]; rfl)
    have ports : SamePorts s (u.selected 0) := SamePorts.trans (hu ▸ ⟨rfl, rfl, rfl, rfl⟩) (u.selected_ports 0)
    exact ⟨_, path, {
      phase := hp
      shape := shape
      k := BitVec.eq_of_toNat_eq (Nat.lt_one_iff.1 hk)
      cur := hcur
      cnt := hcnt
      mem := ports.mem
      blk := (State.enterFrom_blk _ _ _).trans (hu ▸ rfl)
      placed := (State.enterFrom_placed _ _ _).trans (hu ▸ rfl)
      ctx := setting.ctx
      qctx := setting.qctx
      quant := same.quant
      scale := same.scale }, ports⟩

/-! ## The first request fails -/

/-- Settles O43: the selector, and the request that fails. -/
theorem decblkFirstRequestFails : Obligations.DecblkFirstRequestFails := by
  intro s f k o n code rest hready hgrants hs herr
  obtain ⟨v, path, hv, vports⟩ := exists_pulls8x8 Config.vrd s f k o n
  have answers : v.agentsAnswer = true := by
    rw [State.agentsAnswer, vports.grants, hgrants]
    rfl
  have step := Ticked.pull (c := Config.vrd) hv.phase code rest (vports.stream.trans hs) answers
  rw [State.takeTriple_raises _ _ herr] at step
  have hexec := exec_decblk_of_ticks (ops := ops8x8 f k o n) hready nofun (path.tail step) rfl
  have same := Ticks.records_of_begun path (by rw [hv.phase]; rfl)
  have unfaulted : v.status.err = false := (congrArg FaultRecord.err same.status).trans hready.1
  obtain ⟨status, responses, placed⟩ := State.streamFault_writes unfaulted rest
  obtain ⟨mem, blk, -, result⟩ := v.streamFault_frame rest
  obtain ⟨ttacc, cmdcnt⟩ := State.raiseFault_counters
    ((v.gotCode (.coefNext v.ctx.codingset) rest).setPlaced v.work.k.toNat v.work.cnt) (code := .eStream) v.work.k nofun
  have ports := ((v.gotCode (.coefNext v.ctx.codingset) rest).setPlaced v.work.k.toNat v.work.cnt).raiseFault_ports
    .eStream v.work.k
  refine ⟨_, hexec, rfl, ?_, ?_, cmdcnt.trans same.cmdcnt, ttacc.trans same.ttacc, result.trans same.result,
    fun j => ?_, State.cellAt_eq_zero_of_blk (blk.trans hv.blk), mem.trans vports.mem, ports.stream, ?_⟩
  · rw [hv.k] at status
    exact status
  · rw [same.responses] at responses
    exact responses
  · refine State.placedAt_eq_zero_of_placed (placed.trans ?_) j
    rw [hv.placed, hv.k, hv.cnt]
    rfl
  · refine ports.requests.trans ?_
    rw [← hv.ctx]
    exact congrArg (· ++ [Request.coefNext v.ctx.codingset]) vports.requests

/-! ## A single coefficient -/

theorem Ticks.of_ticks {c : Cfg} {n : Nat} {s t : State} (h : ticks c n s = some t) : Ticks c s t := by
  induction n generalizing s with
  | zero =>
    obtain rfl := Option.some.inj h
    exact .refl
  | succ n ih =>
    rw [ticks] at h
    cases hs : tick c s with
    | answer _ u =>
      rw [hs] at h
      exact .head ((tick_answer_iff c s u).1 hs) (ih h)
    | waits _ | refused _ => simp [hs] at h

/-- In the one sub-block of the shape 8x8 local indices are cells (R34). -/
theorem cellIndex_full8x8 (p : Nat) : cellIndex .full8x8 0 p = p := by
  simp only [cellIndex, x0, y0, Shape.width]
  omega

/-- The selector's answer for the shape 8x8 (R128, R129, R133). -/
theorem selector_ops8x8 (c : Cfg) (x : Ctx) (f k o : Bool) (n : BitVec 3) (stream : List Code) :
    shapeFor (ops8x8 f k o n) stream = .full8x8 ∧ subpatFor c x (ops8x8 f k o n) stream = 0 := ⟨rfl, rfl⟩

theorem resultWord_full8x8 : resultWord (resultFor .full8x8 0) = 0x0000800F#32 := by decide

/-- The shape code 0 changes no nibble (R190). -/
theorem ttaccFor_full8x8 (ops : DecOps) (ttacc : Word) : ttaccFor ops .full8x8 ttacc = ttacc := by
  simp [ttaccFor, shapeCode]

/-- The reconstruction of the 8x8 block that began in `s` starts in `u`, after one triple `a` (R110). -/
structure Recons8x8 (c : Cfg) (s u : State) (a : CoefAnswer) (rest : List Code) : Prop where
  phase : u.phase = .recon
  cont : u.cont.res = none ∧ u.cont.pix = 0 ∧ u.cont.old = none
  shape : u.shape = .full8x8
  k : u.work.k = 0
  mem : u.mem = s.mem
  stream : u.stream = rest
  blk : u.blk = (Vector.replicate 64 0).setIfInBounds (scanAt c .full8x8 s.ctx.regime a.skip.toNat)
    (dequant (quantOf s.qctx.mquant) (scaleOf s.qctx.mquant s.qctx.halfqp) s.qctx.pquantizer a.value)
  placed : u.placed = (Vector.replicate 4 0).setIfInBounds 0 1

/-- The triple lands in the cell the scan table names, with its dequantized value (R146, R156, R163). -/
theorem Pulls8x8.takes_last {c : Cfg} {s v : State} (h : Pulls8x8 s v) (hops : v.cont.ops.skipblk = false)
    {a : CoefAnswer} (herr : a.err = false) (hlast : a.last = true) (hskip : a.skip.toNat < 64) :
    Recons8x8 c s (v.takeTriple c a) a v.stream := by
  have cur : (v.advance a).work.cur.toNat = a.skip.toNat := by
    rw [State.toNat_advance_cur (by rw [h.cur]; exact Nat.zero_le _), h.cur]
    exact Nat.zero_add _
  have target : (v.advance a).targetCell c = scanAt c .full8x8 s.ctx.regime a.skip.toNat := by
    have k : (v.advance a).work.k = 0 := h.k
    have ctx : (v.advance a).ctx = s.ctx := h.ctx
    have shape : (v.advance a).shape = .full8x8 := h.shape
    rw [State.targetCell, cur, k, ctx, shape]
    exact cellIndex_full8x8 _
  have value : (v.advance a).deq a.value =
      dequant (quantOf s.qctx.mquant) (scaleOf s.qctx.mquant s.qctx.halfqp) s.qctx.pquantizer a.value := by
    rw [← h.quant, ← h.scale, ← h.qctx]
    rfl
  have capacity : v.work.cur.toNat + a.skip.toNat < v.shape.cap := by
    rw [h.cur, h.shape]
    exact (Nat.zero_add _).trans_lt hskip
  have fits : (v.advance a).work.cur.toNat < v.shape.cap := by rwa [cur, h.shape]
  have start : v.work.cur.toNat ≤ v.shape.cap := by omega
  have sub : v.work.k.toNat < v.shape.nsub := by
    rw [h.k, h.shape]
    decide
  obtain ⟨placed, -, -, ends, -⟩ := State.takeTriple_ends c start sub herr hlast capacity
  obtain ⟨phase, k, -, -, cont⟩ := ends hops
  have ports := v.takeTriple_ports c a
  exact {
    phase := phase
    cont := cont
    shape := (congrArg shapeOf (v.takeTriple_shape c a).1).trans h.shape
    k := k.trans h.k
    mem := ports.mem.trans h.mem
    stream := ports.stream
    blk := by
      rw [State.takeTriple_of_fits c herr fits, if_pos hlast, State.endPull_blk, State.place_blk, target, value,
        ← h.blk]
      rfl
    placed := by
      rw [placed, h.placed, h.k, h.cnt]
      rfl }

/-- The one triple, an answer that is no error, the last, and within the block. -/
theorem exists_recons8x8 {s : State} (f o : Bool) (n : BitVec 3) {code : Code} {rest : List Code}
    (hgrants : s.grants = none) (hs : s.stream = code :: rest) (herr : code.coef.err = false)
    (hlast : code.coef.last = true) (hskip : code.coef.skip.toNat < 64) :
    ∃ u, Ticks Config.vrd (s.begun (ops8x8 f false o n)) u ∧ Recons8x8 Config.vrd s u code.coef rest := by
  obtain ⟨v, path, hv, ports⟩ := exists_pulls8x8 Config.vrd s f false o n
  have answers : v.agentsAnswer = true := by
    rw [State.agentsAnswer, ports.grants, hgrants]
    rfl
  have step := Ticked.pull (c := Config.vrd) hv.phase code rest (ports.stream.trans hs) answers
  have hops : v.cont.ops.skipblk = false := congrArg DecOps.skipblk (Ticks.setting path).ops
  exact ⟨_, path.tail step,
    (hv.gotCode (.coefNext v.ctx.codingset) rest).takes_last hops herr hlast hskip⟩

/-- Settles O42: the selector, the triple, the reconstruction, and the results. -/
theorem decblkSingleCoefficient : Obligations.DecblkSingleCoefficient := by
  intro s f o n code rest hready henv hwf hdistinct hs herr hlast hskip
  obtain ⟨u, path, hu⟩ := exists_recons8x8 f o n henv.1 hs herr hlast hskip
  obtain ⟨hres, hpix, hold⟩ := hu.cont
  have setting := Ticks.setting path
  have address (i : Nat) : u.pixelAddr i = pixAddr s.dstbase s.dststride .full8x8 0 (i / 8) (i % 8) := by
    rw [State.pixelAddr, hu.shape, hu.k, setting.dstbase, setting.dststride]
    rfl
  have byte (a : Addr) : u.byteAt a = s.byteAt a := by rw [State.byteAt, hu.mem, State.byteAt]
  have block : u.BlockOk := Ticks.blockOk path rfl (by rw [hu.phase]; rfl) (s.begun_blockOk _)
  have samples := itxSamples_eq_full (c := Config.vrd) rfl (block.block.filled (by rw [hu.phase]; rfl))
  obtain ⟨w, res, hticks, rfl, -, -, hpixels, hothers, hblk, hplaced, -, -, -, -, -, -, -, -, -, -, -, hstream, -,
    enters⟩ := reconstructionAddsClamped Config.vrd u hu.phase hres hpix hold
      (Ticks.environmentAnswers path ⟨henv.1, henv.2⟩) (hu.mem ▸ hwf)
  have path := path.trans (Ticks.of_ticks hticks)
  have finish : w.phase = .finish := by
    rw [hu.shape, hu.k] at enters
    rcases enters with ⟨hp, -⟩ | ⟨-, -, -, -, hle, hlt, -⟩
    · exact hp
    · exact absurd hlt (Nat.not_lt.2 hle)
  have hexec := exec_decblk_of_ticks (ops := ops8x8 f false o n) hready nofun (path.tail (.finish finish)) rfl
  obtain ⟨shape, subpat⟩ := selector_ops8x8 Config.vrd s.ctx f false o n s.stream
  obtain ⟨hresult, responses, -, -, ttacc, -⟩ := Ticks.finishBlock_records path finish
  have ports := w.finishBlock_ports
  have endBlk : w.finishBlock.blk = u.blk := by rw [State.finishBlock_eq, ← hblk]
  refine ⟨_, hexec, rfl, ports.stream.trans (hstream.trans hu.stream), endBlk.trans hu.blk, ?_, ?_, ?_, fun i hi => ?_,
    fun a ha => ?_⟩
  · have placed : w.finishBlock.placed = (Vector.replicate 4 0).setIfInBounds 0 1 :=
      w.finishBlock_placed.trans (hplaced.trans hu.placed)
    show w.finishBlock.placedWord = 1
    simp only [State.placedWord, State.placedAt, placed]
    rfl
  · rw [responses, hresult, shape, subpat, resultWord_full8x8]
  · rw [ttacc, shape, ttaccFor_full8x8]
  · have distinct : u.pixelsDistinct .full8x8 0 := by
      rw [State.pixelsDistinct, setting.dstbase, setting.dststride]
      exact hdistinct
    have pixel := hpixels (by rw [hu.shape, hu.k]; exact distinct) i (by rwa [hu.shape])
    have sample : sampleAt (itxSamples Config.vrd u.shape (u.itxKind Config.vrd) u.coeffs) i =
        Config.vrd.itxFull .full8x8 (w.finishBlock.coeffsOf .full8x8 0) i := by
      have coeffs : w.finishBlock.coeffsOf .full8x8 0 = u.coeffs := by
        rw [State.coeffs, hu.shape, hu.k]
        simp only [State.coeffsOf, State.cellAt, endBlk]
        rfl
      have within : i < Shape.full8x8.cap := hi
      rw [samples, coeffs, hu.shape, itxSamples, sampleAt, List.getD_eq_getElem _ _ (by simpa using within)]
      simp
    rw [State.byteAt, ports.mem, ← address, ← byte, ← sample]
    exact pixel
  · rw [State.byteAt, ports.mem, ← byte]
    refine hothers a fun i hi => ?_
    rw [address]
    exact ha i (by rwa [hu.shape] at hi)

end Sys2Proof.Machine
end
